-- ==== Sys2Proof/Word.lean ====
section
/-!
DEFINITION. The data word of AMFM-CORE (R8: XLEN = 32), the register number, and nothing else.
-/
namespace Sys2Proof

/-- Every host-visible register and every private data word is 32 bits wide and holds a binary32
pattern (R8, R10). -/
abbrev Word := BitVec 32

/-- A register number of the host register space is 8 bits wide (R22, R50). -/
abbrev RegNum := BitVec 8

end Sys2Proof
end

