-- ==== Sys2Proof/Syntax.lean ====
section
/-!
DEFINITION. The eleven commands of AMFM-CORE (R70, R73): one constructor per row of the opcode table.
No command has an operand field (R74).
-/
namespace Sys2Proof

/-- The commands, in the order of the opcode map (R73). -/
inductive Instr where
  | nop
  | hilTick
  | choTick
  | wahTick
  | octTick
  | hybTick
  | hilInit
  | choInit
  | wahInit
  | octInit
  | hybInit
deriving DecidableEq, Repr

end Sys2Proof
end

