-- ==== Sys2Proof/WellFormed.lean ====
section
/-!
DEFINITION. Format `C` of a command word (R71), the check its three fields must pass (R71, R75), and
the fields each command is encoded with (R73).
-/
namespace Sys2Proof

/-- The fields of format `C`: bits [31:8], [7:4] and [3:0] (R71). -/
structure CommandFields where
  zero : BitVec 24
  func : BitVec 4
  unit : BitVec 4
deriving DecidableEq, Repr

/-- `ZERO` must be 0 (R71). -/
def CommandFields.zeroOk (c : CommandFields) : Bool := c.zero == 0

/-- `FUNC` is 0 (`NOP`), 1 (`TICK`) or 2 (`INIT`); 3 to 15 are reserved (R71). -/
def CommandFields.funcOk (c : CommandFields) : Bool := decide (c.func.toNat ≤ 2)

/-- `UNIT` is 0 to 4, and 0 when `FUNC` is 0 (R71). -/
def CommandFields.unitOk (c : CommandFields) : Bool :=
  if c.func = 0 then c.unit == 0 else decide (c.unit.toNat ≤ 4)

/-- The fields of one of the eleven command words (R71, R75). -/
def CommandFields.wellFormed (c : CommandFields) : Bool := c.zeroOk && c.funcOk && c.unitOk

/-- `FUNC` and `UNIT` of each command, the opcode map (R73). -/
def Instr.fields : Instr → CommandFields
  | .nop     => ⟨0, 0, 0⟩
  | .hilTick => ⟨0, 1, 0⟩
  | .choTick => ⟨0, 1, 1⟩
  | .wahTick => ⟨0, 1, 2⟩
  | .octTick => ⟨0, 1, 3⟩
  | .hybTick => ⟨0, 1, 4⟩
  | .hilInit => ⟨0, 2, 0⟩
  | .choInit => ⟨0, 2, 1⟩
  | .wahInit => ⟨0, 2, 2⟩
  | .octInit => ⟨0, 2, 3⟩
  | .hybInit => ⟨0, 2, 4⟩

/-- A command is well formed when its fields are; a command has no operand to get wrong (R74). -/
def Instr.wellFormed (i : Instr) : Bool := i.fields.wellFormed

end Sys2Proof
end

