-- ==== Sys2Proof/Decode.lean ====
section
/-!
DEFINITION. Decoding of command words (R72), total on all 2^32 words and rejecting the reserved ones by
name (R75); then the encoder; then `decodeTableWord`, the decoder on the opcode table's numbering.
-/
namespace Sys2Proof

/-- Why a word is a reserved command word (R75). -/
inductive DecodeError where
  /-- A bit of [31:8] is set. -/
  | zeroFieldSet
  /-- `FUNC` is 3 to 15. -/
  | funcReserved
  /-- `UNIT` is 5 to 15, or is not 0 with `FUNC` = 0. -/
  | unitReserved
deriving DecidableEq, Repr

/-- The three fields of a word in format `C` (R71). -/
def fieldsOf (w : Word) : CommandFields :=
  ⟨w.extractLsb' 8 24, w.extractLsb' 4 4, w.extractLsb' 0 4⟩

/-- The `TICK` of unit `u`, for the units 0 HIL, 1 CHO, 2 WAH, 3 OCT, 4 HYB (R72). -/
def tickOf (u : Nat) : Option Instr :=
  match u with
  | 0 => some .hilTick
  | 1 => some .choTick
  | 2 => some .wahTick
  | 3 => some .octTick
  | 4 => some .hybTick
  | _ => none

/-- The `INIT` of unit `u` (R72). -/
def initOf (u : Nat) : Option Instr :=
  match u with
  | 0 => some .hilInit
  | 1 => some .choInit
  | 2 => some .wahInit
  | 3 => some .octInit
  | 4 => some .hybInit
  | _ => none

/-- The command of a `FUNC` and a `UNIT` value (R72). -/
def commandOf (f u : Nat) : Except DecodeError Instr :=
  match f with
  | 0 => if u = 0 then .ok .nop else .error .unitReserved
  | 1 => (tickOf u).elim (.error .unitReserved) .ok
  | 2 => (initOf u).elim (.error .unitReserved) .ok
  | _ => .error .funcReserved

/-- Decoding of a command word; it reads no state (R72). -/
def decode (w : Word) : Except DecodeError Instr :=
  if (fieldsOf w).zero ≠ 0 then .error .zeroFieldSet
  else commandOf (fieldsOf w).func.toNat (fieldsOf w).unit.toNat

/-- The word of three fields, `ZERO ++ FUNC ++ UNIT` (R71, R9). -/
def wordOf (c : CommandFields) : Word := c.zero ++ c.func ++ c.unit

/-- The word of a command (R73). -/
def encode (i : Instr) : Word := wordOf i.fields

/-- What the decoder reads from a row of the opcode table: `w` holds the row's bits, numbered as the
table numbers them, and `nbits` says how many the table gives. A command is one 32-bit word (R71). -/
def decodeTableWord (nbits w : Nat) : Option Instr :=
  match decode (BitVec.ofNat 32 (w % 2 ^ nbits)) with
  | .ok i => some i
  | .error _ => none

end Sys2Proof
end

