-- ==== Sys2Proof/Config.lean ====
section
/-!
DEFINITION. What an implementation of AMFM-CORE fixes: the sizes of R7, and the two parameters the
spec leaves open (R8, R90): the numeric configuration `NUM` and the output bound `VMAX`.
They are parameters of the step and not state (R14). Every meaning takes a `Params`; `exec` runs it
at `Params.default` (Machine/Defaults.lean), the spec's own default instance.
-/
namespace Sys2Proof.Config

/-- `HIL_TAPS` (R7): the length of the Hilbert FIR and of its ring buffer. -/
abbrev hilTaps : Nat := 15

/-- `HIL_CENTER` (R7): the group delay of the FIR in samples. -/
abbrev hilCenter : Nat := 7

/-- `CHO_VOICES` (R7): the number of chorus voices. -/
abbrev choVoices : Nat := 5

/-- `CHO_CAP` (R7): the samples in each delay buffer of a voice. -/
abbrev choCap : Nat := 4410

/-- The entries of the resynthesis cosine table, 2^`LUT_BITS` with `LUT_BITS` = 10 (R8, R98). -/
abbrev lutSize : Nat := 1024

/-- The numeric configuration `NUM`: a record of total functions on binary32 patterns (R90). -/
structure NumConfig where
  fadd  : Word → Word → Word
  fsub  : Word → Word → Word
  fmul  : Word → Word → Word
  fdiv  : Word → Word → Word
  fsqrt : Word → Word
  /-- The resynthesis cosine (R98). -/
  cosr  : Word → Word
  /-- The sine of the biquad coefficients (R101). -/
  sinc  : Word → Word
  /-- The cosine of the biquad coefficients (R101). -/
  cosc  : Word → Word
  /-- The two-argument arctangent of (y, x) (R102). -/
  atan2 : Word → Word → Word
  /-- The hyperbolic tangent (R103). -/
  tanh  : Word → Word

/-- The open parameters of the machine in one place (R8; 93_implementation_defined.md U4, U5). -/
structure Params where
  num  : NumConfig
  /-- The valid output range is [−`vmax`, `vmax`] (R8). -/
  vmax : Word

end Sys2Proof.Config
end

