-- ==== Sys2Proof/Machine/State.lean ====
section
/-!
DEFINITION. The architectural state of AMFM-CORE (R20): the 22 host data registers and `FS`, `DT`
(R22, R25), the five private state records (R30 to R34), and, as the MODEL's own part, the host's side
of the interface: the transactions still to be performed and the words read so far (R13, R200).
`CMD` holds nothing (R25) and so has no field.
-/
namespace Sys2Proof.Machine

/-- A register that holds a value: the host data registers of R22 and the control registers `FS`, `DT`
of R25. -/
inductive Reg where
  | fs | dt
  | hilIn | hilAm | hilFm
  | choAm | choFm | choDelay | choDetune | choOut
  | wahAm | wahFm | wahFc | wahQ | wahOut
  | octAm | octFm | octCtrl | octOut
  | hybAm | hybFm1 | hybFm2 | hybMix | hybOut
deriving DecidableEq, Repr

/-- The contents of the 24 registers (R22, R25). -/
structure Regs where
  fs : Word
  dt : Word
  hilIn : Word
  hilAm : Word
  hilFm : Word
  choAm : Word
  choFm : Word
  choDelay : Word
  choDetune : Word
  choOut : Word
  wahAm : Word
  wahFm : Word
  wahFc : Word
  wahQ : Word
  wahOut : Word
  octAm : Word
  octFm : Word
  octCtrl : Word
  octOut : Word
  hybAm : Word
  hybFm1 : Word
  hybFm2 : Word
  hybMix : Word
  hybOut : Word
deriving DecidableEq, Repr

/-- A private memory (R50, R52): the entries that do not hold `0x00000000`, as pairs of an entry index
and a 32-bit word, the indices strictly rising. An unlisted entry reads as `0x00000000`, the reset value
(R52). An entry is a whole word because the spec has no narrower access and no byte order (R52, R53). -/
abbrev Memory := List (Nat × Word)

/-- The canonical form of a memory of `size` entries whose listed indices start at `lo` or above. -/
def Memory.wfFrom (size : Nat) : Nat → Memory → Bool
  | _, [] => true
  | lo, (i, v) :: rest =>
    decide (lo ≤ i) && decide (i < size) && decide (v ≠ 0#32) && Memory.wfFrom size (i + 1) rest

/-- The canonical form of a private memory of `size` entries: equal memories are equal data. -/
def Memory.wf (size : Nat) (m : Memory) : Bool := Memory.wfFrom size 0 m

/-- HIL private state (R30): the sample ring buffer, the write index and the phase of the previous tick. -/
structure HilState where
  buf : Memory
  wp : Fin Config.hilTaps
  prev : Word
deriving DecidableEq, Repr

/-- One chorus voice (R31): its AM and FM delay buffers, its write pointer and its phase accumulator. -/
structure Voice where
  am : Memory
  fm : Memory
  wp : Fin Config.choCap
  ph : Word
deriving DecidableEq, Repr

/-- CHO private state (R31): the voice records 0 to 4, which hold the voices k = −2 to 2. -/
structure ChoState where
  v0 : Voice
  v1 : Voice
  v2 : Voice
  v3 : Voice
  v4 : Voice
deriving DecidableEq, Repr

/-- WAH private state (R32): filter input and output histories, smoothing history, phase accumulator. -/
structure WahState where
  x1 : Word
  x2 : Word
  y1 : Word
  y2 : Word
  sm : Word
  ph : Word
deriving DecidableEq, Repr

/-- OCT private state (R33): the phase accumulator. -/
structure OctState where
  ph : Word
deriving DecidableEq, Repr

/-- HYB private state (R34): the smoothed mixed frequency and the phase accumulator. -/
structure HybState where
  sm : Word
  ph : Word
deriving DecidableEq, Repr

/-- What the host can do to the machine: the two transactions and the reset event (R200). -/
inductive Transaction where
  | regWrite (n : RegNum) (v : Word)
  | regRead (n : RegNum)
  | reset
deriving DecidableEq, Repr

/-- The host's side (R13, R200), the model's own field: the transactions it will perform, the next one
first, and the words its reads have returned, the latest first. -/
structure HostSide where
  pending : List Transaction
  results : List Word
deriving DecidableEq, Repr

/-- The whole state (R20) and the host's side. -/
structure State where
  regs : Regs
  hil : HilState
  cho : ChoState
  wah : WahState
  oct : OctState
  hyb : HybState
  host : HostSide
deriving DecidableEq, Repr

/-- Why a step stops with a fault. AMFM-CORE itself has none (R210). -/
inductive Fault where
  /-- Raised by `HIL.TICK` where an unwrap loop of R122 does not end. R124: with a phase outside
  [−`PI`, `PI`] "the loops might not terminate"; under `P-ATAN2-RANGE` and from reset it cannot arise.
  Safe: the spec gives such a tick no result. -/
  | unwrapNeverEnds
deriving DecidableEq, Repr

/-- Why a step is refused: the reserved transactions (R209; 93_implementation_defined.md U1 to U3), to
which the spec gives no meaning and which a model must refuse. All are safe. -/
inductive Refusal where
  /-- Raised by the dispatcher for a command with no meaning in the model; safe. No arm uses it. -/
  | notModelled (mnemonic : String)
  /-- Raised by a `RegWrite` of a reserved word to `CMD` (U1, R75); safe. -/
  | reservedCommand (w : Word)
  /-- Raised by a `RegWrite` to a read-only register (U2, R24); safe. -/
  | writeReadOnly (n : RegNum)
  /-- Raised by a `RegWrite` of an unmapped register number (U3, R26); safe. -/
  | writeUnmapped (n : RegNum)
  /-- Raised by a `RegRead` of an unmapped register number (U3, R26); safe. -/
  | readUnmapped (n : RegNum)
  /-- Raised by a `RegRead` of the write-only register `CMD` (U3, R25); safe. -/
  | readCmd
deriving DecidableEq, Repr

/-- Every register holds `0x00000000` after reset (R37, R230). -/
def Regs.reset : Regs :=
  { fs := 0#32, dt := 0#32, hilIn := 0#32, hilAm := 0#32, hilFm := 0#32, choAm := 0#32, choFm := 0#32, choDelay := 0#32,
    choDetune := 0#32, choOut := 0#32, wahAm := 0#32, wahFm := 0#32, wahFc := 0#32, wahQ := 0#32, wahOut := 0#32,
    octAm := 0#32, octFm := 0#32, octCtrl := 0#32, octOut := 0#32, hybAm := 0#32, hybFm1 := 0#32, hybFm2 := 0#32,
    hybMix := 0#32, hybOut := 0#32 }

/-- HIL after reset or `HIL.INIT` (R30, R230). -/
def HilState.reset : HilState := ⟨[], 0, 0#32⟩

/-- A voice after reset or `CHO.INIT` (R31, R230). -/
def Voice.reset : Voice := ⟨[], [], 0, 0#32⟩

/-- CHO after reset or `CHO.INIT` (R31, R230). -/
def ChoState.reset : ChoState := ⟨Voice.reset, Voice.reset, Voice.reset, Voice.reset, Voice.reset⟩

/-- WAH after reset or `WAH.INIT` (R32, R230). -/
def WahState.reset : WahState := ⟨0#32, 0#32, 0#32, 0#32, 0#32, 0#32⟩

/-- OCT after reset or `OCT.INIT` (R33, R230). -/
def OctState.reset : OctState := ⟨0#32⟩

/-- HYB after reset or `HYB.INIT` (R34, R230). -/
def HybState.reset : HybState := ⟨0#32, 0#32⟩

/-- The machine right after reset (R37, R230), with no transaction pending and no word read. -/
def State.reset : State :=
  { regs := Regs.reset, hil := HilState.reset, cho := ChoState.reset, wah := WahState.reset,
    oct := OctState.reset, hyb := HybState.reset, host := ⟨[], []⟩ }

/-- `s` with other register contents. -/
def State.withRegs (s : State) (r : Regs) : State := { s with regs := r }

/-- `s` with another HIL record. -/
def State.withHil (s : State) (h : HilState) : State := { s with hil := h }

/-- `s` with another CHO record. -/
def State.withCho (s : State) (c : ChoState) : State := { s with cho := c }

/-- `s` with another WAH record. -/
def State.withWah (s : State) (w : WahState) : State := { s with wah := w }

/-- `s` with another OCT record. -/
def State.withOct (s : State) (o : OctState) : State := { s with oct := o }

/-- `s` with another HYB record. -/
def State.withHyb (s : State) (y : HybState) : State := { s with hyb := y }

/-- `s` with another host side. -/
def State.withHost (s : State) (h : HostSide) : State := { s with host := h }

end Sys2Proof.Machine
end

