-- ==== Sys2Proof/Machine/Flags.lean ====
section
/-!
DEFINITION. AMFM-CORE has no flags, condition codes or predicates registers (R29), so no flag is
computed anywhere. What the rules test are the values themselves: the class of a binary32 pattern and
the IEEE 754 comparisons (R10, R11).
-/
namespace Sys2Proof.Machine

/-- The sign bit, bit 31 (R10). -/
def isNeg (w : Word) : Bool := w.getLsbD 31

/-- The exponent field, bits [30:23] (R10). -/
def expField (w : Word) : Nat := w.toNat / 2 ^ 23 % 2 ^ 8

/-- The fraction field, bits [22:0] (R10). -/
def fracField (w : Word) : Nat := w.toNat % 2 ^ 23

/-- A NaN pattern: exponent all ones, fraction not zero (R10). -/
def isNaN (w : Word) : Bool := expField w == 255 && fracField w != 0

/-- An infinity: exponent all ones, fraction zero (R10). -/
def isInf (w : Word) : Bool := expField w == 255 && fracField w == 0

/-- `isFinite` (R11): neither a NaN nor an infinity. -/
def isFinite (w : Word) : Bool := expField w != 255

/-- The magnitude in units of 2^−149, the spacing of the subnormals: every finite binary32 is a whole
number of them (R10). An infinity gets 2^128, above every finite magnitude. -/
def mag (w : Word) : Nat :=
  if expField w = 0 then fracField w else (2 ^ 23 + fracField w) * 2 ^ (expField w - 1)

/-- The signed value in units of 2^−149 (R10). -/
def sval (w : Word) : Int := if isNeg w then -(mag w : Int) else mag w

/-- A number of either sign that is zero (R11: `−0.0 == +0.0`). -/
def isZero (w : Word) : Bool := !isNaN w && mag w == 0

/-- `a < b`, false when an operand is NaN (R11). -/
def flt (a b : Word) : Bool := !isNaN a && !isNaN b && decide (sval a < sval b)

/-- `a <= b`, false when an operand is NaN (R11). -/
def fle (a b : Word) : Bool := !isNaN a && !isNaN b && decide (sval a ≤ sval b)

/-- `a > b` (R11). -/
def fgt (a b : Word) : Bool := flt b a

/-- `a >= b` (R11). -/
def fge (a b : Word) : Bool := fle b a

/-- `a == b` as IEEE comparison, false when an operand is NaN (R11). -/
def feq (a b : Word) : Bool := !isNaN a && !isNaN b && decide (sval a = sval b)

end Sys2Proof.Machine
end

