-- ==== Sys2Proof/Machine/Float.lean ====
section
/-!
DEFINITION. The default basic arithmetic of `NUM` (R91): IEEE 754 binary32, round to nearest, ties to
even, NaN results canonical (R92). Finite values are whole numbers of 2^−149 (`Flags.mag`), every exact
result is a quotient of two naturals in that unit, and `roundMag` rounds it once.
Also `fneg`, `float`, `ffloor`, `ifloor` and `fmod` (R91, R96).
-/
namespace Sys2Proof.Machine

/-- The canonical NaN (R19, R92). -/
def canonNaN : Word := 0x7FC00000#32

/-- `+0.0`. -/
def posZero : Word := 0x00000000#32

/-- The pattern of infinity without its sign (R10). -/
def infMag : Nat := 0x7F800000

/-- The word of a sign and the 31 bits below it (R10). -/
def pack (neg : Bool) (m : Nat) : Word := BitVec.ofNat 32 ((if neg then 2 ^ 31 else 0) + m)

/-- The natural nearest `n / d`, ties to even (R91). -/
def roundDiv (n d : Nat) : Nat :=
  if 2 * (n % d) < d then n / d
  else if d < 2 * (n % d) then n / d + 1
  else n / d + n / d % 2

/-- How many binary places above 2^−149 the last place of a binary32 near `n / d` lies: 0 below 2^24
units, and as many as leave 24 significant bits above (R10). -/
def lastPlace (n d : Nat) : Nat := (n / d).log2 - 23

/-- The 31 low bits of the binary32 nearest the real `n / d` in units of 2^−149: ties to even,
subnormals kept, infinity from 2^128 on (R91). -/
def roundMag (n d : Nat) : Nat :=
  min (lastPlace n d * 2 ^ 23 + roundDiv n (d * 2 ^ lastPlace n d)) infMag

/-- `a + b` (R91). -/
def fadd (a b : Word) : Word :=
  if isNaN a || isNaN b then canonNaN
  else if isInf a then (if isInf b && isNeg a != isNeg b then canonNaN else a)
  else if isInf b then b
  else if sval a + sval b = 0 then pack (isNeg a && isNeg b) 0
  else pack (decide (sval a + sval b < 0)) (roundMag (sval a + sval b).natAbs 1)

/-- `fneg(a)` flips bit 31 of a non-NaN `a` (R91); a NaN operand gives the canonical NaN (R92). -/
def fneg (a : Word) : Word := if isNaN a then canonNaN else a ^^^ 0x80000000#32

/-- `a − b` (R91). -/
def fsub (a b : Word) : Word := fadd a (fneg b)

/-- `a × b`; the sign is the exclusive-or of the signs (R91). -/
def fmul (a b : Word) : Word :=
  if isNaN a || isNaN b then canonNaN
  else if isInf a || isInf b then
    (if isZero a || isZero b then canonNaN else pack (isNeg a != isNeg b) infMag)
  else pack (isNeg a != isNeg b) (roundMag (mag a * mag b) (2 ^ 149))

/-- `a ÷ b`; the sign is the exclusive-or of the signs (R91). -/
def fdiv (a b : Word) : Word :=
  if isNaN a || isNaN b then canonNaN
  else if isInf a then (if isInf b then canonNaN else pack (isNeg a != isNeg b) infMag)
  else if isInf b then pack (isNeg a != isNeg b) 0
  else if isZero b then
    (if isZero a then canonNaN else pack (isNeg a != isNeg b) infMag)
  else pack (isNeg a != isNeg b) (roundMag (mag a * 2 ^ 149) (mag b))

/-- The bits of the integer square root of `n` from bit `k - 1` down, `r` being the bits above. -/
def isqrtFrom (n : Nat) : Nat → Nat → Nat
  | 0, r => r
  | k + 1, r => isqrtFrom n k (if (r + 2 ^ k) * (r + 2 ^ k) ≤ n then r + 2 ^ k else r)

/-- The greatest natural whose square is not above `n`. -/
def isqrt (n : Nat) : Nat := isqrtFrom n (n.log2 / 2 + 1) 0

/-- `√a` (R91). The root of a non-zero binary32 is at least 2^74 units, so its rounding boundaries are
whole numbers of units: the half added to an inexact integer root puts it on the right side of all. -/
def fsqrt (a : Word) : Word :=
  if isNaN a then canonNaN
  else if isZero a then a
  else if isNeg a then canonNaN
  else if isInf a then a
  else
    pack false (roundMag
      (2 * isqrt (mag a * 2 ^ 149) +
        (if isqrt (mag a * 2 ^ 149) * isqrt (mag a * 2 ^ 149) = mag a * 2 ^ 149 then 0 else 1)) 2)

/-- `float(i)`: the binary32 of an integer, exact for |i| ≤ 2^24 (R11, R96). -/
def floatOfInt (i : Int) : Word := pack (decide (i < 0)) (roundMag (i.natAbs * 2 ^ 149) 1)

/-- `ifloor(v)` for finite `v`: the greatest integer not above it (R96). -/
def ifloor (v : Word) : Int := sval v / 2 ^ 149

/-- `ffloor(v)`: the same integer as a binary32; `ffloor(−0.0) = −0.0`; NaN for a non-finite `v` (R96). -/
def ffloor (v : Word) : Word :=
  if !isFinite v then canonNaN
  else if isZero v then v
  else floatOfInt (ifloor v)

/-- `fmod(x, y)` for finite `y > 0`: the exact truncating remainder with the sign of `x`, NaN for a
non-finite `x` (R96). -/
def fmod (x y : Word) : Word :=
  if !isFinite x then canonNaN
  else pack (isNeg x) (roundMag (mag x % mag y) 1)

end Sys2Proof.Machine
end

