-- ==== Sys2Proof/Machine/Operands.lean ====
section
/-!
DEFINITION. The operands of the commands: the binary32 constants of the rules (R93, R7) and the host
registers (R22, R25), with their numbers and access rights. No command has an operand field (R74): a
`TICK` reads its unit's registers and `FS`, `DT` by name.
-/
namespace Sys2Proof.Machine

/-! The constants of R93. -/

/-- `PI`. -/
def fPi : Word := 0x40490FDB#32
/-- `TWO_PI`. -/
def fTwoPi : Word := 0x40C90FDB#32
/-- `HALF_PI`. -/
def fHalfPi : Word := 0x3FC90FDB#32
/-- `INV_TWO_PI`. -/
def fInvTwoPi : Word := 0x3E22F983#32
/-- `0.001`, `HYB_SMOOTH_NEW` (R7). -/
def f0p001 : Word := 0x3A83126F#32
/-- `0.1`, `WAH_FC_MIN` (R7). -/
def f0p1 : Word := 0x3DCCCCCD#32
/-- `0.2`, `CHO_SPREAD` (R7). -/
def f0p2 : Word := 0x3E4CCCCD#32
/-- `0.3`, `WAH_SMOOTH_OLD` (R7). -/
def f0p3 : Word := 0x3E99999A#32
/-- `0.5`, `WAH_Q_MIN` and `OCT_R0` (R7). -/
def f0p5 : Word := 0x3F000000#32
/-- `0.7`, `WAH_SMOOTH_NEW` and `WAH_TRIM` (R7). -/
def f0p7 : Word := 0x3F333333#32
/-- `0.999`, `HYB_SMOOTH_OLD` (R7). -/
def f0p999 : Word := 0x3F7FBE77#32
/-- `1.0`. -/
def fOne : Word := 0x3F800000#32
/-- `1.5`, `OCT_R1` (R7). -/
def f1p5 : Word := 0x3FC00000#32
/-- `2.0`. -/
def fTwo : Word := 0x40000000#32
/-- `-2.0` (R162). -/
def fMinusTwo : Word := 0xC0000000#32
/-- `2.5`, `CHO_GAIN` (R7). -/
def f2p5 : Word := 0x40200000#32
/-- `5.0`, `WAH_Q_MAX` and the voice count (R7). -/
def f5 : Word := 0x40A00000#32
/-- `10.0`, `WAH_FC_MAX` and the default of `VMAX` (R7, R8). -/
def f10 : Word := 0x41200000#32
/-- `1000.0`, `WAH_HIST_MAX` and the milliseconds of a second (R7, R143). -/
def f1000 : Word := 0x447A0000#32
/-- `-1000.0` (R161). -/
def fMinus1000 : Word := 0xC47A0000#32
/-- `4410.0`, `CHO_CAP` as a number (R7). -/
def f4410 : Word := 0x4589D000#32
/-- `20000.0`, `WAH_FM_MAX` (R7). -/
def f20000 : Word := 0x469C4000#32
/-- `1024.0`. -/
def f1024 : Word := 0x44800000#32

/-! The register map (R22, R25). -/

/-- The register number of the write-only control register `CMD` (R25). -/
def cmdNumber : RegNum := 0x00#8

/-- The number of each register that holds a value (R22, R25). -/
def regNumber : Reg → RegNum
  | .fs => 0x01#8 | .dt => 0x02#8
  | .hilIn => 0x10#8 | .hilAm => 0x18#8 | .hilFm => 0x19#8
  | .choAm => 0x20#8 | .choFm => 0x21#8 | .choDelay => 0x24#8 | .choDetune => 0x25#8
  | .choOut => 0x28#8
  | .wahAm => 0x30#8 | .wahFm => 0x31#8 | .wahFc => 0x34#8 | .wahQ => 0x35#8 | .wahOut => 0x38#8
  | .octAm => 0x40#8 | .octFm => 0x41#8 | .octCtrl => 0x44#8 | .octOut => 0x48#8
  | .hybAm => 0x50#8 | .hybFm1 => 0x51#8 | .hybFm2 => 0x52#8 | .hybMix => 0x54#8
  | .hybOut => 0x58#8

/-- The 24 registers that hold a value, in the order of their numbers (R22, R25). -/
def allRegs : List Reg :=
  [.fs, .dt, .hilIn, .hilAm, .hilFm, .choAm, .choFm, .choDelay, .choDetune, .choOut,
   .wahAm, .wahFm, .wahFc, .wahQ, .wahOut, .octAm, .octFm, .octCtrl, .octOut,
   .hybAm, .hybFm1, .hybFm2, .hybMix, .hybOut]

/-- The register with a number; none for `CMD` and for the unmapped numbers (R26). -/
def regOfNumber (n : RegNum) : Option Reg := allRegs.find? (fun r => regNumber r == n)

/-- The access column: the six outputs are read-only for the host, every other register that holds a
value is read-write (R22, R24, R25). -/
def isReadOnly : Reg → Bool
  | .hilAm | .hilFm | .choOut | .wahOut | .octOut | .hybOut => true
  | .fs | .dt | .hilIn | .choAm | .choFm | .choDelay | .choDetune | .wahAm | .wahFm | .wahFc
  | .wahQ | .octAm | .octFm | .octCtrl | .hybAm | .hybFm1 | .hybFm2 | .hybMix => false

/-- `x[r]` (R11). -/
def getReg (x : Regs) : Reg → Word
  | .fs => x.fs | .dt => x.dt
  | .hilIn => x.hilIn | .hilAm => x.hilAm | .hilFm => x.hilFm
  | .choAm => x.choAm | .choFm => x.choFm | .choDelay => x.choDelay
  | .choDetune => x.choDetune | .choOut => x.choOut
  | .wahAm => x.wahAm | .wahFm => x.wahFm | .wahFc => x.wahFc | .wahQ => x.wahQ
  | .wahOut => x.wahOut
  | .octAm => x.octAm | .octFm => x.octFm | .octCtrl => x.octCtrl | .octOut => x.octOut
  | .hybAm => x.hybAm | .hybFm1 => x.hybFm1 | .hybFm2 => x.hybFm2 | .hybMix => x.hybMix
  | .hybOut => x.hybOut

/-- `x[r] <- v` (R11): the pattern is stored unchanged (R24). -/
def setReg (x : Regs) (r : Reg) (v : Word) : Regs :=
  match r with
  | .fs => { x with fs := v } | .dt => { x with dt := v }
  | .hilIn => { x with hilIn := v } | .hilAm => { x with hilAm := v }
  | .hilFm => { x with hilFm := v }
  | .choAm => { x with choAm := v } | .choFm => { x with choFm := v }
  | .choDelay => { x with choDelay := v } | .choDetune => { x with choDetune := v }
  | .choOut => { x with choOut := v }
  | .wahAm => { x with wahAm := v } | .wahFm => { x with wahFm := v }
  | .wahFc => { x with wahFc := v } | .wahQ => { x with wahQ := v }
  | .wahOut => { x with wahOut := v }
  | .octAm => { x with octAm := v } | .octFm => { x with octFm := v }
  | .octCtrl => { x with octCtrl := v } | .octOut => { x with octOut := v }
  | .hybAm => { x with hybAm := v } | .hybFm1 => { x with hybFm1 := v }
  | .hybFm2 => { x with hybFm2 := v } | .hybMix => { x with hybMix := v }
  | .hybOut => { x with hybOut := v }

end Sys2Proof.Machine
end

