-- ==== Sys2Proof/Machine/Ops.lean ====
section
/-!
DEFINITION. The named operations every meaning is written in: the private memories (R52), `clamp` (R95),
`wrap2pi` (R100), the phase resynthesizer (R108), the fractional delay line (R110), the unwrap loops
(R122, R124) and the host's register access (R201, R202).

Taking an exception has no operation here because AMFM-CORE has none: no exception, interrupt, trap,
trap return or privilege mode exists, nothing is saved and control goes nowhere (R210, R213, R215 to
R218).
-/
namespace Sys2Proof.Machine

open Config

/-! Private memories. -/

/-- `MemRead(space, i, 4)`: the word at entry `i`, `0x00000000` where none is listed (R52). -/
def memRead : Memory → Nat → Word
  | [], _ => 0#32
  | (a, u) :: rest, i => if a = i then u else memRead rest i

/-- `MemWrite(space, i, 4, v)`: entry `i` holds `v`, every other entry as before (R52). Writing
`0x00000000` removes the entry, so the canonical form stays. -/
def memWrite : Memory → Nat → Word → Memory
  | [], i, v => if v = 0#32 then [] else [(i, v)]
  | (a, u) :: rest, i, v =>
    if i < a then (if v = 0#32 then (a, u) :: rest else (i, v) :: (a, u) :: rest)
    else if i = a then (if v = 0#32 then rest else (i, v) :: rest)
    else (a, u) :: memWrite rest i v

/-- A memory whose every entry holds `+0.0`, as the `INIT` loops and reset leave it (R128, R150, R230). -/
def memClear : Memory := []

/-- The index after `i` in a ring of `n` entries, `(i + 1) mod n` (R112). -/
def ringNext {n : Nat} (i : Fin n) : Fin n := ⟨(i.val + 1) % n, Nat.mod_lt _ (Fin.pos i)⟩

/-! Clamp and wrap. -/

/-- `clamp(x, lo, hi)`; a NaN becomes `hi` (R95). -/
def clamp (x lo hi : Word) : Word :=
  if isNaN x then hi
  else if flt x lo then lo
  else if fgt x hi then hi
  else x

/-- A remainder brought into [0, m): a negative one has `m` added once, and a result of `m` or more
becomes `+0.0` (R100, R110). -/
def foldIntoRange (N : NumConfig) (r m : Word) : Word :=
  if fge (if flt r posZero then N.fadd r m else r) m then posZero
  else if flt r posZero then N.fadd r m else r

/-- `wrap2pi(p)` (R100). -/
def wrap2pi (N : NumConfig) (p : Word) : Word :=
  if !isFinite p then canonNaN else foldIntoRange N (fmod p fTwoPi) fTwoPi

/-! Phase resynthesizer. -/

/-- `phase_inc(f, dt)` (R108). -/
def phaseInc (N : NumConfig) (f dt : Word) : Word := N.fmul (N.fmul fTwoPi f) dt

/-- `phase_inc` with the factor `g` between `f` and `dt` (R108, R145, R181). -/
def phaseIncScaled (N : NumConfig) (f g dt : Word) : Word := N.fmul (N.fmul (N.fmul fTwoPi f) g) dt

/-- `resynth(a, ph)` (R108). -/
def resynth (N : NumConfig) (a ph : Word) : Word := N.fmul a (N.cosr ph)

/-! Fractional delay line. -/

/-- The read position `wp − d` of a finite difference, in [0, 4410) (R110). -/
def fdlPosition (N : NumConfig) (wp : Nat) (d : Word) : Word :=
  foldIntoRange N (fmod (N.fsub (floatOfInt wp) d) f4410) f4410

/-- The entry at or below the read position (R110). -/
def fdlIndex (N : NumConfig) (wp : Nat) (d : Word) : Nat := (ifloor (fdlPosition N wp d)).toNat

/-- The distance of the read position from that entry (R110). -/
def fdlFrac (N : NumConfig) (wp : Nat) (d : Word) : Word :=
  N.fsub (fdlPosition N wp d) (floatOfInt (fdlIndex N wp d))

/-- The interpolation `a·(1 − frac) + b·frac` (R110). -/
def interpolate (N : NumConfig) (a b frac : Word) : Word :=
  N.fadd (N.fmul a (N.fsub fOne frac)) (N.fmul b frac)

/-- `fdl_read(M, wp, d)` (R110). -/
def fdlRead (N : NumConfig) (m : Memory) (wp : Nat) (d : Word) : Word :=
  if !isFinite (N.fsub (floatOfInt wp) d) then canonNaN
  else
    interpolate N (memRead m (fdlIndex N wp d)) (memRead m ((fdlIndex N wp d + 1) % choCap))
      (fdlFrac N wp d)

/-! The unwrap loops of `HIL.TICK`. -/

/-- More rounds than any unwrap loop that ends can take (notes/assumptions/6.md). -/
def unwrapFuel : Nat := 2 ^ 25

/-- `while d > PI: d = fsub(d, TWO_PI)`; none where it has not ended after `fuel` rounds (R122). -/
def unwrapDown (N : NumConfig) : Nat → Word → Option Word
  | 0, _ => none
  | fuel + 1, d => if fgt d fPi then unwrapDown N fuel (N.fsub d fTwoPi) else some d

/-- `while d <= fneg(PI): d = fadd(d, TWO_PI)`; none where it has not ended after `fuel` rounds (R122). -/
def unwrapUp (N : NumConfig) : Nat → Word → Option Word
  | 0, _ => none
  | fuel + 1, d => if fle d (fneg fPi) then unwrapUp N fuel (N.fadd d fTwoPi) else some d

/-- The two loops in their order (R122, R124). -/
def unwrap (N : NumConfig) (d : Word) : Option Word :=
  (unwrapDown N unwrapFuel d).bind (unwrapUp N unwrapFuel)

/-! The host's register access. -/

/-- What a `RegWrite` to a number other than `CMD` does to the registers (R201, R24). -/
def hostWrite (x : Regs) (n : RegNum) (v : Word) : Except Refusal Regs :=
  match regOfNumber n with
  | none => .error (.writeUnmapped n)
  | some r => if isReadOnly r then .error (.writeReadOnly n) else .ok (setReg x r v)

/-- The word a `RegRead` returns (R202). -/
def hostRead (x : Regs) (n : RegNum) : Except Refusal Word :=
  if n = cmdNumber then .error .readCmd
  else
    match regOfNumber n with
    | none => .error (.readUnmapped n)
    | some r => .ok (getReg x r)

end Sys2Proof.Machine
end

