-- ==== Sys2Proof/Machine/Trig.lean ====
section
/-!
DEFINITION. The default transcendental functions of `NUM` (R98, R101 to R103). `cosr` is the table of
R98. `sinc`, `cosc`, `atan2` and `tanh` are the correctly rounded functions: each is evaluated in fixed
point with `trigBits` binary places (a series written from the inside out) and the quotient so obtained
is rounded ONCE by `roundMag`. The evaluation errs by less than 2^−500, on the side of the exact function
where a small argument makes the result fall near the argument itself; how far that carries is
notes/assumptions/4.md.
-/
namespace Sys2Proof.Machine

/-- The binary places of the fixed-point evaluation. -/
abbrev trigBits : Nat := 640

/-- One in fixed point. -/
abbrev fixOne : Nat := 2 ^ trigBits

/-- A finite magnitude in fixed point, exact since 149 < `trigBits`. -/
def fixOf (w : Word) : Nat := mag w * 2 ^ (trigBits - 149)

/-- π in fixed point, rounded down. -/
def fixPi : Nat :=
  0x3243f6a8885a308d313198a2e03707344a4093822299f31d0082efa98ec4e6c89452821e638d01377be5466cf34e90c6cc0ac29b7c97c50dd3f84d5b5b54709179216d5d98979fb1bd1310ba698dfb5ac

/-- One over the units of 2^−149 that `roundMag` takes, for a value in fixed point. -/
abbrev fixUnit : Nat := 2 ^ (trigBits - 149)

/-- 1 ± z²/(a(a+1)) · (1 ± z²/((a+2)(a+3)) · (…)) with `terms` brackets, z² = `z2` in fixed point:
with a = 1 the cosine (minus) or hyperbolic cosine (plus) of z, with a = 2 the sine or hyperbolic sine
divided by z. -/
def powerSeries (minus : Bool) (z2 : Nat) : Nat → Nat → Nat
  | 0, _ => fixOne
  | terms + 1, a =>
    if minus then fixOne - z2 * powerSeries minus z2 terms (a + 2) / (a * (a + 1) * fixOne)
    else fixOne + z2 * powerSeries minus z2 terms (a + 2) / (a * (a + 1) * fixOne)

/-- The sine of an angle of at most π/4 in fixed point. -/
def sinFix (r : Nat) : Nat := r * powerSeries true (r * r / fixOne) 64 2 / fixOne

/-- The cosine of an angle of at most π/4 in fixed point. -/
def cosFix (r : Nat) : Nat := powerSeries true (r * r / fixOne) 64 1

/-- The number of quarter turns nearest a finite magnitude. -/
def quarterTurns (a : Nat) : Nat := (4 * a + fixPi) / (2 * fixPi)

/-- The distance of twice the angle `a` from its nearest quarter turn, doubled so that it stays whole. -/
def residueTwice (a : Nat) : Int := 2 * (a : Int) - quarterTurns a * fixPi

/-- The sine (`shift` = 0) or cosine (`shift` = 1) of the angle `a` in fixed point, as a sign and a
magnitude: by the quarter turn, ±sin or ±cos of the residue. -/
def circular (shift a : Nat) : Bool × Nat :=
  let r := (residueTwice a).natAbs / 2
  let back := decide (residueTwice a < 0)
  match (quarterTurns a + shift) % 4 with
  | 0 => (back, sinFix r)
  | 1 => (false, cosFix r)
  | 2 => (!back, sinFix r)
  | _ => (true, cosFix r)

/-- A fixed-point magnitude as the low bits of the nearest binary32, never above the magnitude `top`. -/
def roundFix (top : Word) (v : Nat) : Nat := min (roundMag v fixUnit) top.toNat

/-- `NUM.sinc`, default instance (R101). -/
def sinDefault (w : Word) : Word :=
  if !isFinite w then canonNaN
  else if isZero w then w
  else
    pack (isNeg w != (circular 0 (fixOf w)).1) (roundFix fOne (circular 0 (fixOf w)).2)

/-- `NUM.cosc`, default instance (R101). -/
def cosDefault (w : Word) : Word :=
  if !isFinite w then canonNaN
  else if isZero w then fOne
  else pack (circular 1 (fixOf w)).1 (roundFix fOne (circular 1 (fixOf w)).2)

/-- 1 + 2k/(2k+1) · u · (1 + (2k+2)/(2k+3) · u · (…)) with `terms` brackets: Euler's series for the
arctangent of t, divided by t/(1+t²), at u = t²/(1+t²) in fixed point. -/
def eulerSeries (u : Nat) : Nat → Nat → Nat
  | 0, _ => fixOne
  | terms + 1, k =>
    fixOne + 2 * k * u * eulerSeries u terms (k + 1) / ((2 * k + 1) * fixOne)

/-- The arctangent of y/x in fixed point, for y/x up to about 3/7. -/
def atanSmall (y x : Nat) : Nat :=
  x * y * eulerSeries (y * y * fixOne / (x * x + y * y)) 256 1 / (x * x + y * y)

/-- The arctangent of y/x in fixed point, for 0 < y ≤ x. -/
def atanUpToOne (y x : Nat) : Nat :=
  if 5 * y ≤ 2 * x then atanSmall y x else fixPi / 4 - atanSmall (x - y) (x + y)

/-- The angle in (0, π/2) of the point (x, y), both positive, in fixed point. -/
def atanQuadrant (y x : Nat) : Nat :=
  if y ≤ x then atanUpToOne y x else fixPi / 2 - atanUpToOne x y

/-- π/4 and 3π/4 to the nearest binary32 (R102). -/
def fQuarterPi : Word := 0x3F490FDB#32
/-- 3π/4 to the nearest binary32 (R102). -/
def fThreeQuarterPi : Word := 0x4016CBE4#32

/-- The magnitude of `NUM.atan2(y, x)` for operands that are not NaN (R102). -/
def atan2Mag (y x : Word) : Word :=
  if isInf y then
    (if isInf x then (if isNeg x then fThreeQuarterPi else fQuarterPi) else fHalfPi)
  else if isInf x then (if isNeg x then fPi else posZero)
  else if isZero y then (if isNeg x then fPi else posZero)
  else if isZero x then fHalfPi
  else if isNeg x then
    pack false (roundFix fPi (fixPi - atanQuadrant (mag y) (mag x)))
  else pack false (roundFix fPi (atanQuadrant (mag y) (mag x)))

/-- `NUM.atan2(y, x)`, default instance (R102): the sign is the sign of `y`. -/
def atan2Default (y x : Word) : Word :=
  if isNaN y || isNaN x then canonNaN
  else if isNeg y then fneg (atan2Mag y x) else atan2Mag y x

/-- The magnitude of the hyperbolic tangent of a finite magnitude below 16, in fixed point: z times the
hyperbolic sine series over the hyperbolic cosine series. -/
def tanhFix (z : Nat) : Nat :=
  z * powerSeries false (z * z / fixOne) 160 2 / powerSeries false (z * z / fixOne) 160 1

/-- `NUM.tanh`, default instance (R103); from 16 on the result is ±1.0, as it is from 9.010914 on. -/
def tanhDefault (z : Word) : Word :=
  if isNaN z then canonNaN
  else if isZero z then z
  else if 16 * 2 ^ 149 ≤ mag z then pack (isNeg z) fOne.toNat
  else pack (isNeg z) (roundFix fOne (tanhFix (fixOf z)))

/-- The table index of `NUM.cosr(θ)` for finite θ (R98). -/
def cosIndex (θ : Word) : Nat :=
  (ifloor (fmul (fsub (fmul θ fInvTwoPi) (ffloor (fmul θ fInvTwoPi))) f1024) % 1024).toNat

/-- `NUM.cosr(θ)`, default instance: the table cosine (R98). -/
def cosrDefault (θ : Word) : Word :=
  if !isFinite θ then canonNaN else cosLut (cosIndex θ)

/-- `NUM.sinr(θ)` (R98): the same index three quarters of a turn on; no command uses it. DESIGN CHOICE: for a
`θ` that is not finite R98 defines no index, and the canonical NaN is taken, as for `cosr`
(notes/assumptions/13.md). Unsafe, but no meaning rests on it. -/
def sinrDefault (θ : Word) : Word :=
  if !isFinite θ then canonNaN else cosLut ((cosIndex θ + 768) % 1024)

end Sys2Proof.Machine
end

