-- ==== Sys2Proof/Machine/Defaults.lean ====
section
/-!
DEFINITION. The spec's default instance of the open parameters (R8, R90): the numeric configuration of
R91, R98, R99, R101 to R103 and `VMAX` = 10.0. `exec` runs the machine at it (notes/assumptions/3.md).
-/
namespace Sys2Proof.Machine

open Config

/-- The default instance of `NUM` (R90). -/
def defaultNum : NumConfig :=
  { fadd := fadd, fsub := fsub, fmul := fmul, fdiv := fdiv, fsqrt := fsqrt
    cosr := cosrDefault, sinc := sinDefault, cosc := cosDefault
    atan2 := atan2Default, tanh := tanhDefault }

/-- The default parameters: `defaultNum` and `VMAX` = 10.0 (R8). -/
def defaultParams : Params := { num := defaultNum, vmax := f10 }

end Sys2Proof.Machine
end

