-- ==== Sys2Proof/Machine/Cho.lean ====
section
/-!
DEFINITION. CHO, the five-voice fractional-delay chorus: `CHO.TICK` (R142 to R148) and `CHO.INIT` (R150).
-/
namespace Sys2Proof.Machine

open Config

/-- `kf = float(i − 2)`, the number k of voice record `i` (R141, R142). -/
def choVoiceNumber (i : Nat) : Word := floatOfInt ((i : Int) - 2)

/-- The delay multiplier `mk` of voice record `i` (R141). -/
def choMultiplier (N : NumConfig) (i : Nat) : Word := N.fadd fOne (N.fmul (choVoiceNumber i) f0p2)

/-- The delay of voice record `i` in samples (R143). -/
def choDelaySamples (N : NumConfig) (x : Regs) (i : Nat) : Word :=
  N.fdiv (N.fmul (N.fmul (getReg x .choDelay) (choMultiplier N i)) (getReg x .fs)) f1000

/-- The detune factor `g` of voice record `i` (R145). -/
def choDetuneFactor (N : NumConfig) (x : Regs) (i : Nat) : Word :=
  N.fadd fOne (N.fmul (choVoiceNumber i) (getReg x .choDetune))

/-- The AM delay buffer after this tick's write (R144). -/
def choWriteAm (x : Regs) (V : Voice) : Memory := memWrite V.am V.wp (getReg x .choAm)

/-- The FM delay buffer after this tick's write (R144). -/
def choWriteFm (x : Regs) (V : Voice) : Memory := memWrite V.fm V.wp (getReg x .choFm)

/-- The delayed amplitude `ad` of voice record `i`, read after the write (R142, R144). -/
def choDelayedAm (N : NumConfig) (x : Regs) (i : Nat) (V : Voice) : Word :=
  fdlRead N (choWriteAm x V) V.wp (choDelaySamples N x i)

/-- The delayed frequency `fd` of voice record `i`, at the same delay (R142, R144). -/
def choDelayedFm (N : NumConfig) (x : Regs) (i : Nat) (V : Voice) : Word :=
  fdlRead N (choWriteFm x V) V.wp (choDelaySamples N x i)

/-- The phase of voice record `i` after its advance and wrap (R145). -/
def choPhase (N : NumConfig) (x : Regs) (i : Nat) (V : Voice) : Word :=
  wrap2pi N (N.fadd V.ph
    (phaseIncScaled N (choDelayedFm N x i V) (choDetuneFactor N x i) (getReg x .dt)))

/-- Voice record `i` after a tick (R142, R144, R145, R148). -/
def choVoiceAfter (N : NumConfig) (x : Regs) (i : Nat) (V : Voice) : Voice :=
  { am := choWriteAm x V, fm := choWriteFm x V, wp := ringNext V.wp, ph := choPhase N x i V }

/-- The output of voice record `i`, from the phase after the advance (R146). -/
def choVoiceOut (N : NumConfig) (x : Regs) (i : Nat) (V : Voice) : Word :=
  resynth N (choDelayedAm N x i V) (choPhase N x i V)

/-- The five voice outputs added to `+0.0` in the order k = −2 to 2 (R146, R151). -/
def choSum (N : NumConfig) (x : Regs) (c : ChoState) : Word :=
  N.fadd (N.fadd (N.fadd (N.fadd (N.fadd posZero
    (choVoiceOut N x 0 c.v0)) (choVoiceOut N x 1 c.v1)) (choVoiceOut N x 2 c.v2))
    (choVoiceOut N x 3 c.v3)) (choVoiceOut N x 4 c.v4)

/-- The five voices after a tick (R142). -/
def choAfter (N : NumConfig) (x : Regs) (c : ChoState) : ChoState :=
  { v0 := choVoiceAfter N x 0 c.v0, v1 := choVoiceAfter N x 1 c.v1
    v2 := choVoiceAfter N x 2 c.v2, v3 := choVoiceAfter N x 3 c.v3
    v4 := choVoiceAfter N x 4 c.v4 }

/-- The output word: division by 5, gain 2.5, clamp to the valid output range (R147). -/
def choOutput (P : Params) (sum : Word) : Word :=
  clamp (P.num.fmul (P.num.fdiv sum f5) f2p5) (fneg P.vmax) P.vmax

/-- The state after `CHO.TICK` under the parameters `P` (R142). -/
def choTickWith (P : Params) (s : State) : State :=
  (s.withCho (choAfter P.num s.regs s.cho)).withRegs
    (setReg s.regs .choOut (choOutput P (choSum P.num s.regs s.cho)))

/-- `CHO.TICK` (R142). -/
def execChoTick (s : State) : Host.Outcome State Fault Refusal :=
  .next (choTickWith defaultParams s)

/-- A voice as `CHO.INIT` leaves it (R150). -/
def choVoiceInit : Voice := { am := memClear, fm := memClear, wp := 0, ph := posZero }

/-- `CHO.INIT` (R150). -/
def execChoInit (s : State) : Host.Outcome State Fault Refusal :=
  .next ((s.withCho ⟨choVoiceInit, choVoiceInit, choVoiceInit, choVoiceInit, choVoiceInit⟩).withRegs
    (setReg s.regs .choOut posZero))

end Sys2Proof.Machine
end

