-- ==== Sys2Proof/Machine/Hil.lean ====
section
/-!
DEFINITION. HIL, the Hilbert FIR analyzer: `HIL.TICK` (R122 to R126) and `HIL.INIT` (R128).
-/
namespace Sys2Proof.Machine

open Config

/-- The ring buffer after the new sample is pushed at the write index (R122, R123). -/
def hilPush (h : HilState) (x : Word) : Memory := memWrite h.buf h.wp x

/-- The sample `14 − j` ticks old, from the buffer after the push (R122). -/
def hilSample (buf : Memory) (wp j : Nat) : Word := memRead buf ((wp + 1 + j) % hilTaps)

/-- The quadrature component: 15 products, the oldest sample's added first (R122, R123). -/
def hilQuadrature (N : NumConfig) (buf : Memory) (wp : Nat) : Word :=
  (List.range hilTaps).foldl
    (fun im j => N.fadd im (N.fmul (hilCoef (14 - j)) (hilSample buf wp j))) posZero

/-- The in-phase component: the sample pushed 7 ticks ago (R122, R123). -/
def hilInPhase (buf : Memory) (wp : Nat) : Word := memRead buf ((wp + 8) % hilTaps)

/-- The amplitude of an analytic sample (R125). -/
def hilAmplitude (N : NumConfig) (re im : Word) : Word :=
  N.fsqrt (N.fadd (N.fmul re re) (N.fmul im im))

/-- The frequency of an unwrapped phase difference (R124). -/
def hilFrequency (N : NumConfig) (d fs : Word) : Word := N.fdiv (N.fmul d fs) fTwoPi

/-- HIL's state after a tick that found the phase `th` (R122, R126). -/
def hilAfter (h : HilState) (x th : Word) : HilState :=
  { buf := hilPush h x, wp := ringNext h.wp, prev := th }

/-- The in-phase component of a tick at `s` (R122). -/
def hilTickRe (s : State) : Word :=
  hilInPhase (hilPush s.hil (getReg s.regs .hilIn)) s.hil.wp

/-- The quadrature component of a tick at `s` (R122). -/
def hilTickIm (P : Params) (s : State) : Word :=
  hilQuadrature P.num (hilPush s.hil (getReg s.regs .hilIn)) s.hil.wp

/-- The phase of a tick at `s` (R122). -/
def hilTickPhase (P : Params) (s : State) : Word := P.num.atan2 (hilTickIm P s) (hilTickRe s)

/-- The unwrapped phase difference of a tick at `s`; none where a loop does not end (R122, R124). -/
def hilTickDelta (P : Params) (s : State) : Option Word :=
  unwrap P.num (P.num.fsub (hilTickPhase P s) s.hil.prev)

/-- The state after a tick at `s` whose unwrapped phase difference is `d` (R122, R126). -/
def hilTickNext (P : Params) (s : State) (d : Word) : State :=
  (s.withHil (hilAfter s.hil (getReg s.regs .hilIn) (hilTickPhase P s))).withRegs
    (setReg
      (setReg s.regs .hilAm (hilAmplitude P.num (hilTickRe s) (hilTickIm P s)))
      .hilFm (hilFrequency P.num d (getReg s.regs .fs)))

/-- `HIL.TICK` under the parameters `P` (R122). -/
def hilTickWith (P : Params) (s : State) : Host.Outcome State Fault Refusal :=
  match hilTickDelta P s with
  | none => .fault .unwrapNeverEnds
  | some d => .next (hilTickNext P s d)

/-- `HIL.TICK` (R122). -/
def execHilTick (s : State) : Host.Outcome State Fault Refusal := hilTickWith defaultParams s

/-- `HIL.INIT` (R128). -/
def execHilInit (s : State) : Host.Outcome State Fault Refusal :=
  .next ((s.withHil { buf := memClear, wp := 0, prev := posZero }).withRegs
    (setReg (setReg s.regs .hilAm posZero) .hilFm posZero))

end Sys2Proof.Machine
end

