-- ==== Sys2Proof/Machine/Hyb.lean ====
section
/-!
DEFINITION. HYB, the hybrid frequency mixer: `HYB.TICK` (R191 to R193) and `HYB.INIT` (R195).
-/
namespace Sys2Proof.Machine

open Config

/-- The mixed frequency, from the mix control as it stands (R191). -/
def hybMixed (N : NumConfig) (x : Regs) : Word :=
  N.fadd (N.fmul (getReg x .hybMix) (getReg x .hybFm1))
    (N.fmul (N.fsub fOne (getReg x .hybMix)) (getReg x .hybFm2))

/-- The one-pole smoothing of the mixed frequency, the new `s` (R191). -/
def hybSmoothed (N : NumConfig) (x : Regs) (y : HybState) : Word :=
  N.fadd (N.fmul f0p999 y.sm) (N.fmul f0p001 (hybMixed N x))

/-- The phase after the tick; it is never wrapped (R191, R192). -/
def hybPhase (N : NumConfig) (x : Regs) (y : HybState) : Word :=
  N.fadd y.ph (phaseInc N (hybSmoothed N x y) (getReg x .dt))

/-- The state after `HYB.TICK` under the parameters `P` (R191, R193). -/
def hybTickWith (P : Params) (s : State) : State :=
  (s.withHyb { sm := hybSmoothed P.num s.regs s.hyb, ph := hybPhase P.num s.regs s.hyb }).withRegs
    (setReg s.regs .hybOut
      (P.num.tanh (resynth P.num (getReg s.regs .hybAm) (hybPhase P.num s.regs s.hyb))))

/-- `HYB.TICK` (R191). -/
def execHybTick (s : State) : Host.Outcome State Fault Refusal :=
  .next (hybTickWith defaultParams s)

/-- `HYB.INIT` (R195). -/
def execHybInit (s : State) : Host.Outcome State Fault Refusal :=
  .next ((s.withHyb { sm := posZero, ph := posZero }).withRegs (setReg s.regs .hybOut posZero))

end Sys2Proof.Machine
end

