-- ==== Sys2Proof/Machine/Nop.lean ====
section
/-!
DEFINITION. `NOP` (R203).
-/
namespace Sys2Proof.Machine

/-- `NOP`: no register, no private state and no output changes (R203). -/
def execNop (s : State) : Host.Outcome State Fault Refusal := .next s

end Sys2Proof.Machine
end

