-- ==== Sys2Proof/Machine/Oct.lean ====
section
/-!
DEFINITION. OCT, the octave shifter: `OCT.TICK` (R181 to R183) and `OCT.INIT` (R185).
-/
namespace Sys2Proof.Machine

open Config

/-- The pitch ratio, from the control as it stands (R181). -/
def octRatio (N : NumConfig) (c : Word) : Word := N.fadd f0p5 (N.fmul c f1p5)

/-- The phase after the advance, before the wrap (R181). -/
def octAdvanced (N : NumConfig) (x : Regs) (o : OctState) : Word :=
  N.fadd o.ph
    (phaseIncScaled N (getReg x .octFm) (octRatio N (getReg x .octCtrl)) (getReg x .dt))

/-- The one-sided wrap: one subtraction at most (R182). -/
def octWrap (N : NumConfig) (p : Word) : Word := if fgt p fTwoPi then N.fsub p fTwoPi else p

/-- The phase after the tick (R181). -/
def octPhase (N : NumConfig) (x : Regs) (o : OctState) : Word := octWrap N (octAdvanced N x o)

/-- The state after `OCT.TICK` under the parameters `P`; the output is not clamped (R181, R183). -/
def octTickWith (P : Params) (s : State) : State :=
  (s.withOct { ph := octPhase P.num s.regs s.oct }).withRegs
    (setReg s.regs .octOut
      (resynth P.num (getReg s.regs .octAm) (octPhase P.num s.regs s.oct)))

/-- `OCT.TICK` (R181). -/
def execOctTick (s : State) : Host.Outcome State Fault Refusal :=
  .next (octTickWith defaultParams s)

/-- `OCT.INIT` (R185). -/
def execOctInit (s : State) : Host.Outcome State Fault Refusal :=
  .next ((s.withOct { ph := posZero }).withRegs (setReg s.regs .octOut posZero))

end Sys2Proof.Machine
end

