-- ==== Sys2Proof/Machine/Wah.lean ====
section
/-!
DEFINITION. WAH, the biquad-filtered phase-integration resynthesizer: `WAH.TICK` (R161 to R166) and
`WAH.INIT` (R168).
-/
namespace Sys2Proof.Machine

open Config

/-- The biquad coefficients of one tick, each divided by a0; b1 is zero and left out (R162). -/
structure BiquadCoefs where
  b0 : Word
  b2 : Word
  a1 : Word
  a2 : Word
deriving DecidableEq, Repr

/-- `w0 = 2π·fc/fs` (R162). DEDUCED: at an infinite `FS` this is a zero and the coefficients are finite, where
R167 (f), R244 and C4 speak of NaN coefficients; the pseudocode is followed (notes/assumptions/14.md). Unsafe
if those consequences were meant as a rule. -/
def wahOmega (N : NumConfig) (fc fs : Word) : Word := N.fdiv (N.fmul fTwoPi fc) fs

/-- `alpha = sin(w0)/(2q)` (R162). -/
def wahAlpha (N : NumConfig) (w0 q : Word) : Word := N.fdiv (N.sinc w0) (N.fmul fTwo q)

/-- The coefficients of an angle `w0` and an `alpha` (R162). -/
def wahCoefsOf (N : NumConfig) (w0 alpha : Word) : BiquadCoefs :=
  { b0 := N.fdiv alpha (N.fadd fOne alpha)
    b2 := N.fdiv (fneg alpha) (N.fadd fOne alpha)
    a1 := N.fdiv (N.fmul fMinusTwo (N.cosc w0)) (N.fadd fOne alpha)
    a2 := N.fdiv (N.fsub fOne alpha) (N.fadd fOne alpha) }

/-- The centre frequency as used (R163). -/
def wahFcUsed (x : Regs) : Word := clamp (getReg x .wahFc) f0p1 f10

/-- The Q as used (R163). -/
def wahQUsed (x : Regs) : Word := clamp (getReg x .wahQ) f0p5 f5

/-- The input frequency as used, `xin` (R163). -/
def wahInUsed (x : Regs) : Word := clamp (getReg x .wahFm) posZero f20000

/-- The coefficients of a tick, from the registers as they are (R161, R162). -/
def wahCoefs (N : NumConfig) (x : Regs) : BiquadCoefs :=
  wahCoefsOf N (wahOmega N (wahFcUsed x) (getReg x .fs))
    (wahAlpha N (wahOmega N (wahFcUsed x) (getReg x .fs)) (wahQUsed x))

/-- The recursion: the two feed-forward products added, then the two feedback products subtracted
(R161, R164). -/
def wahRecursion (N : NumConfig) (c : BiquadCoefs) (xin : Word) (w : WahState) : Word :=
  N.fsub (N.fsub (N.fadd (N.fmul c.b0 xin) (N.fmul c.b2 w.x2)) (N.fmul c.a1 w.y1))
    (N.fmul c.a2 w.y2)

/-- The one-pole blend of a tick, `s` (R161, R164). -/
def wahSmoothed (N : NumConfig) (x : Regs) (w : WahState) : Word :=
  N.fadd (N.fmul f0p7 (wahRecursion N (wahCoefs N x) (wahInUsed x) w)) (N.fmul f0p3 w.sm)

/-- The phase increment of the unclamped smoothed value, itself clamped (R165). -/
def wahIncrement (N : NumConfig) (x : Regs) (w : WahState) : Word :=
  clamp (phaseInc N (wahSmoothed N x w) (getReg x .dt)) (fneg fHalfPi) fHalfPi

/-- The phase after the tick (R165). -/
def wahPhase (N : NumConfig) (x : Regs) (w : WahState) : Word :=
  wrap2pi N (N.fadd w.ph (wahIncrement N x w))

/-- WAH's state after a tick (R161, R164). -/
def wahAfter (N : NumConfig) (x : Regs) (w : WahState) : WahState :=
  { x1 := wahInUsed x, x2 := w.x1
    y1 := clamp (wahSmoothed N x w) fMinus1000 f1000, y2 := w.y1
    sm := wahSmoothed N x w, ph := wahPhase N x w }

/-- The output word: resynthesis, trim 0.7, clamp to the valid output range (R166). -/
def wahOutput (P : Params) (am ph : Word) : Word :=
  clamp (P.num.fmul (resynth P.num am ph) f0p7) (fneg P.vmax) P.vmax

/-- The state after `WAH.TICK` under the parameters `P` (R161). -/
def wahTickWith (P : Params) (s : State) : State :=
  (s.withWah (wahAfter P.num s.regs s.wah)).withRegs
    (setReg s.regs .wahOut (wahOutput P (getReg s.regs .wahAm) (wahPhase P.num s.regs s.wah)))

/-- `WAH.TICK` (R161). -/
def execWahTick (s : State) : Host.Outcome State Fault Refusal :=
  .next (wahTickWith defaultParams s)

/-- `WAH.INIT` (R168). -/
def execWahInit (s : State) : Host.Outcome State Fault Refusal :=
  .next ((s.withWah
      { x1 := posZero, x2 := posZero, y1 := posZero, y2 := posZero, sm := posZero,
        ph := posZero }).withRegs
    (setReg s.regs .wahOut posZero))

end Sys2Proof.Machine
end

