-- ==== Sys2Proof/Machine/Dispatch.lean ====
section
/-!
DEFINITION. The dispatch of a decoded command to its meaning (R204).
-/
namespace Sys2Proof.Machine

-- `execute(w)` after the decoding: the semantic rule of the command, run to completion (R204).
def exec (i : Instr) (s : State) : Host.Outcome State Fault Refusal :=
  match i with
  | .nop => Sys2Proof.Machine.execNop s
  | .hilTick => Sys2Proof.Machine.execHilTick s
  | .choTick => Sys2Proof.Machine.execChoTick s
  | .wahTick => Sys2Proof.Machine.execWahTick s
  | .octTick => Sys2Proof.Machine.execOctTick s
  | .hybTick => Sys2Proof.Machine.execHybTick s
  | .hilInit => Sys2Proof.Machine.execHilInit s
  | .choInit => Sys2Proof.Machine.execChoInit s
  | .wahInit => Sys2Proof.Machine.execWahInit s
  | .octInit => Sys2Proof.Machine.execOctInit s
  | .hybInit => Sys2Proof.Machine.execHybInit s

end Sys2Proof.Machine
end

