-- ==== Sys2Proof/Machine/HostPort.lean ====
section
/-!
DEFINITION. The host port: `RegWrite`, `RegRead`, the reset event (R200 to R204, R230), and what the
host's script stores where the next step fetches it.
-/
namespace Sys2Proof.Machine

/-- `execute(w)`: decode the word written to `CMD` and run the command; a reserved word has no meaning
and the run is refused (R204, R75). -/
def execute (w : Word) (s : State) : Host.Outcome State Fault Refusal :=
  match decode w with
  | .ok i => exec i s
  | .error _ => .refused (.reservedCommand w)

/-- `RegWrite(n, v)` (R201). -/
def performWrite (n : RegNum) (v : Word) (s : State) : Host.Outcome State Fault Refusal :=
  if n = cmdNumber then execute v s
  else
    match hostWrite s.regs n v with
    | .ok x => .next (s.withRegs x)
    | .error r => .refused r

/-- The host's side with one more word returned. -/
def hostReceives (h : HostSide) (v : Word) : HostSide := { h with results := v :: h.results }

/-- `RegRead(n)` (R202): the word goes to the host; the core's state does not change. -/
def performRead (n : RegNum) (s : State) : Host.Outcome State Fault Refusal :=
  match hostRead s.regs n with
  | .ok v => .next (s.withHost (hostReceives s.host v))
  | .error r => .refused r

/-- The reset event (R230): every piece of the core's state at its reset value; what the host still
means to do and has read is the host's and stays. -/
def performReset (s : State) : Host.Outcome State Fault Refusal :=
  .next (State.reset.withHost s.host)

/-- One transaction of the host (R200). -/
def perform (t : Transaction) (s : State) : Host.Outcome State Fault Refusal :=
  match t with
  | .regWrite n v => performWrite n v s
  | .regRead n => performRead n s
  | .reset => performReset s

/-- The host's side once its next transaction, the first pending one, is taken out. -/
def hostTakes (h : HostSide) (rest : List Transaction) : HostSide := { h with pending := rest }

/-- The next step of the machine: the host's next transaction; none pending, the core is idle and holds
all state (R13, R200, R225, R251). -/
def stepHost (s : State) : Host.Outcome State Fault Refusal :=
  match s.host.pending with
  | [] => .next s
  | t :: rest => perform t (s.withHost (hostTakes s.host rest))

/-- The transaction that issues the command word a table row stands for: a `RegWrite` to `CMD` (R71,
R201). -/
def issueWord (nbits w : Nat) : Transaction :=
  .regWrite cmdNumber (BitVec.ofNat 32 (w % 2 ^ nbits))

/-- `s` with one more transaction before all that the host has pending. -/
def hostWillFirst (s : State) (t : Transaction) : State :=
  s.withHost { s.host with pending := t :: s.host.pending }

end Sys2Proof.Machine
end

