-- ==== Sys2Proof/Machine/Step.lean ====
section
/-!
DEFINITION. The step: the host's next transaction (R200).
-/
namespace Sys2Proof.Machine

/-- One step of the machine (R200). -/
def step (s : State) : Host.Outcome State Fault Refusal := stepHost s

/-- `s` with the command of a table row as the host's next transaction, so that the next step runs it. -/
def State.withFetchWord (s : State) (nbits w : Nat) : State := hostWillFirst s (issueWord nbits w)

end Sys2Proof.Machine
end

