-- ==== Sys2Proof/Machine/Script.lean ====
section
/-!
DEFINITION. The host script of R76 and its pseudo-instructions (R77), as lists of transactions.
-/
namespace Sys2Proof.Machine

/-- `WR <reg>, <value>` (R76). -/
def scriptWr (r : Reg) (v : Word) : Transaction := .regWrite (regNumber r) v

/-- `RD <reg>` (R76). -/
def scriptRd (r : Reg) : Transaction := .regRead (regNumber r)

/-- `CMD <mnemonic>` (R76). -/
def scriptCmd (i : Instr) : Transaction := .regWrite cmdNumber (encode i)

/-- `RATE fs` (R77). -/
def scriptRate (fs : Word) : List Transaction := [scriptWr .fs fs, scriptWr .dt (fdiv fOne fs)]

/-- `HIL.PROCESS in` (R77). -/
def scriptHil (x : Word) : List Transaction :=
  [scriptWr .hilIn x, scriptCmd .hilTick, scriptRd .hilAm, scriptRd .hilFm]

/-- `CHO.PROCESS am, fm` (R77). -/
def scriptCho (am fm : Word) : List Transaction :=
  [scriptWr .choAm am, scriptWr .choFm fm, scriptCmd .choTick, scriptRd .choOut]

/-- `WAH.PROCESS am, fm` (R77). -/
def scriptWah (am fm : Word) : List Transaction :=
  [scriptWr .wahAm am, scriptWr .wahFm fm, scriptCmd .wahTick, scriptRd .wahOut]

/-- `OCT.PROCESS am, fm` (R77). -/
def scriptOct (am fm : Word) : List Transaction :=
  [scriptWr .octAm am, scriptWr .octFm fm, scriptCmd .octTick, scriptRd .octOut]

/-- `HYB.PROCESS am, fm1, fm2` (R77). -/
def scriptHyb (am fm1 fm2 : Word) : List Transaction :=
  [scriptWr .hybAm am, scriptWr .hybFm1 fm1, scriptWr .hybFm2 fm2, scriptCmd .hybTick,
   scriptRd .hybOut]

end Sys2Proof.Machine
end

