-- ==== Sys2Proof/Safety.lean ====
section
/-!
DEFINITION. The terms the statements are made in: the rational value of a binary32 and what it is to be
correctly rounded, which registers and which private record belong to which unit, the states of AMFM-CORE
that the spec's range columns describe, and runs of a unit.
-/
namespace Sys2Proof.Machine

open Config

/-! Values. -/

/-- The rational value of a finite binary32 (R10). -/
def ratVal (w : Word) : ℚ := (sval w : ℚ) / 2 ^ 149

/-- The least magnitude that rounds to infinity: halfway from the greatest finite binary32 to 2^128. -/
def overflowBound : ℚ := 2 ^ 128 - 2 ^ 103

/-- `r` is the real `x` rounded once to nearest, ties to even (R91): infinite with the sign of `x` from
`overflowBound` on, and else a finite binary32 that no other is nearer to `x` than, its last place even if
another value is as near. -/
def RoundsTo (x : ℚ) (r : Word) : Prop :=
  if overflowBound ≤ |x| then isInf r = true ∧ (isNeg r = true ↔ x < 0)
  else
    isFinite r = true ∧
    ∀ c : Word, isFinite c = true →
      |ratVal r - x| ≤ |ratVal c - x| ∧
      (|ratVal r - x| = |ratVal c - x| → ratVal c = ratVal r ∨ fracField r % 2 = 0)

/-- `w` is a number in [`lo`, `hi`]; never true of a NaN. -/
def within (lo hi w : Word) : Bool := fle lo w && fle w hi

/-- A phase in [0, `TWO_PI`) (R31, R32). -/
def phaseInRange (w : Word) : Bool := fle posZero w && flt w fTwoPi

/-- No NaN but the canonical one (R92). -/
def nanCanonical (w : Word) : Bool := !isNaN w || w == canonNaN

/-! The phase difference of HIL. -/

/-- The two loops of R122 where each body runs at most once, as R124 says it does under `P-ATAN2-RANGE`. -/
def unwrapOnce (N : NumConfig) (d : Word) : Word :=
  if fle (if fgt d fPi then N.fsub d fTwoPi else d) (fneg fPi) then
    N.fadd (if fgt d fPi then N.fsub d fTwoPi else d) fTwoPi
  else if fgt d fPi then N.fsub d fTwoPi else d

/-- NaN, or in (−`PI`, `PI`]: neither loop of R122 would run on it (R124). -/
def inHalfTurn (d : Word) : Bool := isNaN d || (flt (fneg fPi) d && fle d fPi)

/-! Units. -/

/-- The five units (R2). -/
inductive UnitName where
  | hil | cho | wah | oct | hyb
deriving DecidableEq, Repr

/-- The unit a command is addressed to; none for `NOP` (R73). -/
def unitOf : Instr → Option UnitName
  | .nop => none
  | .hilTick | .hilInit => some .hil
  | .choTick | .choInit => some .cho
  | .wahTick | .wahInit => some .wah
  | .octTick | .octInit => some .oct
  | .hybTick | .hybInit => some .hyb

/-- The unit a host register belongs to; none for `FS` and `DT` (R22, R25). -/
def unitOfReg : Reg → Option UnitName
  | .fs | .dt => none
  | .hilIn | .hilAm | .hilFm => some .hil
  | .choAm | .choFm | .choDelay | .choDetune | .choOut => some .cho
  | .wahAm | .wahFm | .wahFc | .wahQ | .wahOut => some .wah
  | .octAm | .octFm | .octCtrl | .octOut => some .oct
  | .hybAm | .hybFm1 | .hybFm2 | .hybMix | .hybOut => some .hyb

/-- The `INIT` of a unit (R73). -/
def initOfUnit : UnitName → Instr
  | .hil => .hilInit
  | .cho => .choInit
  | .wah => .wahInit
  | .oct => .octInit
  | .hyb => .hybInit

/-- Two states hold the same private record of a unit (R30 to R34). -/
def SamePrivate (u : UnitName) (s t : State) : Prop :=
  match u with
  | .hil => s.hil = t.hil
  | .cho => s.cho = t.cho
  | .wah => s.wah = t.wah
  | .oct => s.oct = t.oct
  | .hyb => s.hyb = t.hyb

/-- Two states agree on all a command of the unit may read (R59): its registers, `FS`, `DT` and its
private record. -/
def SameForUnit (u : UnitName) (s t : State) : Prop :=
  (∀ r, unitOfReg r = some u ∨ unitOfReg r = none → getReg s.regs r = getReg t.regs r) ∧
    SamePrivate u s t

/-- The registers a command of a unit may write: the unit's outputs (R205, R206). -/
def isOutputOf (u : UnitName) (r : Reg) : Bool := isReadOnly r && unitOfReg r == some u

/-- Voice record `i` (R31). -/
def voiceAt (c : ChoState) : Fin choVoices → Voice
  | 0 => c.v0
  | 1 => c.v1
  | 2 => c.v2
  | 3 => c.v3
  | 4 => c.v4

/-- The sample `n` ticks old, 0 for the one pushed last, of the 15 in the ring buffer (R30, R123). -/
def hilHistory (h : HilState) (n : Nat) : Word := memRead h.buf ((h.wp.val + 14 - n) % hilTaps)

/-! Safe states. -/

/-- HIL's record as R30 describes it, the phase of the previous tick being a result of `NUM.atan2` or the
reset value. -/
def hilSafe (h : HilState) : Bool :=
  Memory.wf hilTaps h.buf && (isNaN h.prev || within (fneg fPi) fPi h.prev)

/-- A voice as R31 describes it. -/
def voiceSafe (V : Voice) : Bool :=
  Memory.wf choCap V.am && Memory.wf choCap V.fm && (isNaN V.ph || phaseInRange V.ph)

/-- The five voices, their write pointers equal (R31). -/
def choSafe (c : ChoState) : Bool :=
  voiceSafe c.v0 && voiceSafe c.v1 && voiceSafe c.v2 && voiceSafe c.v3 && voiceSafe c.v4 &&
    decide (c.v1.wp = c.v0.wp) && decide (c.v2.wp = c.v0.wp) && decide (c.v3.wp = c.v0.wp) &&
    decide (c.v4.wp = c.v0.wp)

/-- WAH's record in the ranges of R32. -/
def wahSafe (w : WahState) : Bool :=
  within posZero f20000 w.x1 && within posZero f20000 w.x2 && within fMinus1000 f1000 w.y1 &&
    within fMinus1000 f1000 w.y2 && phaseInRange w.ph

/-- The outputs: NaNs canonical (R92), `HIL_AM` not negative (R125), `CHO_OUT` and `WAH_OUT` within
±`VMAX` and never NaN (R147, R166), `HYB_OUT` within ±1.0 or NaN (R193). -/
def outputsSafe (x : Regs) : Bool :=
  nanCanonical x.hilAm && nanCanonical x.hilFm && nanCanonical x.octOut && nanCanonical x.hybOut &&
    (isNaN x.hilAm || fle posZero x.hilAm) && within (fneg f10) f10 x.choOut &&
    within (fneg f10) f10 x.wahOut && (isNaN x.hybOut || within (fneg fOne) fOne x.hybOut)

/-- A safe state: what every state is that a run from reset can reach. -/
def State.safe (s : State) : Bool :=
  hilSafe s.hil && choSafe s.cho && wahSafe s.wah && outputsSafe s.regs

/-- The registers with every input, every parameter, `FS` and `DT` zeroed, the outputs as they are (R233). -/
def zeroWritable (x : Regs) : Regs :=
  (allRegs.filter (fun r => !isReadOnly r)).foldl (fun y r => setReg y r posZero) x

/-- A reserved command word by its fields (R75). -/
def ReservedWord (w : Word) : Prop :=
  w.toNat / 2 ^ 8 ≠ 0 ∨ 3 ≤ w.toNat / 2 ^ 4 % 2 ^ 4 ∨
    ((w.toNat / 2 ^ 4 % 2 ^ 4 = 1 ∨ w.toNat / 2 ^ 4 % 2 ^ 4 = 2) ∧ 5 ≤ w.toNat % 2 ^ 4) ∨
    (w.toNat / 2 ^ 4 % 2 ^ 4 = 0 ∧ 1 ≤ w.toNat % 2 ^ 4)

/-! Runs. -/

/-- `HIL_IN` written with each sample in turn and `HIL.TICK` issued after each (R77). -/
def hilFeed : List Word → State → Host.Outcome State Fault Refusal
  | [], s => .next s
  | x :: rest, s =>
    match exec .hilTick (s.withRegs (setReg s.regs .hilIn x)) with
    | .next t => hilFeed rest t
    | .fault r => .fault r
    | .refused r => .refused r

/-- Commands issued one after the other. -/
def execAll : List Instr → State → Host.Outcome State Fault Refusal
  | [], s => .next s
  | i :: rest, s =>
    match exec i s with
    | .next t => execAll rest t
    | .fault r => .fault r
    | .refused r => .refused r

end Sys2Proof.Machine
end

