-- ==== Sys2Proof/Certificates/Slice0/Obligations.lean ====
section
/-!
DEFINITION. The statements for the provers. Each docstring says which rule of the spec it rests on. `exec`
runs the machine at the spec's default instance of `NUM` and `VMAX` (R90, R8), which is the model's choice
(notes/assumptions/3.md): a statement about `exec` is about that instance; a statement with a `P : Params`
holds for every instance. The host's side of the state is the model's own too (notes/assumptions/2.md).
-/
open Sys2Proof Sys2Proof.Machine Sys2Proof.Config

/-! Encoding. -/

/-- The opcode map of R73, word by word, read both ways, and one reserved word of each kind. -/
def Obligations.OpcodeMapWords : Prop :=
  [Instr.nop, .hilTick, .choTick, .wahTick, .octTick, .hybTick, .hilInit, .choInit, .wahInit,
      .octInit, .hybInit].map encode =
    [0x00000000#32, 0x00000010#32, 0x00000011#32, 0x00000012#32, 0x00000013#32, 0x00000014#32,
      0x00000020#32, 0x00000021#32, 0x00000022#32, 0x00000023#32, 0x00000024#32] ∧
  decode 0x00000000#32 = .ok .nop ∧
  decode 0x00000010#32 = .ok .hilTick ∧ decode 0x00000020#32 = .ok .hilInit ∧
  decode 0x00000011#32 = .ok .choTick ∧ decode 0x00000021#32 = .ok .choInit ∧
  decode 0x00000012#32 = .ok .wahTick ∧ decode 0x00000022#32 = .ok .wahInit ∧
  decode 0x00000013#32 = .ok .octTick ∧ decode 0x00000023#32 = .ok .octInit ∧
  decode 0x00000014#32 = .ok .hybTick ∧ decode 0x00000024#32 = .ok .hybInit ∧
  decode 0x00000030#32 = .error .funcReserved ∧ decode 0x00000015#32 = .error .unitReserved ∧
  decode 0x00000001#32 = .error .unitReserved ∧ decode 0x00000110#32 = .error .zeroFieldSet

/-- R72: of all 2^32 words exactly the encodings decode, each to its own command. -/
def Obligations.DecodeAcceptsExactlyTheEncodings : Prop :=
  ∀ (w : Word) (i : Instr), decode w = .ok i ↔ w = encode i

/-- R75: a word is a command word or is reserved, by its fields and never both; writing a reserved one to
`CMD` is refused, neither a `NOP` nor a trap. -/
def Obligations.ReservedWordsAreRefused : Prop :=
  ∀ w : Word,
    (ReservedWord w ↔ ∀ i, w ≠ encode i) ∧
    (ReservedWord w → ∀ (s : State) (rest : List Transaction),
      s.host.pending = .regWrite 0x00#8 w :: rest → step s = .refused (.reservedCommand w))

/-! Transactions. -/

/-- R204: where the host's next transaction writes the word of a command to `CMD`, the step is that
command's `exec`, on the state whose pending list has lost the transaction. -/
def Obligations.StepRunsTheDecodedCommand : Prop :=
  ∀ (s : State) (w : Word) (i : Instr) (rest : List Transaction),
    s.host.pending = .regWrite 0x00#8 w :: rest → decode w = .ok i →
      step s = exec i (s.withHost { s.host with pending := rest })

/-- R225: with no transaction pending the core holds all state. That the model then still takes a step, one that
changes nothing, is its own choice (notes/assumptions/2.md). -/
def Obligations.IdleCoreHoldsAllState : Prop :=
  ∀ s : State, s.host.pending = [] → step s = .next s

/-- The register numbers and access rights of R22 and R25, and that no two registers share a number. -/
def Obligations.RegisterMapNumbers : Prop :=
  allRegs.map (fun r => (regNumber r, isReadOnly r)) =
    [(0x01#8, false), (0x02#8, false), (0x10#8, false), (0x18#8, true), (0x19#8, true),
     (0x20#8, false), (0x21#8, false), (0x24#8, false), (0x25#8, false), (0x28#8, true),
     (0x30#8, false), (0x31#8, false), (0x34#8, false), (0x35#8, false), (0x38#8, true),
     (0x40#8, false), (0x41#8, false), (0x44#8, false), (0x48#8, true),
     (0x50#8, false), (0x51#8, false), (0x52#8, false), (0x54#8, false), (0x58#8, true)] ∧
  (∀ r q, regNumber r = regNumber q → r = q)

/-- R201: what a `RegWrite` of each kind of register number does. -/
def Obligations.RegWriteRule : Prop :=
  ∀ (s : State) (n : RegNum) (v : Word) (rest : List Transaction),
    s.host.pending = .regWrite n v :: rest →
      (n = 0x00#8 → step s = execute v (s.withHost { s.host with pending := rest })) ∧
      (∀ r, regNumber r = n → isReadOnly r = false →
        ∃ t, step s = .next t ∧ getReg t.regs r = v ∧
          (∀ q, q ≠ r → getReg t.regs q = getReg s.regs q) ∧
          (∀ u, SamePrivate u t s) ∧ t.host = { s.host with pending := rest }) ∧
      (∀ r, regNumber r = n → isReadOnly r = true → step s = .refused (.writeReadOnly n)) ∧
      (n ≠ 0x00#8 → (∀ r, regNumber r ≠ n) → step s = .refused (.writeUnmapped n))

/-- R202: what a `RegRead` of each kind of register number does. -/
def Obligations.RegReadRule : Prop :=
  ∀ (s : State) (n : RegNum) (rest : List Transaction),
    s.host.pending = .regRead n :: rest →
      (∀ r, regNumber r = n →
        ∃ t, step s = .next t ∧ t.host = ⟨rest, getReg s.regs r :: s.host.results⟩ ∧
          t.regs = s.regs ∧ (∀ u, SamePrivate u t s)) ∧
      (n = 0x00#8 → step s = .refused .readCmd) ∧
      (n ≠ 0x00#8 → (∀ r, regNumber r ≠ n) → step s = .refused (.readUnmapped n))

/-- R57 (a), R24: a word written to a read-write register, whatever its pattern, is what the next read of
that register returns. -/
def Obligations.ReadReturnsTheLastWrite : Prop :=
  ∀ (s : State) (r : Reg) (v : Word) (rest : List Transaction), isReadOnly r = false →
    s.host.pending = .regWrite (regNumber r) v :: .regRead (regNumber r) :: rest →
      ∃ t, Sys2Proof.core.run 2 s = .next t ∧ t.host = ⟨rest, v :: s.host.results⟩ ∧
        getReg t.regs r = v

/-- R230: after the reset event every register reads `0x00000000`, every memory entry reads `0x00000000`, and
every other private field holds its reset value; so does `State.reset`. -/
def Obligations.ResetClearsEverything : Prop :=
  (∀ (s : State) (rest : List Transaction), s.host.pending = .reset :: rest →
    ∃ h, step s = .next (State.reset.withHost h)) ∧
  (∀ r, getReg State.reset.regs r = 0x00000000#32) ∧
  (∀ i, memRead State.reset.hil.buf i = 0x00000000#32) ∧
  State.reset.hil.wp = 0 ∧ State.reset.hil.prev = 0x00000000#32 ∧
  (∀ k : Fin choVoices,
    (∀ i, memRead (voiceAt State.reset.cho k).am i = 0x00000000#32) ∧
    (∀ i, memRead (voiceAt State.reset.cho k).fm i = 0x00000000#32) ∧
    (voiceAt State.reset.cho k).wp = 0 ∧ (voiceAt State.reset.cho k).ph = 0x00000000#32) ∧
  State.reset.wah = ⟨0x00000000#32, 0x00000000#32, 0x00000000#32, 0x00000000#32, 0x00000000#32,
    0x00000000#32⟩ ∧
  State.reset.oct = ⟨0x00000000#32⟩ ∧ State.reset.hyb = ⟨0x00000000#32, 0x00000000#32⟩

/-- The model's choice (notes/assumptions/2.md): the reset event is one of the host's transactions, and leaves
the host the transactions still pending and the words it has read. -/
def Obligations.ResetEventKeepsTheHostSide : Prop :=
  ∀ (s : State) (rest : List Transaction), s.host.pending = .reset :: rest →
    ∃ t, step s = .next t ∧ t.host = ⟨rest, s.host.results⟩

/-- R233: the five `INIT` commands in any order, plus zeroing the inputs, the parameters, `FS` and `DT`,
leave the core as reset leaves it; each `INIT` leaves inputs, parameters, `FS` and `DT` alone. -/
def Obligations.ResetIsTheFiveInitsPlusZeroing : Prop :=
  (∀ order : List Instr, order.Perm [.hilInit, .choInit, .wahInit, .octInit, .hybInit] →
    ∀ s : State, ∃ t, execAll order s = .next t ∧
      t.withRegs (zeroWritable t.regs) = State.reset.withHost s.host) ∧
  (∀ (u : UnitName) (s : State), ∃ t, exec (initOfUnit u) s = .next t ∧
    SamePrivate u t State.reset ∧
    (∀ r, isOutputOf u r = true → getReg t.regs r = getReg State.reset.regs r) ∧
    (∀ r, isReadOnly r = false → getReg t.regs r = getReg s.regs r))

/-! What every command does and leaves alone. -/

/-- R203: `NOP` changes nothing. -/
def Obligations.NopChangesNothing : Prop :=
  decode 0x00000000#32 = .ok .nop ∧ ∀ s : State, exec .nop s = .next s

/-- R206: every `INIT` completes on every state, puts the unit's private record and its outputs at their
reset values, leaves every other register, every other unit and the host's side unchanged, and leaves the
unit where reset would leave it under the same register contents. -/
def Obligations.InitRule : Prop :=
  ∀ (u : UnitName) (s : State), ∃ t,
    exec (initOfUnit u) s = .next t ∧
    SamePrivate u t State.reset ∧
    (∀ r, isOutputOf u r = true → getReg t.regs r = 0x00000000#32) ∧
    (∀ r, isOutputOf u r = false → getReg t.regs r = getReg s.regs r) ∧
    (∀ v, v ≠ u → SamePrivate v t s) ∧
    t.host = s.host ∧
    SameForUnit u t (State.reset.withRegs t.regs)

/-- R59, R205, R206: the frame of every command of a unit. Only the unit's outputs and its private record
may differ after it; no input, no parameter, not `FS` or `DT`, no register or record of another unit, and
nothing of the host's side. -/
def Obligations.CommandWritesOnlyItsUnit : Prop :=
  ∀ (i : Instr) (u : UnitName) (s t : State), unitOf i = some u → exec i s = .next t →
    (∀ r, isOutputOf u r = false → getReg t.regs r = getReg s.regs r) ∧
    (∀ v, v ≠ u → SamePrivate v t s) ∧ t.host = s.host

/-- R59: what a command of a unit does depends only on the unit's registers, `FS`, `DT` and the unit's
record. -/
def Obligations.CommandReadsOnlyItsUnit : Prop :=
  ∀ (i : Instr) (u : UnitName) (s s' t : State), unitOf i = some u → SameForUnit u s s' →
    exec i s = .next t → ∃ t', exec i s' = .next t' ∧ SameForUnit u t t'

/-- R59: commands addressed to different units commute. -/
def Obligations.CommandsOfDifferentUnitsCommute : Prop :=
  ∀ (i j : Instr) (u v : UnitName) (s a b : State), unitOf i = some u → unitOf j = some v → u ≠ v →
    exec i s = .next a → exec j a = .next b → ∃ c, exec j s = .next c ∧ exec i c = .next b

/-- R122, R144, R148, R52: the memories. `HIL.TICK` stores `HIL_IN` at the write index and nowhere else;
`CHO.TICK` stores `CHO_AM` and `CHO_FM` at each voice's write pointer and nowhere else. -/
def Obligations.TicksStoreOneEntryPerBuffer : Prop :=
  (∀ s t : State, Memory.wf hilTaps s.hil.buf = true → exec .hilTick s = .next t →
    memRead t.hil.buf s.hil.wp = getReg s.regs .hilIn ∧
    ∀ a, a ≠ s.hil.wp.val → memRead t.hil.buf a = memRead s.hil.buf a) ∧
  (∀ s t : State, choSafe s.cho = true → exec .choTick s = .next t → ∀ i : Fin choVoices,
    memRead (voiceAt t.cho i).am (voiceAt s.cho i).wp = getReg s.regs .choAm ∧
    memRead (voiceAt t.cho i).fm (voiceAt s.cho i).wp = getReg s.regs .choFm ∧
    ∀ a, a ≠ (voiceAt s.cho i).wp.val →
      memRead (voiceAt t.cho i).am a = memRead (voiceAt s.cho i).am a ∧
      memRead (voiceAt t.cho i).fm a = memRead (voiceAt s.cho i).fm a)

/-! Numeric primitives. -/

/-- R95: `clamp`, its special cases, and that the result is a number in the range. -/
def Obligations.ClampRule : Prop :=
  ∀ x lo hi : Word, isFinite lo = true → isFinite hi = true → fle lo hi = true →
    (isNaN x = true → clamp x lo hi = hi) ∧
    (flt x lo = true → clamp x lo hi = lo) ∧
    (fgt x hi = true → clamp x lo hi = hi) ∧
    (within lo hi x = true → clamp x lo hi = x) ∧
    clamp 0x7F800000#32 lo hi = hi ∧ clamp 0xFF800000#32 lo hi = lo ∧
    within lo hi (clamp x lo hi) = true ∧ isNaN (clamp x lo hi) = false

/-- R91: `fadd` and `fsub` of finite operands are the exact sum and difference rounded once to nearest,
ties to even, with the signs of zero sums the rule gives. -/
def Obligations.SumsAreCorrectlyRounded : Prop :=
  ∀ a b : Word, isFinite a = true → isFinite b = true →
    RoundsTo (ratVal a + ratVal b) (fadd a b) ∧ RoundsTo (ratVal a - ratVal b) (fsub a b) ∧
    (ratVal a + ratVal b = 0 → fadd a b = if isNeg a && isNeg b then 0x80000000#32 else 0x00000000#32)

/-- R91: `fmul` and `fdiv` of finite operands, the divisor not zero, are the exact product and quotient
rounded once, with the exclusive-or of the signs. -/
def Obligations.ProductsAndQuotientsAreCorrectlyRounded : Prop :=
  ∀ a b : Word, isFinite a = true → isFinite b = true →
    RoundsTo (ratVal a * ratVal b) (fmul a b) ∧ isNeg (fmul a b) = (isNeg a != isNeg b) ∧
    (isZero b = false →
      RoundsTo (ratVal a / ratVal b) (fdiv a b) ∧ isNeg (fdiv a b) = (isNeg a != isNeg b))

/-- R91: `fsqrt` of a finite number that is not negative is the binary32 nearest the real square root. -/
def Obligations.SquareRootsAreCorrectlyRounded : Prop :=
  ∀ a : Word, isFinite a = true → fle posZero a = true →
    isFinite (fsqrt a) = true ∧ fle posZero (fsqrt a) = true ∧
    ∀ c : Word, isFinite c = true →
      |((ratVal (fsqrt a) : ℚ) : ℝ) - Real.sqrt ((ratVal a : ℚ) : ℝ)| ≤
        |((ratVal c : ℚ) : ℝ) - Real.sqrt ((ratVal a : ℚ) : ℝ)|

/-- R91, R92: the special values of the basic arithmetic, with their signs. -/
def Obligations.ArithmeticSpecialValues : Prop :=
  ∀ a b : Word,
    (isNaN a = true ∨ isNaN b = true →
      fadd a b = canonNaN ∧ fsub a b = canonNaN ∧ fmul a b = canonNaN ∧ fdiv a b = canonNaN) ∧
    (isNaN a = true → fsqrt a = canonNaN) ∧
    (isInf a = true → fadd a a = a ∧ fadd a (fneg a) = canonNaN ∧ fsub a a = canonNaN ∧
      fsub a (fneg a) = a) ∧
    (isInf a = true → isFinite b = true →
      fadd a b = a ∧ fadd b a = a ∧ fsub a b = a ∧ fsub b a = fneg a) ∧
    (isFinite a = true → isFinite b = true → feq a b = true →
      fsub a b = if isNeg a && !isNeg b then 0x80000000#32 else 0x00000000#32) ∧
    (isInf a = true → isZero b = true → fmul a b = canonNaN ∧ fmul b a = canonNaN) ∧
    (isInf a = true → isNaN b = false → isZero b = false →
      isInf (fmul a b) = true ∧ isNeg (fmul a b) = (isNeg a != isNeg b) ∧
      isInf (fmul b a) = true ∧ isNeg (fmul b a) = (isNeg a != isNeg b)) ∧
    (isInf a = true → isInf b = true → fdiv a b = canonNaN) ∧
    (isInf a = true → isFinite b = true →
      isInf (fdiv a b) = true ∧ isNeg (fdiv a b) = (isNeg a != isNeg b)) ∧
    (isFinite a = true → isInf b = true →
      isZero (fdiv a b) = true ∧ isNeg (fdiv a b) = (isNeg a != isNeg b)) ∧
    (isNaN a = false → isZero a = false → isZero b = true →
      isInf (fdiv a b) = true ∧ isNeg (fdiv a b) = (isNeg a != isNeg b)) ∧
    (isZero a = true → isZero b = true → fdiv a b = canonNaN) ∧
    (flt a posZero = true → fsqrt a = canonNaN) ∧
    (isZero a = true → fsqrt a = a) ∧
    fsqrt 0x7F800000#32 = 0x7F800000#32

/-- R96: `ffloor` and `ifloor` are the greatest integer not above, `float` is exact up to 2^24, and `fmod`
is the exact truncating remainder with the sign of the dividend. -/
def Obligations.FloorAndRemainderAreExact : Prop :=
  (∀ v : Word, isFinite v = true →
    ifloor v = ⌊ratVal v⌋ ∧ isFinite (ffloor v) = true ∧ ratVal (ffloor v) = ⌊ratVal v⌋ ∧
    (2 ^ 23 ≤ |ratVal v| → ffloor v = v)) ∧
  (∀ v : Word, isFinite v = false → ffloor v = canonNaN) ∧
  ffloor 0x80000000#32 = 0x80000000#32 ∧
  (∀ i : ℤ, |i| ≤ 2 ^ 24 → isFinite (floatOfInt i) = true ∧ ratVal (floatOfInt i) = i) ∧
  (∀ x y : Word, isFinite y = true → flt posZero y = true →
    (isFinite x = false → fmod x y = canonNaN) ∧
    (isFinite x = true →
      isFinite (fmod x y) = true ∧ isNeg (fmod x y) = isNeg x ∧
      |ratVal (fmod x y)| < ratVal y ∧
      ∃ n : ℤ, ratVal (fmod x y) = ratVal x - n * ratVal y ∧ |(n : ℚ)| * ratVal y ≤ |ratVal x|))

/-- R100: `wrap2pi` of a finite phase is its exact remainder by `TWO_PI`, with `TWO_PI` added to a negative
one and `+0.0` where that reaches `TWO_PI`; it lies in [0, `TWO_PI`), leaves a phase that is there already as
it is, and is the canonical NaN for every other operand. -/
def Obligations.WrapLandsInOneTurn : Prop :=
  ∀ p : Word,
    (isFinite p = true →
      phaseInRange (wrap2pi defaultNum p) = true ∧
      (flt (fmod p fTwoPi) posZero = false → wrap2pi defaultNum p = fmod p fTwoPi) ∧
      (flt (fmod p fTwoPi) posZero = true →
        wrap2pi defaultNum p =
          if fge (fadd (fmod p fTwoPi) fTwoPi) fTwoPi then 0x00000000#32
          else fadd (fmod p fTwoPi) fTwoPi)) ∧
    (phaseInRange p = true → wrap2pi defaultNum p = p) ∧
    (isFinite p = false → wrap2pi defaultNum p = canonNaN)

/-- R99, R98: every entry of the quarter-wave table is the binary32 nearest the real cosine, the last one
`+0.0`, and so is every entry of the whole turn it unfolds to. -/
def Obligations.CosineTableIsNearest : Prop :=
  qlut 256 = 0x00000000#32 ∧
  (∀ j, j ≤ 256 → isFinite (qlut j) = true ∧ ∀ c : Word, isFinite c = true →
    |((ratVal (qlut j) : ℚ) : ℝ) - Real.cos (Real.pi / 2 * ((j : ℝ) / 256))| ≤
      |((ratVal c : ℚ) : ℝ) - Real.cos (Real.pi / 2 * ((j : ℝ) / 256))|) ∧
  (∀ i, i < 1024 → isFinite (cosLut i) = true ∧ ∀ c : Word, isFinite c = true →
    |((ratVal (cosLut i) : ℚ) : ℝ) - Real.cos (2 * Real.pi * (i : ℝ) / 1024)| ≤
      |((ratVal c : ℚ) : ℝ) - Real.cos (2 * Real.pi * (i : ℝ) / 1024)|)

/-- R98: the table cosine of a finite phase is the entry of the whole-turn table at 1024 times the fractional
turn, truncated; the fractional turn is in [0, 1], and 1 reads entry 0. The whole turn is the quarter wave
forward, backward negated, forward negated and backward. -/
def Obligations.TableCosineValue : Prop :=
  (∀ j, j < 256 →
    cosLut j = qlut j ∧ cosLut (256 + j) = fneg (qlut (256 - j)) ∧
    cosLut (512 + j) = fneg (qlut j) ∧ cosLut (768 + j) = qlut (256 - j)) ∧
  ∀ θ : Word, isFinite θ = true →
    let u := fmul θ fInvTwoPi
    let r := fsub u (ffloor u)
    isFinite u = true ∧ isFinite r = true ∧ 0 ≤ ratVal r ∧ ratVal r ≤ 1 ∧
      cosrDefault θ = cosLut (⌊1024 * ratVal r⌋.toNat % 1024)

/-- R98, R104 (P-COSR-RANGE, P-COSR-ZERO): the table cosine is a number in [−1.0, 1.0] for a finite phase,
1.0 at both zeros, and NaN for the others. -/
def Obligations.TableCosineRange : Prop :=
  (∀ θ : Word, isFinite θ = true → within (fneg fOne) fOne (cosrDefault θ) = true) ∧
  (∀ θ : Word, isFinite θ = false → cosrDefault θ = canonNaN) ∧
  cosrDefault 0x00000000#32 = fOne ∧ cosrDefault 0x80000000#32 = fOne

/-- R102, R104 (P-ATAN2-RANGE, P-ATAN2-AXES): the arctangent is within ±`PI` for operands that are not
NaN, NaN else, and exact on the axes. -/
def Obligations.ArctangentRangeAndAxes : Prop :=
  ∀ y x : Word,
    (isNaN y = true ∨ isNaN x = true → atan2Default y x = canonNaN) ∧
    (isNaN y = false → isNaN x = false →
      within (fneg fPi) fPi (atan2Default y x) = true ∧
      (isZero x = true → flt posZero y = true → atan2Default y x = fHalfPi) ∧
      (isZero x = true → flt y posZero = true → atan2Default y x = fneg fHalfPi) ∧
      (isZero y = true → isNeg x = false → atan2Default y x = y) ∧
      (isZero y = true → isNeg x = true → atan2Default y x = if isNeg y then fneg fPi else fPi))

/-- R103, R104 (P-TANH-RANGE without monotony): the hyperbolic tangent is within ±1.0, odd, and NaN only
for NaN. -/
def Obligations.HyperbolicTangentRange : Prop :=
  ∀ z : Word,
    (isNaN z = true → tanhDefault z = canonNaN) ∧
    (isNaN z = false →
      within (fneg fOne) fOne (tanhDefault z) = true ∧
      tanhDefault (fneg z) = fneg (tanhDefault z)) ∧
    (isZero z = true → tanhDefault z = z) ∧
    (isInf z = true → tanhDefault z = if isNeg z then fneg fOne else fOne)

/-- R101, R104 (P-SINCOSC-RANGE): the sine and cosine of the coefficients are within ±1.0 for a finite
angle, NaN else, with the zeros of the rule. -/
def Obligations.SineAndCosineRange : Prop :=
  ∀ w : Word,
    (isFinite w = true →
      within (fneg fOne) fOne (sinDefault w) = true ∧ within (fneg fOne) fOne (cosDefault w) = true) ∧
    (isFinite w = false → sinDefault w = canonNaN ∧ cosDefault w = canonNaN) ∧
    (isZero w = true → sinDefault w = w ∧ cosDefault w = fOne)

/-- R110, R112: the delay line reads at the exact remainder of `wp − d` by 4410, with 4410 added to a negative
one and `+0.0` where that reaches 4410. The position splits exactly into an entry of the buffer and a weight
in [0, 1), and the read weighs that entry and the next. A difference that is not finite reads NaN. -/
def Obligations.DelayReadPositionSplits : Prop :=
  ∀ (m : Memory) (wp : Fin choCap) (d : Word),
    let x := fsub (floatOfInt wp.val) d
    let r := fmod x f4410
    let up := fadd r f4410
    let pos := if flt r posZero then (if fge up f4410 then 0x00000000#32 else up) else r
    let i0 := ⌊ratVal pos⌋.toNat
    let frac := fsub pos (floatOfInt i0)
    (isFinite x = true →
      isFinite pos = true ∧ 0 ≤ ratVal pos ∧ i0 < choCap ∧
      isFinite frac = true ∧ ratVal frac = ratVal pos - i0 ∧ 0 ≤ ratVal frac ∧ ratVal frac < 1 ∧
      fdlRead defaultNum m wp d =
        fadd (fmul (memRead m i0) (fsub fOne frac)) (fmul (memRead m ((i0 + 1) % choCap)) frac)) ∧
    (isFinite x = false → fdlRead defaultNum m wp d = canonNaN)

/-- R111 (a), (b), S4: a delay of n whole samples, 0 ≤ n ≤ 4409, reads exactly the entry written n ticks
before the one at the write pointer, where that entry and the next are finite. -/
def Obligations.WholeDelayReadsTheEntry : Prop :=
  ∀ (m : Memory) (wp : Fin choCap) (n : Nat), n < choCap →
    isFinite (memRead m ((wp.val + choCap - n) % choCap)) = true →
    isFinite (memRead m ((wp.val + choCap - n + 1) % choCap)) = true →
      feq (fdlRead defaultNum m wp (floatOfInt n)) (memRead m ((wp.val + choCap - n) % choCap)) = true

/-! HIL. -/

/-- R121: the coefficient table, its antisymmetry, and that each entry that is not zero is the binary32 nearest
2/(π·m), m = n − 7 odd. -/
def Obligations.HilbertCoefficientsAreNearest : Prop :=
  (List.range 15).map hilCoef =
    [0xBDBA41BB#32, 0x00000000#32, 0xBE026136#32, 0x00000000#32, 0xBE594CAF#32, 0x00000000#32,
     0xBF22F983#32, 0x00000000#32, 0x3F22F983#32, 0x00000000#32, 0x3E594CAF#32, 0x00000000#32,
     0x3E026136#32, 0x00000000#32, 0x3DBA41BB#32] ∧
  (∀ n, n < 15 → n % 2 = 0 → hilCoef (14 - n) = fneg (hilCoef n)) ∧
  (∀ n, n < 15 → n % 2 = 0 → ∀ c : Word, isFinite c = true →
    |((ratVal (hilCoef n) : ℚ) : ℝ) - 2 / (Real.pi * ((n : ℝ) - 7))| ≤
      |((ratVal c : ℚ) : ℝ) - 2 / (Real.pi * ((n : ℝ) - 7))|)

/-- R122: `HIL.TICK` for every instance of the parameters. The 15 products are added oldest first,
`HIL_COEF[n]` on the sample `n` ticks old; the phase difference goes through the two loops, here each run at
most once, which is all they do wherever the result is NaN or in (−`PI`, `PI`]. -/
def Obligations.HilTickResult : Prop :=
  (∀ s : State, exec .hilTick s = hilTickWith defaultParams s) ∧
  ∀ (P : Params) (s : State),
    let buf := memWrite s.hil.buf s.hil.wp (getReg s.regs .hilIn)
    let im := (List.range 15).foldl (fun acc j =>
      P.num.fadd acc (P.num.fmul (hilCoef (14 - j)) (memRead buf ((s.hil.wp + 1 + j) % 15)))) posZero
    let re := memRead buf ((s.hil.wp + 8) % 15)
    let th := P.num.atan2 im re
    let d := unwrapOnce P.num (P.num.fsub th s.hil.prev)
    inHalfTurn d = true →
      ∃ t, hilTickWith P s = .next t ∧
        t.hil.buf = buf ∧ t.hil.wp.val = (s.hil.wp + 1) % 15 ∧ t.hil.prev = th ∧
        getReg t.regs .hilAm = P.num.fsqrt (P.num.fadd (P.num.fmul re re) (P.num.fmul im im)) ∧
        getReg t.regs .hilFm = P.num.fdiv (P.num.fmul d (getReg s.regs .fs)) fTwoPi

/-- R124, R104 (P-ATAN2-RANGE): `HIL.TICK` completes for every state whose previous phase is NaN or within
±`PI`: no loop runs twice, and the difference ends NaN or in (−`PI`, `PI`]. -/
def Obligations.HilTickCompletes : Prop :=
  ∀ s : State, isNaN s.hil.prev = true ∨ within (fneg fPi) fPi s.hil.prev = true →
    inHalfTurn (unwrapOnce defaultNum (fsub (hilTickPhase defaultParams s) s.hil.prev)) = true ∧
    ∃ t, exec .hilTick s = .next t ∧ t.hil.prev = hilTickPhase defaultParams s

/-- R124, R129 (f), S2: wherever the two loops end, the difference is NaN or in (−`PI`, `PI`]. -/
def Obligations.UnwrappedDifferenceIsWithinHalfATurn : Prop :=
  ∀ d e : Word, unwrap defaultNum d = some e → inHalfTurn e = true

/-- R30, R123: the ring buffer is the sequence of the last 15 samples. A tick puts `HIL_IN` first and ages
every other sample by one; its quadrature component is the convolution of the coefficients with that
sequence, its in-phase component the sample 7 ticks old. -/
def Obligations.HilTickShiftsTheSampleSequence : Prop :=
  ∀ (P : Params) (s : State) (d : Word), Memory.wf hilTaps s.hil.buf = true →
    hilHistory (hilTickNext P s d).hil 0 = getReg s.regs .hilIn ∧
    (∀ n, n < 14 → hilHistory (hilTickNext P s d).hil (n + 1) = hilHistory s.hil n) ∧
    hilTickRe s = hilHistory (hilTickNext P s d).hil 7 ∧
    hilTickIm P s = (List.range 15).foldl (fun im j =>
      P.num.fadd im (P.num.fmul (hilCoef (14 - j)) (hilHistory (hilTickNext P s d).hil (14 - j))))
      posZero

/-- R30: the layout of the ring buffer cannot be observed. Two HIL records with the same last 15 samples
and the same previous phase give the same outputs and again such records. -/
def Obligations.HilLayoutIsNotObservable : Prop :=
  ∀ s s' t : State, Memory.wf hilTaps s.hil.buf = true → Memory.wf hilTaps s'.hil.buf = true →
    (∀ n, n < 15 → hilHistory s.hil n = hilHistory s'.hil n) → s.hil.prev = s'.hil.prev →
    getReg s.regs .hilIn = getReg s'.regs .hilIn → getReg s.regs .fs = getReg s'.regs .fs →
    exec .hilTick s = .next t →
      ∃ t', exec .hilTick s' = .next t' ∧
        getReg t.regs .hilAm = getReg t'.regs .hilAm ∧ getReg t.regs .hilFm = getReg t'.regs .hilFm ∧
        t.hil.prev = t'.hil.prev ∧ ∀ n, n < 15 → hilHistory t.hil n = hilHistory t'.hil n

/-- R129 (d): HIL forgets. Whatever two HIL records held before, a NaN or a huge sample included, the same
16 samples lead both to the same outputs and the same last samples and phase: nothing older reaches the
seventeenth tick. -/
def Obligations.HilForgetsAfterSixteenSamples : Prop :=
  ∀ (xs : List Word) (s s' : State), xs.length = 16 →
    hilSafe s.hil = true → hilSafe s'.hil = true → getReg s.regs .fs = getReg s'.regs .fs →
    ∃ t t', hilFeed xs s = .next t ∧ hilFeed xs s' = .next t' ∧
      getReg t.regs .hilAm = getReg t'.regs .hilAm ∧ getReg t.regs .hilFm = getReg t'.regs .hilFm ∧
      t.hil.prev = t'.hil.prev ∧ ∀ n, n < 15 → hilHistory t.hil n = hilHistory t'.hil n

/-! CHO. -/

/-- R142: `CHO.TICK` completes on every state; for every instance of the parameters every voice record is what
the pseudocode makes of it, and the output is the five products added in the order k = −2 to 2, divided,
multiplied and clamped. -/
def Obligations.ChoTickResult : Prop :=
  (∀ s : State, exec .choTick s = .next (choTickWith defaultParams s)) ∧
  ∀ (P : Params) (s t : State), t = choTickWith P s →
    let d := fun i : Fin choVoices =>
      P.num.fdiv (P.num.fmul (P.num.fmul (getReg s.regs .choDelay)
        (P.num.fadd fOne (P.num.fmul (floatOfInt ((i.val : Int) - 2)) f0p2))) (getReg s.regs .fs)) f1000
    let am := fun i => memWrite (voiceAt s.cho i).am (voiceAt s.cho i).wp (getReg s.regs .choAm)
    let fm := fun i => memWrite (voiceAt s.cho i).fm (voiceAt s.cho i).wp (getReg s.regs .choFm)
    let ad := fun i => fdlRead P.num (am i) (voiceAt s.cho i).wp (d i)
    let fd := fun i => fdlRead P.num (fm i) (voiceAt s.cho i).wp (d i)
    let g := fun i : Fin choVoices =>
      P.num.fadd fOne (P.num.fmul (floatOfInt ((i.val : Int) - 2)) (getReg s.regs .choDetune))
    let inc := fun i =>
      P.num.fmul (P.num.fmul (P.num.fmul fTwoPi (fd i)) (g i)) (getReg s.regs .dt)
    let ph := fun i => wrap2pi P.num (P.num.fadd (voiceAt s.cho i).ph (inc i))
    let out := fun i => P.num.fmul (ad i) (P.num.cosr (ph i))
    (∀ i, (voiceAt t.cho i).am = am i ∧ (voiceAt t.cho i).fm = fm i ∧
      (voiceAt t.cho i).wp.val = ((voiceAt s.cho i).wp + 1) % 4410 ∧ (voiceAt t.cho i).ph = ph i) ∧
    getReg t.regs .choOut =
      clamp (P.num.fmul (P.num.fdiv (P.num.fadd (P.num.fadd (P.num.fadd (P.num.fadd
        (P.num.fadd posZero (out 0)) (out 1)) (out 2)) (out 3)) (out 4)) f5) f2p5)
        (fneg P.vmax) P.vmax

/-- R148: a tick advances each write pointer by one modulo 4410, and 4410 ticks bring it back. -/
def Obligations.ChorusPointersComeRound : Prop :=
  ∀ (n : Nat) (s : State), ∃ t, execAll (List.replicate n .choTick) s = .next t ∧
    ∀ i, (voiceAt t.cho i).wp.val = ((voiceAt s.cho i).wp + n) % 4410 ∧
      (n = 4410 → (voiceAt t.cho i).wp = (voiceAt s.cho i).wp)

/-- R147, R166, R212: for every instance of the parameters with a finite positive `VMAX`, `CHO_OUT` and
`WAH_OUT` are numbers in [−`VMAX`, `VMAX`] after the tick, whatever the inputs and the state. -/
def Obligations.ClampedOutputsStayWithinVmax : Prop :=
  ∀ (P : Params) (s : State), isFinite P.vmax = true → flt posZero P.vmax = true →
    within (fneg P.vmax) P.vmax (getReg (choTickWith P s).regs .choOut) = true ∧
    within (fneg P.vmax) P.vmax (getReg (wahTickWith P s).regs .wahOut) = true

/-- R149 (a), S3: with zero delay, zero detune and finite `FS`, five identical voices stay identical. -/
def Obligations.UndelayedUndetunedVoicesStayIdentical : Prop :=
  ∀ s t : State, isZero (getReg s.regs .choDelay) = true → isZero (getReg s.regs .choDetune) = true →
    isFinite (getReg s.regs .fs) = true → (∀ i, voiceAt s.cho i = voiceAt s.cho 0) →
    exec .choTick s = .next t → ∀ i, voiceAt t.cho i = voiceAt t.cho 0

/-! WAH. -/

/-- R161: `WAH.TICK` completes on every state; for every instance of the parameters the next state is the one
the pseudocode gives. -/
def Obligations.WahTickResult : Prop :=
  (∀ s : State, exec .wahTick s = .next (wahTickWith defaultParams s)) ∧
  ∀ (P : Params) (s t : State), t = wahTickWith P s →
    let fc := clamp (getReg s.regs .wahFc) f0p1 f10
    let q := clamp (getReg s.regs .wahQ) f0p5 f5
    let w0 := P.num.fdiv (P.num.fmul fTwoPi fc) (getReg s.regs .fs)
    let alpha := P.num.fdiv (P.num.sinc w0) (P.num.fmul fTwo q)
    let a0 := P.num.fadd fOne alpha
    let b0 := P.num.fdiv alpha a0
    let b2 := P.num.fdiv (fneg alpha) a0
    let a1 := P.num.fdiv (P.num.fmul fMinusTwo (P.num.cosc w0)) a0
    let a2 := P.num.fdiv (P.num.fsub fOne alpha) a0
    let xin := clamp (getReg s.regs .wahFm) posZero f20000
    let y := P.num.fsub (P.num.fsub (P.num.fadd (P.num.fmul b0 xin) (P.num.fmul b2 s.wah.x2))
      (P.num.fmul a1 s.wah.y1)) (P.num.fmul a2 s.wah.y2)
    let sn := P.num.fadd (P.num.fmul f0p7 y) (P.num.fmul f0p3 s.wah.sm)
    let inc := clamp (P.num.fmul (P.num.fmul fTwoPi sn) (getReg s.regs .dt)) (fneg fHalfPi) fHalfPi
    let ph := wrap2pi P.num (P.num.fadd s.wah.ph inc)
    t.wah = ⟨xin, s.wah.x1, clamp sn fMinus1000 f1000, s.wah.y1, sn, ph⟩ ∧
    getReg t.regs .wahOut =
      clamp (P.num.fmul (P.num.fmul (getReg s.regs .wahAm) (P.num.cosr ph)) f0p7)
        (fneg P.vmax) P.vmax

/-- R165, S5: the phase increment of WAH is within ±`HALF_PI` on every state, and a phase in
[0, `TWO_PI`) is in it again after the tick, never NaN, whatever the inputs. -/
def Obligations.WahPhaseNeverLeavesTheTurn : Prop :=
  (∀ s : State, within (fneg fHalfPi) fHalfPi (wahIncrement defaultNum s.regs s.wah) = true) ∧
  (∀ s t : State, phaseInRange s.wah.ph = true → exec .wahTick s = .next t →
    phaseInRange t.wah.ph = true ∧ isNaN t.wah.ph = false)

/-! OCT. -/

/-- R181: `OCT.TICK` completes on every state; for every instance of the parameters the next state is the one
the pseudocode gives. -/
def Obligations.OctTickResult : Prop :=
  (∀ s : State, exec .octTick s = .next (octTickWith defaultParams s)) ∧
  ∀ (P : Params) (s t : State), t = octTickWith P s →
    let ratio := P.num.fadd f0p5 (P.num.fmul (getReg s.regs .octCtrl) f1p5)
    let inc := P.num.fmul (P.num.fmul (P.num.fmul fTwoPi (getReg s.regs .octFm)) ratio)
      (getReg s.regs .dt)
    let p := P.num.fadd s.oct.ph inc
    let q := if fgt p fTwoPi then P.num.fsub p fTwoPi else p
    t.oct.ph = q ∧ getReg t.regs .octOut = P.num.fmul (getReg s.regs .octAm) (P.num.cosr q)

/-- R184 (a), S6: the controls 0, 0.25, 0.5, 0.75, 1, 2 and −1 advance the phase by exactly 0.5, 0.875, 1.25,
1.625, 2, 3.5 and −1 times the frequency. -/
def Obligations.OctaveRatiosAreExact : Prop :=
  ∀ c ratio : Word,
    (c, ratio) ∈ [(0x00000000#32, 0x3F000000#32), (0x3E800000#32, 0x3F600000#32),
      (0x3F000000#32, 0x3FA00000#32), (0x3F400000#32, 0x3FD00000#32), (0x3F800000#32, 0x40000000#32),
      (0x40000000#32, 0x40600000#32), (0xBF800000#32, 0xBF800000#32)] →
    ∀ s : State, getReg s.regs .octCtrl = c →
      ∃ t, exec .octTick s = .next t ∧
        t.oct.ph = octWrap defaultNum (fadd s.oct.ph
          (fmul (fmul (fmul fTwoPi (getReg s.regs .octFm)) ratio) (getReg s.regs .dt)))

/-- R182 (a): while the increment is in [0, `TWO_PI`], the phase of OCT stays in [0, `TWO_PI`]. -/
def Obligations.OctPhaseStaysInOneTurn : Prop :=
  ∀ s t : State, within posZero fTwoPi s.oct.ph = true →
    within posZero fTwoPi (phaseIncScaled defaultNum (getReg s.regs .octFm)
      (octRatio defaultNum (getReg s.regs .octCtrl)) (getReg s.regs .dt)) = true →
    exec .octTick s = .next t → within posZero fTwoPi t.oct.ph = true

/-! HYB. -/

/-- R191: `HYB.TICK` completes on every state; for every instance of the parameters the next state is the one
the pseudocode gives; the phase is not wrapped. -/
def Obligations.HybTickResult : Prop :=
  (∀ s : State, exec .hybTick s = .next (hybTickWith defaultParams s)) ∧
  ∀ (P : Params) (s t : State), t = hybTickWith P s →
    let p := getReg s.regs .hybMix
    let mixed := P.num.fadd (P.num.fmul p (getReg s.regs .hybFm1))
      (P.num.fmul (P.num.fsub fOne p) (getReg s.regs .hybFm2))
    let sn := P.num.fadd (P.num.fmul f0p999 s.hyb.sm) (P.num.fmul f0p001 mixed)
    let ph := P.num.fadd s.hyb.ph (P.num.fmul (P.num.fmul fTwoPi sn) (getReg s.regs .dt))
    t.hyb.sm = sn ∧ t.hyb.ph = ph ∧
    getReg t.regs .hybOut = P.num.tanh (P.num.fmul (getReg s.regs .hybAm) (P.num.cosr ph))

/-- R193, S7: after `HYB.TICK` the output is the canonical NaN or within ±1.0, for every state. -/
def Obligations.HybOutputNeverExceedsOne : Prop :=
  ∀ s t : State, exec .hybTick s = .next t →
    getReg t.regs .hybOut = canonNaN ∨ within (fneg fOne) fOne (getReg t.regs .hybOut) = true

/-- R194 (a), S7: with `HYB_MIX` = 1.0 the mix is the first stream, with `+0.0` the second, numerically,
while both are finite. -/
def Obligations.HybMixReducesToOneStream : Prop :=
  ∀ x : Regs, isFinite (getReg x .hybFm1) = true → isFinite (getReg x .hybFm2) = true →
    (getReg x .hybMix = fOne → feq (hybMixed defaultNum x) (getReg x .hybFm1) = true) ∧
    (getReg x .hybMix = posZero → feq (hybMixed defaultNum x) (getReg x .hybFm2) = true)

/-! Hazards and safety. -/

/-- R244: non-finite values that never leave. A NaN phase of a chorus voice stays NaN and holds `CHO_OUT`
at `VMAX`; a non-finite `WAH.sm`, `OCT.ph`, `HYB.sm` or `HYB.ph` stays non-finite, and the last three make
their unit's output NaN. -/
def Obligations.PoisonedStateStaysPoisoned : Prop :=
  (∀ (s t : State) (i : Fin choVoices), isNaN (voiceAt s.cho i).ph = true →
    exec .choTick s = .next t → isNaN (voiceAt t.cho i).ph = true ∧ getReg t.regs .choOut = f10) ∧
  (∀ s t : State, isFinite s.wah.sm = false → exec .wahTick s = .next t →
    isFinite t.wah.sm = false) ∧
  (∀ s t : State, isFinite s.oct.ph = false → exec .octTick s = .next t →
    isFinite t.oct.ph = false ∧ getReg t.regs .octOut = canonNaN) ∧
  (∀ s t : State, isFinite s.hyb.sm = false ∨ isFinite s.hyb.ph = false →
    exec .hybTick s = .next t →
      (isFinite s.hyb.sm = false → isFinite t.hyb.sm = false) ∧ isFinite t.hyb.ph = false ∧
      getReg t.regs .hybOut = canonNaN)

/-- R30 to R34, R92, R230: the state after reset is safe. -/
def Obligations.ResetStateIsSafe : Prop := State.reset.safe = true

/-- R30 to R32, R92, R125, R147, R165, R166, R193: every step keeps a safe state safe: the memories
canonical, the indices and write pointers in their ranges, the histories and phases in the ranges of R31
and R32, every output a number or the canonical NaN and within its bounds. -/
def Obligations.EveryStepKeepsTheStateSafe : Prop :=
  ∀ s t : State, s.safe = true → step s = .next t → t.safe = true

/-- R210, R204: in a safe state no step faults, so no command fails to complete. -/
def Obligations.SafeStatesNeverFault : Prop :=
  ∀ (s : State) (r : Fault), s.safe = true → step s ≠ .fault r

/-- R210, R251: no script the host can write makes a run from reset fault. -/
def Obligations.NoHostScriptFaults : Prop :=
  ∀ (script : List Transaction) (k : Nat) (r : Fault),
    Sys2Proof.core.run k (State.reset.withHost ⟨script, []⟩) ≠ .fault r
end

