-- ==== Sys2Proof/Laws/Float.lean ====
section
/-!
SUPPORT. What `pack` and `roundMag` build, and that every NaN of the basic arithmetic is canonical (R92).
-/
namespace Sys2Proof.Machine

theorem roundMag_le_infMag (n d : Nat) : roundMag n d ≤ infMag := Nat.min_le_right _ _

/-- The natural number of a packed word. -/
theorem pack_toNat (neg : Bool) {m : Nat} (h : m < 2 ^ 31) :
    (pack neg m).toNat = (if neg then 2 ^ 31 else 0) + m := by
  cases neg <;> simp only [pack, BitVec.toNat_ofNat] <;> apply Nat.mod_eq_of_lt <;> simp <;> omega

/-- The sign of a packed word. -/
theorem isNeg_pack (neg : Bool) {m : Nat} (h : m < 2 ^ 31) : isNeg (pack neg m) = neg := by
  simp only [isNeg, BitVec.getLsbD, pack_toNat neg h, Nat.testBit, Nat.shiftRight_eq_div_pow]
  cases neg
  · simp
    omega
  · simp
    omega

/-- The exponent field of a packed word. -/
theorem expField_pack (neg : Bool) {m : Nat} (h : m < 2 ^ 31) :
    expField (pack neg m) = m / 2 ^ 23 := by
  rw [expField, pack_toNat neg h]
  cases neg <;> (simp; omega)

/-- The fraction field of a packed word. -/
theorem fracField_pack (neg : Bool) {m : Nat} (h : m < 2 ^ 31) :
    fracField (pack neg m) = m % 2 ^ 23 := by
  rw [fracField, pack_toNat neg h]
  cases neg <;> (simp; try omega)

/-- The magnitude of a packed word does not depend on its sign. -/
theorem mag_pack (neg : Bool) {m : Nat} (h : m < 2 ^ 31) :
    mag (pack neg m) = if m / 2 ^ 23 = 0 then m % 2 ^ 23
      else (2 ^ 23 + m % 2 ^ 23) * 2 ^ (m / 2 ^ 23 - 1) := by
  rw [mag, expField_pack neg h, fracField_pack neg h]

theorem lt_of_le_infMag {m : Nat} (h : m ≤ infMag) : m < 2 ^ 31 := by
  unfold infMag at h
  omega

/-- A word packed from at most the pattern of infinity is no NaN. -/
theorem isNaN_pack (neg : Bool) {m : Nat} (h : m ≤ infMag) : isNaN (pack neg m) = false := by
  have hlt := lt_of_le_infMag h
  simp only [isNaN, expField_pack neg hlt, fracField_pack neg hlt]
  unfold infMag at h
  simp
  omega

@[simp] theorem isNaN_canonNaN : isNaN canonNaN = true := by decide

/-- An infinity is no NaN. -/
theorem isNaN_of_isInf {w : Word} (h : isInf w = true) : isNaN w = false := by
  simp only [isInf, Bool.and_eq_true, beq_iff_eq] at h
  simp [isNaN, h.2]

/-- `fadd` is NaN for a NaN operand. -/
theorem fadd_of_isNaN {a b : Word} (h : isNaN a = true ∨ isNaN b = true) : fadd a b = canonNaN := by
  rcases h with h | h <;> simp [fadd, h]

/-- `fmul` is NaN for a NaN operand. -/
theorem fmul_of_isNaN {a b : Word} (h : isNaN a = true ∨ isNaN b = true) : fmul a b = canonNaN := by
  rcases h with h | h <;> simp [fmul, h]

/-- `fdiv` is NaN for a NaN operand. -/
theorem fdiv_of_isNaN {a b : Word} (h : isNaN a = true ∨ isNaN b = true) : fdiv a b = canonNaN := by
  rcases h with h | h <;> simp [fdiv, h]

/-- `fsub` is NaN for a NaN operand. -/
theorem fsub_of_isNaN {a b : Word} (h : isNaN a = true ∨ isNaN b = true) : fsub a b = canonNaN := by
  rcases h with h | h
  · exact fadd_of_isNaN (.inl h)
  · exact fadd_of_isNaN (.inr (by simp [fneg, h]))

/-- A sum is the canonical NaN or no NaN. -/
theorem fadd_nan (a b : Word) : fadd a b = canonNaN ∨ isNaN (fadd a b) = false := by
  unfold fadd
  split
  · exact .inl rfl
  next h =>
    simp only [Bool.or_eq_true, not_or, Bool.not_eq_true] at h
    split
    · split
      · exact .inl rfl
      · exact .inr h.1
    · split
      · exact .inr h.2
      · split
        · exact .inr (isNaN_pack _ (Nat.zero_le _))
        · exact .inr (isNaN_pack _ (roundMag_le_infMag _ _))

/-- A difference is the canonical NaN or no NaN. -/
theorem fsub_nan (a b : Word) : fsub a b = canonNaN ∨ isNaN (fsub a b) = false := fadd_nan a (fneg b)

/-- A product is the canonical NaN or no NaN. -/
theorem fmul_nan (a b : Word) : fmul a b = canonNaN ∨ isNaN (fmul a b) = false := by
  unfold fmul
  split
  · exact .inl rfl
  · split
    · split
      · exact .inl rfl
      · exact .inr (isNaN_pack _ (le_refl _))
    · exact .inr (isNaN_pack _ (roundMag_le_infMag _ _))

/-- A quotient is the canonical NaN or no NaN. -/
theorem fdiv_nan (a b : Word) : fdiv a b = canonNaN ∨ isNaN (fdiv a b) = false := by
  unfold fdiv
  split
  · exact .inl rfl
  · split
    · split
      · exact .inl rfl
      · exact .inr (isNaN_pack _ (le_refl _))
    · split
      · exact .inr (isNaN_pack _ (Nat.zero_le _))
      · split
        · split
          · exact .inl rfl
          · exact .inr (isNaN_pack _ (le_refl _))
        · exact .inr (isNaN_pack _ (roundMag_le_infMag _ _))

/-- A square root is the canonical NaN or no NaN. -/
theorem fsqrt_nan (a : Word) : fsqrt a = canonNaN ∨ isNaN (fsqrt a) = false := by
  unfold fsqrt
  split
  · exact .inl rfl
  next h =>
    simp only [Bool.not_eq_true] at h
    split
    · exact .inr h
    · split
      · exact .inl rfl
      · split
        · exact .inr h
        · exact .inr (isNaN_pack _ (roundMag_le_infMag _ _))

end Sys2Proof.Machine
end

