-- ==== Sys2Proof/Laws/Memory.lean ====
section
/-!
SUPPORT. The private memories: what a read gives after a write, and that every memory operation keeps the
canonical form.
-/
namespace Sys2Proof.Machine

/-- Below the first index that may be listed, a canonical memory reads `0x00000000`. -/
theorem memRead_below {size lo : Nat} {m : Memory} {i : Nat} (h : Memory.wfFrom size lo m = true)
    (hi : i < lo) : memRead m i = 0#32 := by
  induction m generalizing lo with
  | nil => rfl
  | cons e rest ih =>
    obtain ⟨a, u⟩ := e
    simp only [Memory.wfFrom, Bool.and_eq_true, decide_eq_true_eq] at h
    have ha : a ≠ i := by omega
    simp only [memRead, ha, if_false]
    exact ih h.2 (by omega)

/-- Canonical from a bound is canonical from a lower one. -/
theorem wfFrom_mono {size lo lo' : Nat} {m : Memory} (h : Memory.wfFrom size lo m = true)
    (hlo : lo' ≤ lo) : Memory.wfFrom size lo' m = true := by
  cases m with
  | nil => rfl
  | cons e rest =>
    obtain ⟨a, u⟩ := e
    simp only [Memory.wfFrom, Bool.and_eq_true, decide_eq_true_eq] at h ⊢
    exact ⟨⟨⟨by omega, h.1.1.2⟩, h.1.2⟩, h.2⟩

/-- A write in range keeps the canonical form, from any bound at or below the index written. -/
theorem wfFrom_memWrite {size lo : Nat} {m : Memory} {i : Nat} {v : Word}
    (h : Memory.wfFrom size lo m = true) (hlo : lo ≤ i) (hi : i < size) :
    Memory.wfFrom size lo (memWrite m i v) = true := by
  induction m generalizing lo with
  | nil =>
    by_cases hv : v = 0#32 <;> simp [memWrite, hv, Memory.wfFrom, hlo, hi]
  | cons e rest ih =>
    obtain ⟨a, u⟩ := e
    have h0 := h
    simp only [Memory.wfFrom, Bool.and_eq_true, decide_eq_true_eq] at h
    obtain ⟨⟨⟨h1, h2⟩, h3⟩, h4⟩ := h
    unfold memWrite
    by_cases hia : i < a
    · by_cases hv : v = 0#32
      · simpa [hia, hv] using h0
      · simp only [hia, hv, if_true, if_false, Memory.wfFrom, Bool.and_eq_true, decide_eq_true_eq]
        exact ⟨⟨⟨hlo, hi⟩, hv⟩, ⟨⟨by omega, h2⟩, h3⟩, h4⟩
    · by_cases he : i = a
      · subst he
        by_cases hv : v = 0#32
        · simpa [hv] using wfFrom_mono h4 (by omega)
        · simp [hv, Memory.wfFrom, hlo, hi, h4]
      · simp only [hia, he, if_false, Memory.wfFrom, Bool.and_eq_true, decide_eq_true_eq]
        exact ⟨⟨⟨h1, h2⟩, h3⟩, ih h4 (by omega)⟩

/-- `MemWrite` keeps the canonical form. -/
theorem memWrite_wf {size : Nat} {m : Memory} {i : Nat} {v : Word} (h : Memory.wf size m = true)
    (hi : i < size) : Memory.wf size (memWrite m i v) = true :=
  wfFrom_memWrite h (Nat.zero_le i) hi

/-- A cleared memory has the canonical form. -/
@[simp] theorem memClear_wf (size : Nat) : Memory.wf size memClear = true := rfl

/-- Every entry of a cleared memory reads `0x00000000`. -/
@[simp] theorem memRead_memClear (i : Nat) : memRead memClear i = 0#32 := rfl

/-- What a read gives after a write, in a canonical memory. -/
theorem memRead_memWrite_from {size lo : Nat} {m : Memory} {i j : Nat} {v : Word}
    (h : Memory.wfFrom size lo m = true) :
    memRead (memWrite m i v) j = if j = i then v else memRead m j := by
  induction m generalizing lo with
  | nil =>
    by_cases hv : v = 0#32 <;> by_cases hj : j = i
    · simp [memWrite, memRead, hv, hj]
    · simp [memWrite, memRead, hv, hj]
    · simp [memWrite, memRead, hv, hj]
    · simp [memWrite, memRead, hv, hj, Ne.symm hj]
  | cons e rest ih =>
    obtain ⟨a, u⟩ := e
    simp only [Memory.wfFrom, Bool.and_eq_true, decide_eq_true_eq] at h
    obtain ⟨⟨⟨h1, h2⟩, h3⟩, h4⟩ := h
    unfold memWrite
    by_cases hia : i < a
    · have hai : a ≠ i := by omega
      have hrest : memRead rest i = 0#32 := memRead_below h4 (by omega)
      by_cases hv : v = 0#32
      · by_cases hj : j = i
        · subst hj
          simp [hia, hv, memRead, hai, hrest]
        · simp [hia, hv, hj]
      · by_cases hj : j = i
        · simp [hia, hv, hj, memRead]
        · simp [hia, hv, hj, memRead, Ne.symm hj]
    · by_cases he : i = a
      · subst he
        have hrest : memRead rest i = 0#32 := memRead_below h4 (by omega)
        by_cases hv : v = 0#32 <;> by_cases hj : j = i
        · simp [hv, hj, hrest]
        · simp [hv, hj, memRead, Ne.symm hj]
        · simp [hv, hj, memRead]
        · simp [hv, hj, memRead, Ne.symm hj]
      · by_cases hj : j = i
        · subst hj
          simp [hia, he, memRead, Ne.symm he, ih h4]
        · by_cases haj : a = j
          · subst haj
            simp [hia, he, memRead, hj]
          · simp [hia, he, memRead, haj, hj, ih h4]

/-- Reading the entry just written gives the word written (R52). -/
theorem memRead_memWrite_same {size : Nat} {m : Memory} {i : Nat} {v : Word}
    (h : Memory.wf size m = true) : memRead (memWrite m i v) i = v := by
  simp [memRead_memWrite_from h]

/-- Every other entry reads as before (R52). -/
theorem memRead_memWrite_other {size : Nat} {m : Memory} {i j : Nat} {v : Word}
    (h : Memory.wf size m = true) (hj : j ≠ i) : memRead (memWrite m i v) j = memRead m j := by
  simp [memRead_memWrite_from h, hj]

end Sys2Proof.Machine
end

