-- ==== Sys2Proof/Laws/State.lean ====
section
/-!
SUPPORT. One lemma per field and update of `State`, the registers' read after write, and the register map.
-/
namespace Sys2Proof.Machine

@[simp] theorem State.withRegs_regs (s : State) (x : Regs) : (s.withRegs x).regs = x := rfl
@[simp] theorem State.withRegs_hil (s : State) (x : Regs) : (s.withRegs x).hil = s.hil := rfl
@[simp] theorem State.withRegs_cho (s : State) (x : Regs) : (s.withRegs x).cho = s.cho := rfl
@[simp] theorem State.withRegs_wah (s : State) (x : Regs) : (s.withRegs x).wah = s.wah := rfl
@[simp] theorem State.withRegs_oct (s : State) (x : Regs) : (s.withRegs x).oct = s.oct := rfl
@[simp] theorem State.withRegs_hyb (s : State) (x : Regs) : (s.withRegs x).hyb = s.hyb := rfl
@[simp] theorem State.withRegs_host (s : State) (x : Regs) : (s.withRegs x).host = s.host := rfl

@[simp] theorem State.withHil_regs (s : State) (x : HilState) : (s.withHil x).regs = s.regs := rfl
@[simp] theorem State.withHil_hil (s : State) (x : HilState) : (s.withHil x).hil = x := rfl
@[simp] theorem State.withHil_cho (s : State) (x : HilState) : (s.withHil x).cho = s.cho := rfl
@[simp] theorem State.withHil_wah (s : State) (x : HilState) : (s.withHil x).wah = s.wah := rfl
@[simp] theorem State.withHil_oct (s : State) (x : HilState) : (s.withHil x).oct = s.oct := rfl
@[simp] theorem State.withHil_hyb (s : State) (x : HilState) : (s.withHil x).hyb = s.hyb := rfl
@[simp] theorem State.withHil_host (s : State) (x : HilState) : (s.withHil x).host = s.host := rfl

@[simp] theorem State.withCho_regs (s : State) (x : ChoState) : (s.withCho x).regs = s.regs := rfl
@[simp] theorem State.withCho_hil (s : State) (x : ChoState) : (s.withCho x).hil = s.hil := rfl
@[simp] theorem State.withCho_cho (s : State) (x : ChoState) : (s.withCho x).cho = x := rfl
@[simp] theorem State.withCho_wah (s : State) (x : ChoState) : (s.withCho x).wah = s.wah := rfl
@[simp] theorem State.withCho_oct (s : State) (x : ChoState) : (s.withCho x).oct = s.oct := rfl
@[simp] theorem State.withCho_hyb (s : State) (x : ChoState) : (s.withCho x).hyb = s.hyb := rfl
@[simp] theorem State.withCho_host (s : State) (x : ChoState) : (s.withCho x).host = s.host := rfl

@[simp] theorem State.withWah_regs (s : State) (x : WahState) : (s.withWah x).regs = s.regs := rfl
@[simp] theorem State.withWah_hil (s : State) (x : WahState) : (s.withWah x).hil = s.hil := rfl
@[simp] theorem State.withWah_cho (s : State) (x : WahState) : (s.withWah x).cho = s.cho := rfl
@[simp] theorem State.withWah_wah (s : State) (x : WahState) : (s.withWah x).wah = x := rfl
@[simp] theorem State.withWah_oct (s : State) (x : WahState) : (s.withWah x).oct = s.oct := rfl
@[simp] theorem State.withWah_hyb (s : State) (x : WahState) : (s.withWah x).hyb = s.hyb := rfl
@[simp] theorem State.withWah_host (s : State) (x : WahState) : (s.withWah x).host = s.host := rfl

@[simp] theorem State.withOct_regs (s : State) (x : OctState) : (s.withOct x).regs = s.regs := rfl
@[simp] theorem State.withOct_hil (s : State) (x : OctState) : (s.withOct x).hil = s.hil := rfl
@[simp] theorem State.withOct_cho (s : State) (x : OctState) : (s.withOct x).cho = s.cho := rfl
@[simp] theorem State.withOct_wah (s : State) (x : OctState) : (s.withOct x).wah = s.wah := rfl
@[simp] theorem State.withOct_oct (s : State) (x : OctState) : (s.withOct x).oct = x := rfl
@[simp] theorem State.withOct_hyb (s : State) (x : OctState) : (s.withOct x).hyb = s.hyb := rfl
@[simp] theorem State.withOct_host (s : State) (x : OctState) : (s.withOct x).host = s.host := rfl

@[simp] theorem State.withHyb_regs (s : State) (x : HybState) : (s.withHyb x).regs = s.regs := rfl
@[simp] theorem State.withHyb_hil (s : State) (x : HybState) : (s.withHyb x).hil = s.hil := rfl
@[simp] theorem State.withHyb_cho (s : State) (x : HybState) : (s.withHyb x).cho = s.cho := rfl
@[simp] theorem State.withHyb_wah (s : State) (x : HybState) : (s.withHyb x).wah = s.wah := rfl
@[simp] theorem State.withHyb_oct (s : State) (x : HybState) : (s.withHyb x).oct = s.oct := rfl
@[simp] theorem State.withHyb_hyb (s : State) (x : HybState) : (s.withHyb x).hyb = x := rfl
@[simp] theorem State.withHyb_host (s : State) (x : HybState) : (s.withHyb x).host = s.host := rfl

@[simp] theorem State.withHost_regs (s : State) (x : HostSide) : (s.withHost x).regs = s.regs := rfl
@[simp] theorem State.withHost_hil (s : State) (x : HostSide) : (s.withHost x).hil = s.hil := rfl
@[simp] theorem State.withHost_cho (s : State) (x : HostSide) : (s.withHost x).cho = s.cho := rfl
@[simp] theorem State.withHost_wah (s : State) (x : HostSide) : (s.withHost x).wah = s.wah := rfl
@[simp] theorem State.withHost_oct (s : State) (x : HostSide) : (s.withHost x).oct = s.oct := rfl
@[simp] theorem State.withHost_hyb (s : State) (x : HostSide) : (s.withHost x).hyb = s.hyb := rfl
@[simp] theorem State.withHost_host (s : State) (x : HostSide) : (s.withHost x).host = x := rfl

@[simp] theorem State.reset_regs : State.reset.regs = Regs.reset := rfl
@[simp] theorem State.reset_hil : State.reset.hil = HilState.reset := rfl
@[simp] theorem State.reset_cho : State.reset.cho = ChoState.reset := rfl
@[simp] theorem State.reset_wah : State.reset.wah = WahState.reset := rfl
@[simp] theorem State.reset_oct : State.reset.oct = OctState.reset := rfl
@[simp] theorem State.reset_hyb : State.reset.hyb = HybState.reset := rfl
@[simp] theorem State.reset_host : State.reset.host = ⟨[], []⟩ := rfl

/-- Reading a register after a write gives the value written there and the old value elsewhere. -/
theorem getReg_setReg (x : Regs) (r q : Reg) (v : Word) :
    getReg (setReg x r v) q = if q = r then v else getReg x q := by
  cases r <;> cases q <;> rfl

@[simp] theorem getReg_setReg_same (x : Regs) (r : Reg) (v : Word) :
    getReg (setReg x r v) r = v := by
  simp [getReg_setReg]

theorem getReg_setReg_other (x : Regs) {r q : Reg} (v : Word) (h : q ≠ r) :
    getReg (setReg x r v) q = getReg x q := by
  simp [getReg_setReg, h]

/-- Register contents are equal when every register reads alike. -/
theorem regs_ext {x y : Regs} (h : ∀ r, getReg x r = getReg y r) : x = y := by
  cases x
  cases y
  simp only [Regs.mk.injEq]
  exact ⟨h .fs, h .dt, h .hilIn, h .hilAm, h .hilFm, h .choAm, h .choFm, h .choDelay, h .choDetune,
    h .choOut, h .wahAm, h .wahFm, h .wahFc, h .wahQ, h .wahOut, h .octAm, h .octFm, h .octCtrl,
    h .octOut, h .hybAm, h .hybFm1, h .hybFm2, h .hybMix, h .hybOut⟩

@[simp] theorem getReg_reset (r : Reg) : getReg Regs.reset r = 0#32 := by
  cases r <;> rfl

/-- The register map finds each register by its number. -/
@[simp] theorem regOfNumber_regNumber (r : Reg) : regOfNumber (regNumber r) = some r := by
  cases r <;> decide

/-- Every register stands in the map's list. -/
theorem mem_allRegs (r : Reg) : r ∈ allRegs := by
  cases r <;> decide

/-- A register found by a number has that number. -/
theorem regNumber_of_regOfNumber {n : RegNum} {r : Reg} (h : regOfNumber n = some r) :
    regNumber r = n := by
  simpa using List.find?_some h

/-- No register that holds a value has the number of `CMD`. -/
theorem regNumber_ne_cmd (r : Reg) : regNumber r ≠ cmdNumber := by
  cases r <;> decide

end Sys2Proof.Machine
end

