-- ==== Sys2Proof/Laws/Ops.lean ====
section
/-!
SUPPORT. For each shared operation, once, all it can do: `clamp`, the wraps, the delay line, the ring index,
the unwrap loops, the
host's register access, and one step of the machine.
-/
namespace Sys2Proof.Machine

open Config

/-- `clamp` answers a bound, or the value itself where it is a number between the bounds (R95). -/
theorem clamp_cases (x lo hi : Word) :
    (isNaN x = true ∧ clamp x lo hi = hi) ∨
    (isNaN x = false ∧ flt x lo = true ∧ clamp x lo hi = lo) ∨
    (isNaN x = false ∧ flt x lo = false ∧ fgt x hi = true ∧ clamp x lo hi = hi) ∨
    (isNaN x = false ∧ flt x lo = false ∧ fgt x hi = false ∧ clamp x lo hi = x) := by
  cases hn : isNaN x <;> cases hl : flt x lo <;> cases hh : fgt x hi <;> simp [clamp, hn, hl, hh]

/-- The result of `clamp` is a number when the upper and the lower bound are. -/
theorem isNaN_clamp {x lo hi : Word} (hlo : isNaN lo = false) (hhi : isNaN hi = false) :
    isNaN (clamp x lo hi) = false := by
  rcases clamp_cases x lo hi with ⟨_, h⟩ | ⟨_, _, h⟩ | ⟨_, _, _, h⟩ | ⟨hn, _, _, h⟩ <;> rw [h] <;>
    assumption

/-- A remainder that is not negative is kept, or becomes `+0.0` from `m` on (R100, R110). -/
theorem foldIntoRange_of_not_neg {N : NumConfig} {r m : Word} (h : flt r posZero = false) :
    foldIntoRange N r m = if fge r m then posZero else r := by
  simp [foldIntoRange, h]

/-- A negative remainder has `m` added once, and becomes `+0.0` where that reaches `m` (R100, R110). -/
theorem foldIntoRange_of_neg {N : NumConfig} {r m : Word} (h : flt r posZero = true) :
    foldIntoRange N r m = if fge (N.fadd r m) m then posZero else N.fadd r m := by
  simp [foldIntoRange, h]

/-- `wrap2pi` of a finite phase is its remainder folded into the range (R100). -/
theorem wrap2pi_of_finite {N : NumConfig} {p : Word} (h : isFinite p = true) :
    wrap2pi N p = foldIntoRange N (fmod p fTwoPi) fTwoPi := by
  simp [wrap2pi, h]

/-- `wrap2pi` of any other phase is the canonical NaN (R100). -/
theorem wrap2pi_of_not_finite {N : NumConfig} {p : Word} (h : isFinite p = false) :
    wrap2pi N p = canonNaN := by
  simp [wrap2pi, h]

/-- A read at a finite position weighs two neighbouring entries (R110). -/
theorem fdlRead_of_finite {N : NumConfig} {m : Memory} {wp : Nat} {d : Word}
    (h : isFinite (N.fsub (floatOfInt wp) d) = true) :
    fdlRead N m wp d =
      interpolate N (memRead m (fdlIndex N wp d)) (memRead m ((fdlIndex N wp d + 1) % choCap))
        (fdlFrac N wp d) := by
  simp [fdlRead, h]

/-- A read at any other position is the canonical NaN (R110). -/
theorem fdlRead_of_not_finite {N : NumConfig} {m : Memory} {wp : Nat} {d : Word}
    (h : isFinite (N.fsub (floatOfInt wp) d) = false) : fdlRead N m wp d = canonNaN := by
  simp [fdlRead, h]

@[simp] theorem ringNext_val {n : Nat} (i : Fin n) : (ringNext i).val = (i.val + 1) % n := rfl

/-- Where the first unwrap loop ends, its value is not above `PI` (R122). -/
theorem unwrapDown_end {N : NumConfig} {fuel : Nat} {d e : Word} (h : unwrapDown N fuel d = some e) :
    fgt e fPi = false := by
  induction fuel generalizing d with
  | zero => simp [unwrapDown] at h
  | succ fuel ih =>
    unfold unwrapDown at h
    split at h
    · exact ih h
    next hd =>
      obtain rfl := Option.some.inj h
      simpa using hd

/-- Where the second unwrap loop ends, its value is not at or below `fneg(PI)` (R122). -/
theorem unwrapUp_end {N : NumConfig} {fuel : Nat} {d e : Word} (h : unwrapUp N fuel d = some e) :
    fle e (fneg fPi) = false := by
  induction fuel generalizing d with
  | zero => simp [unwrapUp] at h
  | succ fuel ih =>
    unfold unwrapUp at h
    split at h
    · exact ih h
    next hd =>
      obtain rfl := Option.some.inj h
      simpa using hd

/-- A loop test that fails at once leaves the value alone, at any fuel. -/
theorem unwrapDown_stop {N : NumConfig} {d : Word} (fuel : Nat) (h : fgt d fPi = false) :
    unwrapDown N (fuel + 1) d = some d := by
  simp [unwrapDown, h]

/-- A loop test that fails at once leaves the value alone, at any fuel. -/
theorem unwrapUp_stop {N : NumConfig} {d : Word} (fuel : Nat) (h : fle d (fneg fPi) = false) :
    unwrapUp N (fuel + 1) d = some d := by
  simp [unwrapUp, h]

/-- One round of the first loop. -/
theorem unwrapDown_round {N : NumConfig} {d : Word} (fuel : Nat) (h : fgt d fPi = true) :
    unwrapDown N (fuel + 1) d = unwrapDown N fuel (N.fsub d fTwoPi) := by
  simp [unwrapDown, h]

/-- One round of the second loop. -/
theorem unwrapUp_round {N : NumConfig} {d : Word} (fuel : Nat) (h : fle d (fneg fPi) = true) :
    unwrapUp N (fuel + 1) d = unwrapUp N fuel (N.fadd d fTwoPi) := by
  simp [unwrapUp, h]

/-- The fuel is at least two rounds, in the form the round lemmas take. -/
theorem unwrapFuel_eq : ∃ k, unwrapFuel = k + 1 + 1 := ⟨2 ^ 25 - 2, by decide +kernel⟩

/-- A host write that is accepted stores the word in one read-write register (R201). -/
theorem hostWrite_ok {x y : Regs} {n : RegNum} {v : Word} (h : hostWrite x n v = .ok y) :
    ∃ r, regNumber r = n ∧ isReadOnly r = false ∧ y = setReg x r v := by
  unfold hostWrite at h
  split at h
  · cases h
  next r hr =>
    split at h
    · cases h
    next hro =>
      cases h
      exact ⟨r, regNumber_of_regOfNumber hr, by simpa using hro, rfl⟩

/-- A host read that is accepted returns the register's word (R202). -/
theorem hostRead_ok {x : Regs} {n : RegNum} {v : Word} (h : hostRead x n = .ok v) :
    ∃ r, regNumber r = n ∧ v = getReg x r := by
  unfold hostRead at h
  split at h
  · cases h
  · split at h
    · cases h
    next r hr =>
      cases h
      exact ⟨r, regNumber_of_regOfNumber hr, rfl⟩

/-- `execute` answers a next state only for one of the eleven commands, and then `exec`'s (R204). -/
theorem execute_next {w : Word} {s t : State} (h : execute w s = .next t) :
    ∃ i, decode w = .ok i ∧ exec i s = .next t := by
  unfold execute at h
  split at h
  next i hi => exact ⟨i, hi, h⟩
  · cases h

/-- What one transaction can do where it answers a next state (R200 to R202, R230). -/
theorem perform_next {tr : Transaction} {s t : State} (h : perform tr s = .next t) :
    (∃ w i, tr = .regWrite cmdNumber w ∧ decode w = .ok i ∧ exec i s = .next t) ∨
    (∃ r v, tr = .regWrite (regNumber r) v ∧ isReadOnly r = false ∧
      t = s.withRegs (setReg s.regs r v)) ∨
    (∃ r, tr = .regRead (regNumber r) ∧ t = s.withHost (hostReceives s.host (getReg s.regs r))) ∨
    (tr = .reset ∧ t = State.reset.withHost s.host) := by
  cases tr with
  | regWrite n v =>
    simp only [perform, performWrite] at h
    split at h
    next hn =>
      obtain ⟨i, hi, he⟩ := execute_next h
      exact .inl ⟨v, i, by rw [hn], hi, he⟩
    · split at h
      next y hy =>
        obtain ⟨r, hr, hro, rfl⟩ := hostWrite_ok hy
        cases h
        exact .inr (.inl ⟨r, v, by rw [hr], hro, rfl⟩)
      · cases h
  | regRead n =>
    simp only [perform, performRead] at h
    split at h
    next v hv =>
      obtain ⟨r, hr, rfl⟩ := hostRead_ok hv
      cases h
      exact .inr (.inr (.inl ⟨r, by rw [hr], rfl⟩))
    · cases h
  | reset =>
    cases h
    exact .inr (.inr (.inr ⟨rfl, rfl⟩))

/-- One step is the host's next transaction, or none where nothing is pending (R200). -/
theorem step_cases (s : State) :
    (s.host.pending = [] ∧ step s = .next s) ∨
    ∃ tr rest, s.host.pending = tr :: rest ∧
      step s = perform tr (s.withHost (hostTakes s.host rest)) := by
  unfold step stepHost
  cases h : s.host.pending with
  | nil => exact .inl ⟨rfl, rfl⟩
  | cons tr rest => exact .inr ⟨tr, rest, rfl, rfl⟩

/-- `HIL.TICK` answers a next state exactly where both unwrap loops end (R122). -/
theorem execHilTick_next {s t : State} (h : execHilTick s = .next t) :
    ∃ d, hilTickDelta defaultParams s = some d ∧ t = hilTickNext defaultParams s d := by
  unfold execHilTick hilTickWith at h
  split at h
  · cases h
  next d hd =>
    cases h
    exact ⟨d, hd, rfl⟩

/-- `withFetchWord` changes nothing but the host's pending list. -/
theorem withFetchWord_pending (s : State) (nbits w : Nat) :
    (s.withFetchWord nbits w).host.pending = issueWord nbits w :: s.host.pending := rfl

end Sys2Proof.Machine
end

