-- ==== Sys2Proof/Laws/PerInstr.lean ====
section
/-!
SUPPORT. One lemma per command: it is well formed and its word decodes to it (R72, R73).
-/
namespace Sys2Proof.Laws

/-- A command is well formed and its word decodes to it. -/
def CommandWords.Statement (i : Instr) : Prop := i.wellFormed = true ∧ decode (encode i) = .ok i

theorem CommandWords.nop : CommandWords.Statement .nop := ⟨rfl, rfl⟩
theorem CommandWords.hilTick : CommandWords.Statement .hilTick := ⟨rfl, rfl⟩
theorem CommandWords.choTick : CommandWords.Statement .choTick := ⟨rfl, rfl⟩
theorem CommandWords.wahTick : CommandWords.Statement .wahTick := ⟨rfl, rfl⟩
theorem CommandWords.octTick : CommandWords.Statement .octTick := ⟨rfl, rfl⟩
theorem CommandWords.hybTick : CommandWords.Statement .hybTick := ⟨rfl, rfl⟩
theorem CommandWords.hilInit : CommandWords.Statement .hilInit := ⟨rfl, rfl⟩
theorem CommandWords.choInit : CommandWords.Statement .choInit := ⟨rfl, rfl⟩
theorem CommandWords.wahInit : CommandWords.Statement .wahInit := ⟨rfl, rfl⟩
theorem CommandWords.octInit : CommandWords.Statement .octInit := ⟨rfl, rfl⟩
theorem CommandWords.hybInit : CommandWords.Statement .hybInit := ⟨rfl, rfl⟩

end Sys2Proof.Laws
end

