-- ==== Sys2Proof/Tests/Slice0.lean ====
section
/-!
SUPPORT. The model's own tests. Expected words are those of spec/95_test_vectors.md, named by the set they
come from, or written out from the rule named; none is a result of the model. Then one witness per statement
with hypotheses: a concrete state and operands that meet them.
-/
namespace Sys2Proof.Tests

open Sys2Proof.Machine Sys2Proof.Config

set_option Elab.async false

/-! Helpers. -/

/-- The next state of an outcome. -/
def nextOf (o : Host.Outcome State Fault Refusal) : Option State :=
  match o with
  | .next t => some t
  | .fault _ => none
  | .refused _ => none

/-- The refusal of an outcome. -/
def refusalOf (o : Host.Outcome State Fault Refusal) : Option Refusal :=
  match o with
  | .next _ => none
  | .fault _ => none
  | .refused r => some r

theorem exists_next {o : Host.Outcome State Fault Refusal} (h : (nextOf o).isSome = true) :
    ∃ t, o = .next t := by
  cases o with
  | next t => exact ⟨t, rfl⟩
  | fault r => cases h
  | refused r => cases h

/-- Registers given their words one by one, over the reset ones. -/
def regsOf (l : List (Reg × Word)) : Regs := l.foldl (fun x p => setReg x p.1 p.2) Regs.reset

/-- The reset state with some registers written, `FS` and `DT` those of `RATE 44100.0` among them. -/
def at44100 (l : List (Reg × Word)) : State :=
  State.reset.withRegs (regsOf ((.fs, 0x472C4400#32) :: (.dt, 0x37BE37C6#32) :: l))

/-- The registers `rs` after the command `i` at `s`. -/
def readAfter (i : Instr) (s : State) (rs : List Reg) : Option (List Word) :=
  (nextOf (exec i s)).map (fun t => rs.map (getReg t.regs))

/-- A memory all of whose first `n` entries hold `v`. -/
def filled (n : Nat) (v : Word) : Memory := (List.range n).map (fun i => (i, v))

/-- The reset state with transactions pending. -/
def asked (l : List Transaction) : State := State.reset.withHost ⟨l, []⟩

/-- The state of every unit with a command's worth of work in it, to compare units by. -/
def busy : State :=
  (((at44100 [(.hilIn, fOne), (.choAm, fOne), (.choFm, f1000), (.wahAm, fOne), (.wahFm, f1000),
    (.octAm, fOne), (.octFm, f1000), (.hybAm, fOne), (.hybFm1, f1000)]).withOct ⟨fOne⟩).withHyb
      ⟨fOne, fTwo⟩).withWah ⟨fOne, fTwo, fOne, fTwo, fOne, fTwo⟩

/-! WellFormed: one ill-formed term for each check. -/

theorem test_zero_field_must_be_clear : (CommandFields.mk 1 1 0).zeroOk = false ∧
    (CommandFields.mk 1 1 0).wellFormed = false := by decide

theorem test_func_three_is_reserved : (CommandFields.mk 0 3 0).funcOk = false ∧
    (CommandFields.mk 0 3 0).wellFormed = false := by decide

theorem test_unit_five_is_reserved : (CommandFields.mk 0 1 5).unitOk = false ∧
    (CommandFields.mk 0 2 5).wellFormed = false := by decide

theorem test_nop_has_unit_zero : (CommandFields.mk 0 0 1).unitOk = false ∧
    (CommandFields.mk 0 0 1).wellFormed = false := by decide

theorem test_every_command_is_well_formed : (Instr.nop).wellFormed = true ∧
    (Instr.hybTick).wellFormed = true ∧ (Instr.hybInit).wellFormed = true := by decide

/-! Decode: the words of R73, written out as ZERO, FUNC, UNIT. -/

theorem test_decode_nop :
    decode (0b000000000000000000000000#24 ++ 0b0000#4 ++ 0b0000#4) = .ok .nop := by decide
theorem test_decode_hil_tick :
    decode (0b000000000000000000000000#24 ++ 0b0001#4 ++ 0b0000#4) = .ok .hilTick := by decide
theorem test_decode_cho_tick :
    decode (0b000000000000000000000000#24 ++ 0b0001#4 ++ 0b0001#4) = .ok .choTick := by decide
theorem test_decode_wah_tick :
    decode (0b000000000000000000000000#24 ++ 0b0001#4 ++ 0b0010#4) = .ok .wahTick := by decide
theorem test_decode_oct_tick :
    decode (0b000000000000000000000000#24 ++ 0b0001#4 ++ 0b0011#4) = .ok .octTick := by decide
theorem test_decode_hyb_tick :
    decode (0b000000000000000000000000#24 ++ 0b0001#4 ++ 0b0100#4) = .ok .hybTick := by decide
theorem test_decode_hil_init :
    decode (0b000000000000000000000000#24 ++ 0b0010#4 ++ 0b0000#4) = .ok .hilInit := by decide
theorem test_decode_cho_init :
    decode (0b000000000000000000000000#24 ++ 0b0010#4 ++ 0b0001#4) = .ok .choInit := by decide
theorem test_decode_wah_init :
    decode (0b000000000000000000000000#24 ++ 0b0010#4 ++ 0b0010#4) = .ok .wahInit := by decide
theorem test_decode_oct_init :
    decode (0b000000000000000000000000#24 ++ 0b0010#4 ++ 0b0011#4) = .ok .octInit := by decide
theorem test_decode_hyb_init :
    decode (0b000000000000000000000000#24 ++ 0b0010#4 ++ 0b0100#4) = .ok .hybInit := by decide

/-- The reserved words of T-HOST-6. -/
theorem test_decode_reserved :
    [0x00000015#32, 0x00000030#32, 0x00000001#32, 0x00000110#32, 0xFFFFFFFF#32].map decode =
      [.error .unitReserved, .error .funcReserved, .error .unitReserved, .error .zeroFieldSet,
       .error .zeroFieldSet] := by decide

/-- The opcode table's numbering: bit 0 is the least significant bit of the word. -/
theorem test_decodeTableWord : decodeTableWord 32 0x24 = some .hybInit ∧
    decodeTableWord 32 0x15 = none := by decide

/-- The word placed by `withFetchWord` is what the very next step runs. -/
theorem test_fetched_word_runs :
    step (busy.withFetchWord 32 0x13) = exec .octTick busy := rfl

/-! Numbers. -/

/-- The arithmetic spot checks of T-NUM-5. -/
theorem test_arithmetic :
    fdiv fOne 0x472C4400#32 = 0x37BE37C6#32 ∧ fdiv fOne f1000 = 0x3A83126F#32 ∧
    fdiv fOne 0x42C80000#32 = 0x3C23D70A#32 ∧ fmul f5 0x3F19999A#32 = 0x40400000#32 ∧
    fmul posZero 0x7F800000#32 = 0x7FC00000#32 ∧ fadd posZero 0x80000000#32 = 0x00000000#32 := by
  decide +kernel

/-- R91: subnormals, the ties at the two ends of the format, and both signs of a zero root. -/
theorem test_rounding_edges :
    fmul 0x00000001#32 0x3F000000#32 = 0x00000000#32 ∧
    fmul 0x00000003#32 0x3F000000#32 = 0x00000002#32 ∧
    fadd 0x7F7FFFFF#32 0x73000000#32 = 0x7F800000#32 ∧
    fadd 0x7F7FFFFF#32 0x72FFFFFF#32 = 0x7F7FFFFF#32 ∧
    fsqrt 0x80000000#32 = 0x80000000#32 ∧ fsqrt 0x40800000#32 = 0x40000000#32 := by
  decide +kernel

/-- T-NUM-1. -/
theorem test_clamp :
    clamp f5 posZero f10 = 0x40A00000#32 ∧ clamp 0xBF800000#32 posZero f10 = 0x00000000#32 ∧
    clamp 0x41300000#32 posZero f10 = 0x41200000#32 ∧
    clamp 0x7FA00001#32 posZero f10 = 0x41200000#32 ∧
    clamp 0x7F800000#32 0xC1200000#32 f10 = 0x41200000#32 ∧
    clamp 0xFF800000#32 0xC1200000#32 f10 = 0xC1200000#32 ∧
    clamp 0x80000000#32 posZero f20000 = 0x80000000#32 := by decide +kernel

/-- T-NUM-2. -/
theorem test_wrap2pi :
    [0x00000000#32, 0x3F800000#32, 0x40C90FDB#32, 0x40E90FDB#32, 0x40E00000#32, 0x42C80000#32,
      0xBF800000#32, 0xC0E00000#32, 0xC0C90FDB#32, 0x80000000#32, 0x80000001#32, 0xB3000000#32,
      0x7F800000#32, 0x7FC00000#32].map (wrap2pi defaultNum) =
    [0x00000000#32, 0x3F800000#32, 0x00000000#32, 0x3F800000#32, 0x3F378128#32, 0x40B8122B#32,
      0x40A90FDB#32, 0x40B21FB6#32, 0x80000000#32, 0x80000000#32, 0x00000000#32, 0x00000000#32,
      0x7FC00000#32, 0x7FC00000#32] := by decide +kernel

/-- T-NUM-3. -/
theorem test_cosr :
    [0x80000000#32, 0x3FC90FDB#32, 0x3FC90FDA#32, 0x40490FDB#32, 0x40C90FDB#32, 0x3DA07C1C#32,
      0x3F800000#32, 0xBF800000#32, 0x40400000#32, 0x40800000#32, 0x42C80000#32, 0xC2C80000#32,
      0x49742400#32, 0x4C64E1C0#32, 0xFF800000#32].map cosrDefault =
    [0x3F800000#32, 0x80000000#32, 0x3BC90F88#32, 0xBF800000#32, 0x3F800000#32, 0x3F7F4E6D#32,
      0x3F0B9A6B#32, 0x3F0A48AD#32, 0xBF7D3AAC#32, 0xBF286605#32, 0x3F5C61C7#32, 0x3F5D2D53#32,
      0x3F6C835E#32, 0x3F800000#32, 0x7FC00000#32] := by decide +kernel

/-- The table spot values of T-NUM-3. -/
theorem test_cosLut :
    [0, 1, 12, 128, 255, 256, 257, 384, 512, 640, 767, 768, 769, 1023].map cosLut =
    [0x3F800000#32, 0x3F7FFEC4#32, 0x3F7F4E6D#32, 0x3F3504F3#32, 0x3BC90F88#32, 0x80000000#32,
      0xBBC90F88#32, 0xBF3504F3#32, 0xBF800000#32, 0xBF3504F3#32, 0xBBC90F88#32, 0x00000000#32,
      0x3BC90F88#32, 0x3F7FFEC4#32] := by decide +kernel

/-- T-NUM-4, `M` = 10.0, 20.0, 30.0, +0.0, … . -/
theorem test_fdlRead :
    (let m : Memory := [(0, 0x41200000#32), (1, 0x41A00000#32), (2, 0x41F00000#32)]
     [0x00000000#32, 0x3E800000#32, 0x3F7FFFFF#32, 0x3F800001#32, 0x3FC00000#32, 0xBF800000#32,
       0x4589CC00#32, 0x4589D000#32, 0x4589D800#32, 0x7F800000#32].map (fdlRead defaultNum m 2) =
     [0x41F00000#32, 0x41DC0000#32, 0x41A00000#32, 0x41A00000#32, 0x41700000#32, 0x00000000#32,
       0x41700000#32, 0x41F00000#32, 0x41A00000#32, 0x7FC00000#32] ∧
     fdlRead defaultNum m 0 0x3F000000#32 = 0x40A00000#32) := by decide +kernel

/-- T-NUM-5, the hyperbolic tangent. -/
theorem test_tanh :
    [0x3F000000#32, 0x3F800000#32, 0x40400000#32, 0xC0400000#32, 0x41100000#32, 0x41180000#32,
      0x7F800000#32, 0x7FC00000#32].map tanhDefault =
    [0x3EEC9A9F#32, 0x3F42F7D6#32, 0x3F7EBBE9#32, 0xBF7EBBE9#32, 0x3F7FFFFF#32, 0x3F800000#32,
      0x3F800000#32, 0x7FC00000#32] := by decide +kernel

/-- T-NUM-5, the arctangent. -/
theorem test_atan2 :
    atan2Default fOne fOne = 0x3F490FDB#32 ∧ atan2Default fOne posZero = 0x3FC90FDB#32 ∧
    atan2Default 0xBF800000#32 posZero = 0xBFC90FDB#32 ∧ atan2Default posZero fOne = 0x00000000#32 ∧
    atan2Default posZero 0xBF800000#32 = 0x40490FDB#32 ∧
    atan2Default 0x80000000#32 0xBF800000#32 = 0xC0490FDB#32 ∧
    atan2Default fOne 0xBF800000#32 = 0x4016CBE4#32 ∧
    atan2Default 0xB2C00000#32 0xBF800000#32 = 0xC0490FDB#32 := by decide +kernel

/-- T-NUM-5, sine and cosine. -/
theorem test_sin_cos :
    sinDefault 0x3A3ABEF7#32 = 0x3A3ABEF6#32 ∧ cosDefault 0x3A3ABEF7#32 = 0x3F7FFFFC#32 ∧
    sinDefault 0x3F20D97C#32 = 0x3F167918#32 ∧ cosDefault 0x3F20D97C#32 = 0x3F4F1BBD#32 := by
  decide +kernel

/-- The constant π agrees with Machin's formula 16·atan(1/5) − 4·atan(1/239) to 2^−630. -/
theorem test_fixPi_is_machins :
    ((16 * atanSmall 1 5 - 4 * atanSmall 1 239 : Nat) : Int) - fixPi ≤ 1024 ∧
    (fixPi : Int) - (16 * atanSmall 1 5 - 4 * atanSmall 1 239 : Nat) ≤ 1024 := by decide +kernel

/-! Memory and the register map. -/

theorem test_reset_memories_are_canonical :
    Memory.wf hilTaps State.reset.hil.buf = true ∧ Memory.wf choCap State.reset.cho.v4.fm = true := by
  decide

theorem test_writing_the_reset_value_unlists :
    memWrite [(2, 5#32), (4, 6#32)] 4 0#32 = [(2, 5#32)] ∧
    memWrite [(2, 5#32)] 1 7#32 = [(1, 7#32), (2, 5#32)] := by decide

/-- The refused transactions of T-HOST-6. -/
theorem test_refused_transactions :
    [asked [.regWrite 0x00#8 0x00000015#32], asked [.regWrite 0x00#8 0xFFFFFFFF#32],
      asked [.regWrite 0x18#8 0#32], asked [.regRead 0x00#8], asked [.regRead 0x03#8],
      asked [.regWrite 0x59#8 0#32]].map (fun s => refusalOf (step s)) =
    [some (.reservedCommand 0x00000015#32), some (.reservedCommand 0xFFFFFFFF#32),
      some (.writeReadOnly 0x18#8), some .readCmd, some (.readUnmapped 0x03#8),
      some (.writeUnmapped 0x59#8)] := by decide

/-- T-HOST-2: a signalling NaN pattern is stored and read back unchanged. -/
theorem test_registers_store_patterns :
    (nextOf (Sys2Proof.core.run 2 (asked [.regWrite 0x10#8 0x7FA00001#32, .regRead 0x10#8]))).map
      (fun t => t.host.results) = some [0x7FA00001#32] := by decide

/-! One tick each. -/

/-- T-HIL-1, tick 0. -/
theorem test_hil_tick_impulse :
    readAfter .hilTick (at44100 [(.hilIn, 0x3F800000#32)]) [.hilAm, .hilFm] =
      some [0x3DBA41BB#32, 0xC62C4400#32] := by decide +kernel

/-- T-HIL-2 with −1.0 in every tick, tick 14: one round of the unwrap loop. -/
theorem test_hil_tick_unwraps :
    readAfter .hilTick ((at44100 [(.hilIn, 0xBF800000#32)]).withHil
      ⟨filled 14 0xBF800000#32, 14, 0x404341E3#32⟩) [.hilAm, .hilFm] =
      some [0x3F800000#32, 0x441F24B1#32] := by decide +kernel

/-- T-CHO-4, tick 0: the five phases and the output. -/
theorem test_cho_tick_detune :
    (nextOf (exec .choTick (at44100 [(.choDetune, 0x3C23D70A#32), (.choAm, 0x3F800000#32),
      (.choFm, 0x447A0000#32)]))).map
      (fun t => [t.cho.v0.ph, t.cho.v1.ph, t.cho.v2.ph, t.cho.v3.ph, t.cho.v4.ph, t.regs.choOut]) =
    some [0x3E0EFA35#32, 0x3E106FB3#32, 0x3E11E531#32, 0x3E135AAF#32, 0x3E14D02D#32,
      0x401E769E#32] := by decide +kernel

/-- T-CHO-2, tick 5: the delays 3 to 7 samples read the entries 3.0, 2.0, 1.0 and two zeros. -/
theorem test_cho_tick_delays :
    (let v : Voice := ⟨[(0, fOne), (1, fTwo), (2, 0x40400000#32), (3, 0x40800000#32), (4, f5)], [],
       5, posZero⟩
     (nextOf (exec .choTick ((State.reset.withRegs (regsOf [(.fs, 0x447A0000#32),
       (.dt, 0x3A83126F#32), (.choDelay, f5), (.choAm, 0x40C00000#32)])).withCho
         ⟨v, v, v, v, v⟩))).map (fun t => (t.regs.choOut, t.cho.v3.wp.val)) =
     some (0x40400000#32, 6)) := by decide +kernel

/-- T-WAH-1, tick 1, from the state the row of tick 0 gives. -/
theorem test_wah_tick_filter :
    (nextOf (exec .wahTick ((at44100 [(.wahFc, f5), (.wahQ, fOne), (.wahAm, fOne),
      (.wahFm, 0x43DC0000#32)]).withWah ⟨0x43DC0000#32, 0#32, 0x3DE09944#32, 0#32, 0x3DE09944#32,
        0x37831252#32⟩))).map (fun t => (t.wah, t.regs.wahOut)) =
    some (⟨0x43DC0000#32, 0x43DC0000#32, 0x3E97937C#32, 0x3DE09944#32, 0x3E97937C#32,
      0x3872731F#32⟩, 0x3F333333#32) := by decide +kernel

/-- Log entry 14: at an infinite `FS` the pseudocode of R161 gives finite coefficients 0, −0, −2, 1. -/
theorem test_wah_infinite_rate :
    wahCoefs defaultNum (regsOf [(.fs, 0x7F800000#32), (.wahFc, f5), (.wahQ, fOne)]) =
      ⟨0x00000000#32, 0x80000000#32, 0xC0000000#32, 0x3F800000#32⟩ := by decide +kernel

/-- T-WAH-2, tick 0: the history and the increment at their clamps. -/
theorem test_wah_tick_clamps :
    (nextOf (exec .wahTick (State.reset.withRegs (regsOf [(.fs, 0x42C80000#32),
      (.dt, 0x3C23D70A#32), (.wahFc, f10), (.wahQ, f0p5), (.wahAm, fTwo), (.wahFm, f20000)])))).map
      (fun t => (t.wah, t.regs.wahOut)) =
    some (⟨f20000, 0#32, 0x447A0000#32, 0#32, 0x45A1F57E#32, 0x3FC90FDB#32⟩, 0x80000000#32) := by
  decide +kernel

/-- T-OCT-2, tick 1. -/
theorem test_oct_tick_plain :
    (nextOf (exec .octTick ((at44100 [(.octCtrl, f0p5), (.octAm, fOne),
      (.octFm, 0x43DC0000#32)]).withOct ⟨0x3DA07C1C#32⟩))).map (fun t => (t.oct.ph, t.regs.octOut)) =
    some (0x3E207C1C#32, 0x3F7CFE73#32) := by decide +kernel

/-- T-OCT-3, `OCT_CTRL` = 0.5, tick 3: the one-sided wrap. -/
theorem test_oct_tick_wraps :
    (nextOf (exec .octTick ((at44100 [(.octCtrl, f0p5), (.octAm, fTwo),
      (.octFm, 0x462C4400#32)]).withOct ⟨0x40BC7EDD#32⟩))).map (fun t => (t.oct.ph, t.regs.octOut)) =
    some (0x3FC90FD8#32, 0x3C490F88#32) := by decide +kernel

/-- T-HYB-2, tick 1000, from the state the row of tick 999 gives. -/
theorem test_hyb_tick_runs :
    (nextOf (exec .hybTick ((at44100 [(.hybMix, fOne), (.hybAm, fTwo), (.hybFm1, f1000),
      (.hybFm2, 0x44FA0000#32)]).withHyb ⟨0x441E13B3#32, 0x4251E96A#32⟩))).map
      (fun t => (t.hyb, t.regs.hybOut)) =
    some (⟨0x441E2B3B#32, 0x425245B8#32⟩, 0xBF5EC6F8#32) := by decide +kernel

/-- T-HYB-3, `HYB_AM` = −infinity: the output saturates. -/
theorem test_hyb_tick_saturates :
    readAfter .hybTick (at44100 [(.hybMix, fOne), (.hybAm, 0xFF800000#32), (.hybFm1, f1000),
      (.hybFm2, 0x44FA0000#32)]) [.hybOut] = some [0xBF800000#32] := by decide +kernel

/-- R206, T-HOST-4: an `INIT` clears its unit and its outputs and keeps the inputs. -/
theorem test_hil_init :
    (nextOf (exec .hilInit ((at44100 [(.hilIn, fOne), (.hilAm, fTwo), (.hilFm, fTwo),
      (.octOut, fTwo)]).withHil ⟨filled 3 fOne, 3, fOne⟩))).map (fun t => (t.hil, t.regs)) =
    some (HilState.reset, (at44100 [(.hilIn, fOne), (.octOut, fTwo)]).regs) := by decide

theorem test_cho_init :
    (nextOf (exec .choInit ((at44100 [(.choAm, fOne), (.choOut, fTwo)]).withCho
      ⟨⟨filled 3 fOne, [], 3, fOne⟩, Voice.reset, Voice.reset, Voice.reset,
        ⟨[], filled 2 fOne, 2, fTwo⟩⟩))).map (fun t => (t.cho, t.regs)) =
    some (ChoState.reset, (at44100 [(.choAm, fOne)]).regs) := by decide

theorem test_wah_init :
    (nextOf (exec .wahInit (busy.withRegs (setReg busy.regs .wahOut fTwo)))).map
      (fun t => (t.wah, t.regs, t.oct)) = some (WahState.reset, busy.regs, busy.oct) := by decide

theorem test_oct_init :
    (nextOf (exec .octInit (busy.withRegs (setReg busy.regs .octOut fTwo)))).map
      (fun t => (t.oct, t.regs, t.hyb)) = some (OctState.reset, busy.regs, busy.hyb) := by decide

theorem test_hyb_init :
    (nextOf (exec .hybInit (busy.withRegs (setReg busy.regs .hybOut fTwo)))).map
      (fun t => (t.hyb, t.regs, t.wah)) = some (HybState.reset, busy.regs, busy.wah) := by decide

/-- R203. -/
theorem test_nop : (nextOf (exec .nop busy)) = some busy := rfl

/-! Witnesses: for each statement with hypotheses, states and operands that meet them, one line for each
of its clauses. -/

theorem witness_ReservedWordsAreRefused :
    ReservedWord 0x00000100#32 ∧ ReservedWord 0x00000030#32 ∧ ReservedWord 0x00000015#32 ∧
    ReservedWord 0x00000025#32 ∧ ReservedWord 0x00000001#32 ∧
    (asked [.regWrite 0x00#8 0x00000015#32]).host.pending = .regWrite 0x00#8 0x00000015#32 :: [] := by
  unfold ReservedWord; decide

theorem witness_StepRunsTheDecodedCommand :
    (asked [.regWrite 0x00#8 0x00000013#32, .regRead 0x48#8]).host.pending =
      .regWrite 0x00#8 0x00000013#32 :: [.regRead 0x48#8] ∧
    decode 0x00000013#32 = .ok .octTick := by decide

theorem witness_IdleCoreHoldsAllState : busy.host.pending = [] := by decide

theorem witness_RegWriteRule :
    (asked [.regWrite 0x00#8 0#32]).host.pending = .regWrite 0x00#8 0#32 :: [] ∧
    (asked [.regWrite 0x54#8 fOne]).host.pending = .regWrite 0x54#8 fOne :: [] ∧
    (regNumber .hybMix = 0x54#8 ∧ isReadOnly .hybMix = false) ∧
    (asked [.regWrite 0x58#8 fOne]).host.pending = .regWrite 0x58#8 fOne :: [] ∧
    (regNumber .hybOut = 0x58#8 ∧ isReadOnly .hybOut = true) ∧
    (asked [.regWrite 0x59#8 fOne]).host.pending = .regWrite 0x59#8 fOne :: [] ∧
    ((0x59#8 : RegNum) ≠ 0x00#8 ∧ ∀ r, regNumber r ≠ 0x59#8) := by
  refine ⟨by decide, by decide, by decide, by decide, by decide, by decide, by decide, ?_⟩
  intro r; cases r <;> decide

theorem witness_RegReadRule :
    ((asked [.regRead 0x01#8]).host.pending = .regRead 0x01#8 :: [] ∧ regNumber .fs = 0x01#8) ∧
    (asked [.regRead 0x00#8]).host.pending = .regRead 0x00#8 :: [] ∧
    (asked [.regRead 0x03#8]).host.pending = .regRead 0x03#8 :: [] ∧
    ((0x03#8 : RegNum) ≠ 0x00#8 ∧ ∀ r, regNumber r ≠ 0x03#8) := by
  refine ⟨by decide, by decide, by decide, by decide, ?_⟩
  intro r; cases r <;> decide

theorem witness_ReadReturnsTheLastWrite :
    isReadOnly .hilIn = false ∧
    (asked [.regWrite 0x10#8 0x7FA00001#32, .regRead 0x10#8]).host.pending =
      .regWrite (regNumber .hilIn) 0x7FA00001#32 :: .regRead (regNumber .hilIn) :: [] := by decide

theorem witness_ResetClearsEverything :
    (busy.withHost ⟨[.reset, .regRead 0x01#8], [fOne]⟩).host.pending = .reset :: [.regRead 0x01#8] := by
  decide

theorem witness_ResetEventKeepsTheHostSide :
    (busy.withHost ⟨[.reset], []⟩).host.pending = .reset :: [] := by decide

theorem witness_ResetIsTheFiveInitsPlusZeroing :
    [Instr.hybInit, .hilInit, .choInit, .wahInit, .octInit].Perm
      [.hilInit, .choInit, .wahInit, .octInit, .hybInit] ∧
    isOutputOf .hil .hilFm = true ∧ isReadOnly .fs = false := by decide

theorem witness_InitRule :
    isOutputOf .hil .hilAm = true ∧ isOutputOf .hil .hilIn = false ∧
    isOutputOf .hil .choOut = false ∧ UnitName.cho ≠ UnitName.hil := by decide

theorem witness_CommandWritesOnlyItsUnit :
    (unitOf .hilTick = some .hil ∧ ∃ t, exec .hilTick busy = .next t) ∧
    (unitOf .hybInit = some .hyb ∧ ∃ t, exec .hybInit busy = .next t) ∧
    isOutputOf .hil .choOut = false ∧ UnitName.cho ≠ UnitName.hil :=
  ⟨⟨rfl, exists_next (by decide +kernel)⟩, ⟨rfl, _, rfl⟩, by decide, by decide⟩

theorem witness_CommandReadsOnlyItsUnit :
    unitOf .hilTick = some .hil ∧
    SameForUnit .hil busy ((busy.withOct ⟨fTwo⟩).withRegs (setReg busy.regs .octOut fTwo)) ∧
    ∃ t, exec .hilTick busy = .next t := by
  refine ⟨rfl, ⟨?_, rfl⟩, exists_next (by decide +kernel)⟩
  intro r h
  cases r <;> first | rfl | (revert h; decide)

theorem witness_CommandsOfDifferentUnitsCommute :
    unitOf .choTick = some .cho ∧ unitOf .octInit = some .oct ∧ UnitName.cho ≠ UnitName.oct ∧
    ∃ a b, exec .choTick busy = .next a ∧ exec .octInit a = .next b :=
  ⟨rfl, rfl, by decide, _, _, rfl, rfl⟩

theorem witness_TicksStoreOneEntryPerBuffer :
    (Memory.wf hilTaps busy.hil.buf = true ∧ (∃ t, exec .hilTick busy = .next t) ∧
      14 ≠ busy.hil.wp.val) ∧
    (choSafe busy.cho = true ∧ (∃ t, exec .choTick busy = .next t) ∧ 4409 ≠ busy.cho.v4.wp.val) :=
  ⟨⟨by decide, exists_next (by decide +kernel), by decide⟩, by decide, ⟨_, rfl⟩, by decide⟩

theorem witness_ClampRule :
    (isFinite posZero = true ∧ isFinite f10 = true ∧ fle posZero f10 = true) ∧
    isNaN 0x7F800001#32 = true ∧ flt 0x80000001#32 posZero = true ∧ fgt 0x41200001#32 f10 = true ∧
    within posZero f10 posZero = true ∧ within posZero f10 f10 = true ∧
    fle 0x80000000#32 posZero = true := by decide +kernel

theorem witness_SumsAreCorrectlyRounded :
    (isFinite 0x7F7FFFFF#32 = true ∧ isFinite 0x00000001#32 = true) ∧
    ratVal posZero + ratVal 0x80000000#32 = 0 := by
  refine ⟨by decide +kernel, ?_⟩
  have h : sval posZero = 0 ∧ sval 0x80000000#32 = 0 := by decide +kernel
  simp [ratVal, h.1, h.2]

theorem witness_ProductsAndQuotientsAreCorrectlyRounded :
    isFinite 0x7F7FFFFF#32 = true ∧ isFinite 0x00000001#32 = true ∧ isZero 0x00000001#32 = false := by
  decide +kernel

theorem witness_SquareRootsAreCorrectlyRounded :
    (isFinite 0x80000000#32 = true ∧ fle posZero 0x80000000#32 = true) ∧
    (isFinite 0x7F7FFFFF#32 = true ∧ fle posZero 0x7F7FFFFF#32 = true) := by decide +kernel

theorem witness_ArithmeticSpecialValues :
    isNaN 0x7F800001#32 = true ∧ (isInf 0xFF800000#32 = true ∧ isFinite 0xFF7FFFFF#32 = true) ∧
    (isFinite 0x80000000#32 = true ∧ isFinite posZero = true ∧ feq 0x80000000#32 posZero = true) ∧
    isZero 0x80000000#32 = true ∧ isInf 0x7F800000#32 = true ∧
    (isNaN 0x7F800000#32 = false ∧ isZero 0x7F800000#32 = false ∧ isZero posZero = true) ∧
    (isNaN 0x80000001#32 = false ∧ isZero 0x80000001#32 = false) ∧
    flt 0xFF800000#32 posZero = true ∧ flt 0x80000001#32 posZero = true := by decide +kernel

theorem witness_FloorAndRemainderAreExact :
    isFinite 0xFF7FFFFF#32 = true ∧ isFinite 0x7F800000#32 = false ∧
    (isFinite 0x7F7FFFFF#32 = true ∧ isFinite 0x00000001#32 = true ∧ flt posZero 0x00000001#32 = true) ∧
    |(-16777216 : ℤ)| ≤ 2 ^ 24 ∧ sval 0x4B000000#32 = 2 ^ 23 * 2 ^ 149 := by
  decide +kernel

theorem witness_WrapLandsInOneTurn :
    (isFinite 0xC0E00000#32 = true ∧ flt (fmod 0xC0E00000#32 fTwoPi) posZero = true) ∧
    (isFinite 0x40C90FDB#32 = true ∧ flt (fmod 0x40C90FDB#32 fTwoPi) posZero = false) ∧
    phaseInRange 0x80000000#32 = true ∧ phaseInRange 0x40C90FDA#32 = true ∧
    isFinite 0x7F800000#32 = false := by decide +kernel

theorem witness_CosineTableIsNearest :
    256 ≤ 256 ∧ 1023 < 1024 ∧ isFinite 0xFF7FFFFF#32 = true := by decide

theorem witness_TableCosineValue :
    (0 < 256 ∧ 255 < 256) ∧ isFinite 0x80000001#32 = true ∧ isFinite 0x7F7FFFFF#32 = true := by decide

theorem witness_TableCosineRange :
    isFinite 0xFF7FFFFF#32 = true ∧ isFinite 0xFF800000#32 = false := by decide

theorem witness_ArctangentRangeAndAxes :
    isNaN 0x7FC00000#32 = true ∧ (isNaN 0x7F800000#32 = false ∧ isNaN 0x00000001#32 = false) ∧
    (isZero 0x80000000#32 = true ∧ flt posZero 0x7F800000#32 = true) ∧ flt 0xFF800000#32 posZero = true ∧
    isNeg posZero = false ∧ isNeg 0x80000000#32 = true := by decide +kernel

theorem witness_HyperbolicTangentRange :
    isNaN 0xFFC00000#32 = true ∧ isNaN 0xFF800000#32 = false ∧ isZero 0x80000000#32 = true ∧
    isInf 0xFF800000#32 = true := by decide +kernel

theorem witness_SineAndCosineRange :
    isFinite 0x7F7FFFFF#32 = true ∧ isFinite 0x7F800000#32 = false ∧ isZero 0x80000000#32 = true := by
  decide +kernel

theorem witness_DelayReadPositionSplits :
    isFinite (fsub (floatOfInt ((4409 : Fin choCap).val)) 0x7F7FFFFF#32) = true ∧
    isFinite (fsub (floatOfInt ((0 : Fin choCap).val)) 0xFF800000#32) = false := by decide +kernel

theorem witness_WholeDelayReadsTheEntry :
    (4409 < choCap ∧ isFinite (memRead [(0, fOne)] ((4409 + choCap - 4409) % choCap)) = true ∧
      isFinite (memRead [(0, fOne)] ((4409 + choCap - 4409 + 1) % choCap)) = true) ∧
    (0 < choCap ∧ isFinite (memRead [(0, fOne)] ((4409 + choCap - 0) % choCap)) = true ∧
      isFinite (memRead [(0, fOne)] ((4409 + choCap - 0 + 1) % choCap)) = true) := by decide +kernel

theorem witness_HilbertCoefficientsAreNearest :
    (0 < 15 ∧ 0 % 2 = 0) ∧ (14 < 15 ∧ 14 % 2 = 0) ∧ isFinite 0x7F7FFFFF#32 = true := by decide

theorem witness_HilTickResult :
    inHalfTurn (unwrapOnce defaultNum (fsub (hilTickPhase defaultParams busy) busy.hil.prev)) = true := by
  decide +kernel

theorem witness_TickResults :
    ∃ c w o y, c = choTickWith defaultParams busy ∧ w = wahTickWith defaultParams busy ∧
      o = octTickWith defaultParams busy ∧ y = hybTickWith defaultParams busy :=
  ⟨_, _, _, _, rfl, rfl, rfl, rfl⟩

theorem witness_HilTickCompletes :
    isNaN (busy.withHil ⟨[], 14, 0x7FC00000#32⟩).hil.prev = true ∧
    within (fneg fPi) fPi (busy.withHil ⟨[], 0, 0xC0490FDB#32⟩).hil.prev = true := by decide +kernel

theorem witness_UnwrappedDifferenceIsWithinHalfATurn :
    unwrap defaultNum 0xC0490FDB#32 = some 0x40490FDB#32 ∧
    unwrap defaultNum 0x40C90FDB#32 = some 0x00000000#32 ∧
    unwrap defaultNum 0x7FC00000#32 = some 0x7FC00000#32 := by decide +kernel

theorem witness_HilTickShiftsTheSampleSequence :
    Memory.wf hilTaps (filled 15 fOne) = true ∧ 13 < 14 := by decide +kernel

theorem witness_HilLayoutIsNotObservable :
    Memory.wf hilTaps [(0, fOne)] = true ∧ Memory.wf hilTaps [(5, fOne)] = true ∧
    (∀ n, n < 15 → hilHistory ⟨[(0, fOne)], 1, posZero⟩ n = hilHistory ⟨[(5, fOne)], 6, posZero⟩ n) ∧
    ∃ t, exec .hilTick (busy.withHil ⟨[(0, fOne)], 1, posZero⟩) = .next t :=
  ⟨by decide, by decide, by decide +kernel, exists_next (by decide +kernel)⟩

theorem witness_HilForgetsAfterSixteenSamples :
    (List.replicate 16 fOne).length = 16 ∧ hilSafe HilState.reset = true ∧
    hilSafe ⟨filled 15 0x7FC00000#32, 14, 0x7FC00000#32⟩ = true ∧
    getReg busy.regs .fs = getReg (busy.withHil ⟨filled 15 0x7FC00000#32, 14, 0x7FC00000#32⟩).regs .fs := by
  decide +kernel

theorem witness_ChorusPointersComeRound : (4410 : Nat) = 4410 ∧
    (voiceAt busy.cho 4).wp.val = 0 := by decide

theorem witness_ClampedOutputsStayWithinVmax :
    isFinite defaultParams.vmax = true ∧ flt posZero defaultParams.vmax = true := by decide

theorem witness_UndelayedUndetunedVoicesStayIdentical :
    isZero (getReg busy.regs .choDelay) = true ∧ isZero (getReg busy.regs .choDetune) = true ∧
    isFinite (getReg busy.regs .fs) = true ∧ (∀ i, voiceAt busy.cho i = voiceAt busy.cho 0) ∧
    ∃ t, exec .choTick busy = .next t := by
  refine ⟨by decide, by decide, by decide, ?_, _, rfl⟩
  decide

theorem witness_WahPhaseNeverLeavesTheTurn :
    phaseInRange (busy.withWah ⟨fOne, fTwo, fOne, fTwo, 0x7FC00000#32, 0x40C90FDA#32⟩).wah.ph = true ∧
    ∃ t, exec .wahTick (busy.withWah ⟨fOne, fTwo, fOne, fTwo, 0x7FC00000#32, 0x40C90FDA#32⟩) = .next t :=
  ⟨by decide +kernel, _, rfl⟩

theorem witness_OctaveRatiosAreExact :
    getReg (at44100 [(.octCtrl, 0x00000000#32)]).regs .octCtrl = 0x00000000#32 ∧
    getReg (at44100 [(.octCtrl, 0xBF800000#32)]).regs .octCtrl = 0xBF800000#32 := by decide

theorem witness_OctPhaseStaysInOneTurn :
    within posZero fTwoPi (busy.withOct ⟨fTwoPi⟩).oct.ph = true ∧
    within posZero fTwoPi (phaseIncScaled defaultNum (getReg busy.regs .octFm)
      (octRatio defaultNum (getReg busy.regs .octCtrl)) (getReg busy.regs .dt)) = true ∧
    ∃ t, exec .octTick (busy.withOct ⟨fTwoPi⟩) = .next t :=
  ⟨by decide +kernel, by decide +kernel, _, rfl⟩

theorem witness_HybOutputNeverExceedsOne : ∃ t, exec .hybTick busy = .next t := ⟨_, rfl⟩

theorem witness_HybMixReducesToOneStream :
    (isFinite (getReg (regsOf [(.hybMix, fOne), (.hybFm1, f1000)]) .hybFm1) = true ∧
      isFinite (getReg (regsOf [(.hybMix, fOne), (.hybFm1, f1000)]) .hybFm2) = true ∧
      getReg (regsOf [(.hybMix, fOne), (.hybFm1, f1000)]) .hybMix = fOne) ∧
    getReg (regsOf [(.hybFm2, f1000)]) .hybMix = posZero := by decide

theorem witness_PoisonedStateStaysPoisoned :
    (isNaN (voiceAt ⟨Voice.reset, Voice.reset, Voice.reset, Voice.reset,
      ⟨[], [], 0, 0x7FC00000#32⟩⟩ 4).ph = true ∧
      ∃ t, exec .choTick (busy.withCho ⟨Voice.reset, Voice.reset, Voice.reset, Voice.reset,
        ⟨[], [], 0, 0x7FC00000#32⟩⟩) = .next t) ∧
    (isFinite (busy.withWah ⟨posZero, posZero, posZero, posZero, 0x7F800000#32, posZero⟩).wah.sm = false ∧
      ∃ t, exec .wahTick (busy.withWah
        ⟨posZero, posZero, posZero, posZero, 0x7F800000#32, posZero⟩) = .next t) ∧
    (isFinite (busy.withOct ⟨0xFF800000#32⟩).oct.ph = false ∧
      ∃ t, exec .octTick (busy.withOct ⟨0xFF800000#32⟩) = .next t) ∧
    (isFinite (busy.withHyb ⟨0x7F800000#32, posZero⟩).hyb.sm = false ∧
      ∃ t, exec .hybTick (busy.withHyb ⟨0x7F800000#32, posZero⟩) = .next t) ∧
    (isFinite (busy.withHyb ⟨posZero, 0x7FC00000#32⟩).hyb.ph = false ∧
      ∃ t, exec .hybTick (busy.withHyb ⟨posZero, 0x7FC00000#32⟩) = .next t) :=
  ⟨⟨by decide, _, rfl⟩, ⟨by decide, _, rfl⟩, ⟨by decide, _, rfl⟩, ⟨by decide, _, rfl⟩,
    by decide, _, rfl⟩

theorem witness_EveryStepKeepsTheStateSafe :
    (busy.withFetchWord 32 0x10).safe = true ∧ ∃ t, step (busy.withFetchWord 32 0x10) = .next t :=
  ⟨by decide +kernel, exists_next (by decide +kernel)⟩

theorem witness_SafeStatesNeverFault : (busy.withFetchWord 32 0x10).safe = true := by decide +kernel

end Sys2Proof.Tests
end

section
/-!
PROOFS. The host's register access: the register map's numbers, and a read that returns the last write.
-/
namespace Sys2Proof.Proofs

open Sys2Proof.Machine Sys2Proof.Config

/-- No two registers share a number: the map finds each register again by its number (R22, R25). -/
theorem regNumber_injective {r q : Reg} (h : regNumber r = regNumber q) : r = q := by
  have found : some r = some q := by
    rw [← regOfNumber_regNumber r, h, regOfNumber_regNumber]
  exact Option.some.inj found

/-- Settles O6: the numbers and rights by evaluating the map, the injectivity by its inverse. -/
theorem registerMapNumbers : Obligations.RegisterMapNumbers :=
  ⟨rfl, fun _ _ => regNumber_injective⟩

/-- A `RegWrite` to a read-write register stores the word as it is (R24, R201). -/
theorem performWrite_of_readWrite {r : Reg} (v : Word) (s : State) (hr : isReadOnly r = false) :
    performWrite (regNumber r) v s = .next (s.withRegs (setReg s.regs r v)) := by
  simp [performWrite, regNumber_ne_cmd, hostWrite, hr]

/-- A `RegRead` of a register that holds a value hands its word to the host (R202). -/
theorem performRead_regNumber (r : Reg) (s : State) :
    performRead (regNumber r) s = .next (s.withHost (hostReceives s.host (getReg s.regs r))) := by
  simp [performRead, regNumber_ne_cmd, hostRead]

/-- With a transaction pending, the step performs it and takes it off the list (R200). -/
theorem step_of_pending {s : State} {tr : Transaction} {rest : List Transaction}
    (h : s.host.pending = tr :: rest) :
    step s = perform tr (s.withHost (hostTakes s.host rest)) := by
  simp [step, stepHost, h]

/-- A pending `RegWrite` to a read-write register is the step that stores its word (R201). -/
theorem step_of_regWrite {s : State} {r : Reg} {v : Word} {rest : List Transaction}
    (hr : isReadOnly r = false) (h : s.host.pending = .regWrite (regNumber r) v :: rest) :
    step s = .next ((s.withHost (hostTakes s.host rest)).withRegs (setReg s.regs r v)) :=
  (step_of_pending h).trans (performWrite_of_readWrite v _ hr)

/-- A pending `RegRead` is the step that hands the register's word to the host (R202). -/
theorem step_of_regRead {s : State} {r : Reg} {rest : List Transaction}
    (h : s.host.pending = .regRead (regNumber r) :: rest) :
    step s = .next (s.withHost ⟨rest, getReg s.regs r :: s.host.results⟩) :=
  (step_of_pending h).trans (performRead_regNumber r _)

/-- Two steps that both complete are a run of length two. -/
theorem run_two_of_steps {s t u : State} (hst : step s = .next t) (htu : step t = .next u) :
    Sys2Proof.core.run 2 s = .next u := by
  have hs : Sys2Proof.core.step s = .next t := hst
  have ht : Sys2Proof.core.step t = .next u := htu
  simp only [Host.Core.run, hs, ht]

/-- Settles O9: the first step stores the word, the second finds it by read-after-write. -/
theorem readReturnsTheLastWrite : Obligations.ReadReturnsTheLastWrite := by
  intro s r v rest hr hp
  have hwrite := step_of_regWrite hr hp
  have hread := step_of_regRead (r := r) (rest := rest)
    (s := (s.withHost (hostTakes s.host (.regRead (regNumber r) :: rest))).withRegs
      (setReg s.regs r v)) rfl
  exact ⟨_, run_two_of_steps hwrite hread, by simp [hostTakes], by simp⟩

end Sys2Proof.Proofs
end

section
/-!
PROOFS. HIL's ring buffer as the sequence of the last 15 samples (R30, R123): what a tick does to the
sequence, and that a tick's results depend on the sequence and not on where the ring starts.
-/
namespace Sys2Proof.Proofs

open Sys2Proof.Machine Sys2Proof.Config

/-- HIL's record after a tick (R122, R126). -/
@[simp] theorem hilTickNext_hil (P : Params) (s : State) (d : Word) :
    (hilTickNext P s d).hil = hilAfter s.hil (getReg s.regs .hilIn) (hilTickPhase P s) := rfl

/-- `HIL_AM` after a tick (R122, R125). -/
@[simp] theorem hilTickNext_hilAm (P : Params) (s : State) (d : Word) :
    getReg (hilTickNext P s d).regs .hilAm = hilAmplitude P.num (hilTickRe s) (hilTickIm P s) := rfl

/-- `HIL_FM` after a tick (R122, R124). -/
@[simp] theorem hilTickNext_hilFm (P : Params) (s : State) (d : Word) :
    getReg (hilTickNext P s d).regs .hilFm = hilFrequency P.num d (getReg s.regs .fs) := rfl

/-- After a push, the sample `14 - j` ticks old stands `j + 1` entries past the write index (R122). -/
theorem hilHistory_hilAfter (h : HilState) (x th : Word) {j : Nat} (hj : j ≤ 14) :
    hilHistory (hilAfter h x th) (14 - j) = hilSample (hilPush h x) h.wp j := by
  have hwp := h.wp.isLt
  have entry : ((h.wp.val + 1) % hilTaps + 14 - (14 - j)) % hilTaps = (h.wp.val + 1 + j) % hilTaps := by
    simp only [hilTaps] at *
    omega
  simp only [hilHistory, hilAfter, hilSample, ringNext_val, entry]

/-- The sample just pushed is the newest (R30, R123). -/
theorem hilHistory_hilAfter_zero (h : HilState) (x th : Word) (hwf : Memory.wf hilTaps h.buf = true) :
    hilHistory (hilAfter h x th) 0 = x := by
  have hwp := h.wp.isLt
  have entry : (h.wp.val + 1 + 14) % hilTaps = h.wp.val := by
    simp only [hilTaps] at *
    omega
  rw [show (0 : Nat) = 14 - 14 from rfl, hilHistory_hilAfter h x th (le_refl 14), hilSample, entry]
  exact memRead_memWrite_same hwf

/-- A push ages every sample it keeps by one tick (R30, R123). -/
theorem hilHistory_hilAfter_succ (h : HilState) (x th : Word) (hwf : Memory.wf hilTaps h.buf = true)
    {n : Nat} (hn : n < 14) : hilHistory (hilAfter h x th) (n + 1) = hilHistory h n := by
  have hwp := h.wp.isLt
  have entry : (h.wp.val + 1 + (13 - n)) % hilTaps = (h.wp.val + 14 - n) % hilTaps := by
    congr 1
    omega
  have kept : (h.wp.val + 14 - n) % hilTaps ≠ h.wp.val := by
    simp only [hilTaps] at *
    omega
  rw [show n + 1 = 14 - (13 - n) by omega, hilHistory_hilAfter h x th (by omega), hilSample, entry]
  exact memRead_memWrite_other hwf kept

/-- The in-phase component is the sample 7 ticks old (R123). -/
theorem hilTickRe_eq_history (P : Params) (s : State) (d : Word) :
    hilTickRe s = hilHistory (hilTickNext P s d).hil 7 :=
  (hilHistory_hilAfter s.hil _ _ (by decide : 7 ≤ 14)).symm

/-- The quadrature component is the convolution of the coefficients with the sequence (R123). -/
theorem hilTickIm_eq_convolution (P : Params) (s : State) (d : Word) :
    hilTickIm P s = (List.range 15).foldl (fun im j =>
      P.num.fadd im (P.num.fmul (hilCoef (14 - j)) (hilHistory (hilTickNext P s d).hil (14 - j))))
      posZero := by
  refine List.foldl_ext _ _ _ fun im j hj => ?_
  have hj14 : j ≤ 14 := Nat.le_of_lt_succ (List.mem_range.mp hj)
  rw [hilTickNext_hil, hilHistory_hilAfter s.hil _ _ hj14]

/-- Settles O38: each clause is one of the lemmas on the pushed record. -/
theorem hilTickShiftsTheSampleSequence : Obligations.HilTickShiftsTheSampleSequence :=
  fun P s d hwf =>
    ⟨hilHistory_hilAfter_zero s.hil _ _ hwf,
      fun _ hn => hilHistory_hilAfter_succ s.hil _ _ hwf hn,
      hilTickRe_eq_history P s d, hilTickIm_eq_convolution P s d⟩

/-- Equal sequences and equal inputs give equal sequences after the tick. -/
theorem hilHistory_hilAfter_congr {h h' : HilState} (x th th' : Word)
    (hwf : Memory.wf hilTaps h.buf = true) (hwf' : Memory.wf hilTaps h'.buf = true)
    (hist : ∀ n, n < 15 → hilHistory h n = hilHistory h' n) {n : Nat} (hn : n < 15) :
    hilHistory (hilAfter h x th) n = hilHistory (hilAfter h' x th') n := by
  cases n with
  | zero => rw [hilHistory_hilAfter_zero h x th hwf, hilHistory_hilAfter_zero h' x th' hwf']
  | succ n =>
    have hn14 : n < 14 := Nat.lt_of_succ_lt_succ hn
    rw [hilHistory_hilAfter_succ h x th hwf hn14, hilHistory_hilAfter_succ h' x th' hwf' hn14,
      hist n (Nat.lt_of_lt_of_le hn14 (by decide))]

/-- Equal sequences after the tick give the same two components. -/
theorem hilComponents_congr {P : Params} {s s' : State} {d d' : Word}
    (hist : ∀ n, n < 15 →
      hilHistory (hilTickNext P s d).hil n = hilHistory (hilTickNext P s' d').hil n) :
    hilTickRe s = hilTickRe s' ∧ hilTickIm P s = hilTickIm P s' := by
  constructor
  · rw [hilTickRe_eq_history P s d, hilTickRe_eq_history P s' d', hist 7 (by decide)]
  · rw [hilTickIm_eq_convolution P s d, hilTickIm_eq_convolution P s' d']
    refine List.foldl_ext _ _ _ fun im j _ => ?_
    rw [hist (14 - j) (by omega)]

/-- The phase depends on the two components only (R122). -/
theorem hilTickPhase_congr {P : Params} {s s' : State} (hre : hilTickRe s = hilTickRe s')
    (him : hilTickIm P s = hilTickIm P s') : hilTickPhase P s = hilTickPhase P s' := by
  rw [hilTickPhase, hilTickPhase, hre, him]

/-- `HIL.TICK` completes where both unwrap loops end (R122). -/
theorem execHilTick_of_delta {s : State} {d : Word} (h : hilTickDelta defaultParams s = some d) :
    execHilTick s = .next (hilTickNext defaultParams s d) := by
  simp [execHilTick, hilTickWith, h]

/-- Settles O39: a tick's components, and so its phase, its difference and its outputs, are functions of
the sequence, which the tick shifts alike in both records. -/
theorem hilLayoutIsNotObservable : Obligations.HilLayoutIsNotObservable := by
  intro s s' t hwf hwf' hist hprev hin hfs hexec
  obtain ⟨d, hd, rfl⟩ := execHilTick_next hexec
  have hist' : ∀ n, n < 15 → hilHistory (hilTickNext defaultParams s d).hil n =
      hilHistory (hilTickNext defaultParams s' d).hil n := by
    intro n hn
    rw [hilTickNext_hil, hilTickNext_hil, ← hin]
    exact hilHistory_hilAfter_congr _ _ _ hwf hwf' hist hn
  obtain ⟨hre, him⟩ := hilComponents_congr hist'
  have hphase := hilTickPhase_congr hre him
  have hd' : hilTickDelta defaultParams s' = some d := by
    rw [← hd, hilTickDelta, hilTickDelta, hphase, hprev]
  refine ⟨_, execHilTick_of_delta hd', ?_, ?_, hphase, hist'⟩
  · rw [hilTickNext_hilAm, hilTickNext_hilAm, hre, him]
  · rw [hilTickNext_hilFm, hilTickNext_hilFm, hfs]

end Sys2Proof.Proofs
end

section
/-!
PROOFS. Ranges of the numeric primitives: signs and magnitudes of packed words, the comparisons, where a
rounded sum stays finite or keeps its sign, and the ranges of `clamp`, `wrap2pi`, `fsqrt`, `atan2`, `tanh`.
-/
namespace Sys2Proof.Proofs

open Sys2Proof.Machine Sys2Proof.Config

/-! Packed words and signed values. -/

/-- A larger pattern below the sign has the larger magnitude, whatever the signs (R10). -/
theorem mag_pack_mono (a b : Bool) {m m' : Nat} (h : m ≤ m') (hm' : m' < 2 ^ 31) :
    mag (pack a m) ≤ mag (pack b m') := by
  rw [mag_pack a (by omega), mag_pack b hm']
  have hE : m / 2 ^ 23 ≤ m' / 2 ^ 23 := Nat.div_le_div_right h
  have hm := Nat.div_add_mod m (2 ^ 23)
  have hm'' := Nat.div_add_mod m' (2 ^ 23)
  have hF : m % 2 ^ 23 < 2 ^ 23 := Nat.mod_lt _ (by decide)
  generalize m / 2 ^ 23 = E at *
  generalize m' / 2 ^ 23 = E' at *
  generalize m % 2 ^ 23 = F at *
  generalize m' % 2 ^ 23 = F' at *
  rcases Nat.eq_or_lt_of_le hE with rfl | hlt
  · have hFF : F ≤ F' := by omega
    split
    · exact hFF
    · exact Nat.mul_le_mul_right _ (by omega)
  · have hE' : E' ≠ 0 := by omega
    rw [if_neg hE']
    split
    · calc F ≤ 2 ^ 23 + F' := by omega
        _ ≤ (2 ^ 23 + F') * 2 ^ (E' - 1) := Nat.le_mul_of_pos_right _ (by positivity)
    next hE0 =>
      calc (2 ^ 23 + F) * 2 ^ (E - 1) ≤ 2 ^ 24 * 2 ^ (E - 1) := Nat.mul_le_mul_right _ (by omega)
        _ = 2 ^ 23 * 2 ^ (E - 1 + 1) := by ring
        _ ≤ 2 ^ 23 * 2 ^ (E' - 1) :=
          Nat.mul_le_mul_left _ (Nat.pow_le_pow_right (by decide) (by omega))
        _ ≤ (2 ^ 23 + F') * 2 ^ (E' - 1) := Nat.mul_le_mul_right _ (by omega)

/-- The signed value of a packed word (R10). -/
theorem sval_pack (neg : Bool) {m : Nat} (h : m < 2 ^ 31) :
    sval (pack neg m) = if neg then -(mag (pack neg m) : Int) else mag (pack neg m) := by
  rw [sval, isNeg_pack neg h]

/-- The signed value is the magnitude up to its sign. -/
theorem natAbs_sval (w : Word) : (sval w).natAbs = mag w := by
  unfold sval
  split <;> simp

/-- The signed value of a finite or infinite word packed without a sign is not negative. -/
theorem sval_pack_false_nonneg {m : Nat} (h : m < 2 ^ 31) : 0 ≤ sval (pack false m) := by
  simp [sval_pack false h]

/-- Both zeros have the value 0. -/
theorem sval_of_isZero {w : Word} (h : isZero w = true) : sval w = 0 := by
  simp only [isZero, Bool.and_eq_true, beq_iff_eq] at h
  simp [sval, h.2]

/-- A zero is no NaN. -/
theorem isNaN_of_isZero {w : Word} (h : isZero w = true) : isNaN w = false := by
  simp only [isZero, Bool.and_eq_true, Bool.not_eq_true'] at h
  exact h.1

/-- A finite word is no NaN. -/
theorem isNaN_of_isFinite {w : Word} (h : isFinite w = true) : isNaN w = false := by
  simp only [isFinite, bne_iff_ne] at h
  simp [isNaN, h]

/-- A finite word is no infinity. -/
theorem isInf_of_isFinite {w : Word} (h : isFinite w = true) : isInf w = false := by
  simp only [isFinite, bne_iff_ne] at h
  simp [isInf, h]

/-- A word packed from less than the pattern of infinity is finite. -/
theorem isFinite_pack (neg : Bool) {m : Nat} (h : m < infMag) : isFinite (pack neg m) = true := by
  unfold infMag at h
  simp only [isFinite, expField_pack neg (show m < 2 ^ 31 by omega), bne_iff_ne]
  omega

/-- Below 2^277 units, the magnitude an infinity gets, every word is finite. -/
theorem isFinite_of_mag_lt {w : Word} (h : mag w < 2 ^ 277) : isFinite w = true := by
  by_contra hinf
  have he : expField w = 255 := by simpa [isFinite] using hinf
  have hmag : mag w = (2 ^ 23 + fracField w) * 2 ^ 254 := by simp [mag, he]
  omega

/-- Flipping the bit above a number adds its weight. -/
theorem xor_two_pow_of_lt {m k : Nat} (h : m < 2 ^ k) : m ^^^ 2 ^ k = 2 ^ k + m := by
  apply Nat.eq_of_testBit_eq
  intro i
  rw [Nat.testBit_xor, Nat.testBit_two_pow]
  rcases Nat.lt_trichotomy i k with hlt | rfl | hgt
  · rw [Nat.testBit_two_pow_add_gt hlt]
    simp [Nat.ne_of_gt hlt]
  · simp [Nat.testBit_two_pow_add_eq]
  · have hpow : 2 ^ (k + 1) ≤ 2 ^ i := Nat.pow_le_pow_right (by decide) hgt
    rw [Nat.pow_succ] at hpow
    rw [Nat.testBit_lt_two_pow (show 2 ^ k + m < 2 ^ i by omega),
      Nat.testBit_lt_two_pow (show m < 2 ^ i by omega)]
    simp [Nat.ne_of_lt hgt]

/-- `fneg` sets the sign of a word packed without one (R91). -/
theorem fneg_pack_false {m : Nat} (h : m ≤ infMag) : fneg (pack false m) = pack true m := by
  have hlt := lt_of_le_infMag h
  rw [fneg, isNaN_pack false h, if_neg Bool.false_ne_true]
  apply BitVec.eq_of_toNat_eq
  rw [BitVec.toNat_xor, pack_toNat false hlt, pack_toNat true hlt]
  simpa using xor_two_pow_of_lt hlt

/-! Comparisons. -/

theorem fle_iff {a b : Word} :
    fle a b = true ↔ isNaN a = false ∧ isNaN b = false ∧ sval a ≤ sval b := by
  simp [fle, and_assoc]

theorem flt_iff {a b : Word} :
    flt a b = true ↔ isNaN a = false ∧ isNaN b = false ∧ sval a < sval b := by
  simp [flt, and_assoc]

theorem within_iff {lo hi w : Word} :
    within lo hi w = true ↔
      isNaN lo = false ∧ isNaN w = false ∧ isNaN hi = false ∧ sval lo ≤ sval w ∧ sval w ≤ sval hi := by
  simp only [within, Bool.and_eq_true, fle_iff]
  tauto

/-- On numbers, not less is at least (R11). -/
theorem fle_of_flt_false {a b : Word} (ha : isNaN a = false) (hb : isNaN b = false)
    (h : flt a b = false) : fle b a = true := by
  have hlt : ¬ sval a < sval b := fun hab => by simp [flt_iff.mpr ⟨ha, hb, hab⟩] at h
  exact fle_iff.mpr ⟨hb, ha, by omega⟩

/-- On numbers, not at least is less (R11). -/
theorem flt_of_fle_false {a b : Word} (ha : isNaN a = false) (hb : isNaN b = false)
    (h : fle a b = false) : flt b a = true := by
  have hle : ¬ sval a ≤ sval b := fun hab => by simp [fle_iff.mpr ⟨ha, hb, hab⟩] at h
  exact flt_iff.mpr ⟨hb, ha, by omega⟩

/-- At least `+0.0` is a number of no negative value. -/
theorem posZero_fle_iff {w : Word} : fle posZero w = true ↔ isNaN w = false ∧ 0 ≤ sval w := by
  have hnan : isNaN posZero = false := by decide
  have hval : sval posZero = 0 := by decide
  simp [fle_iff, hnan, hval]

/-- A phase in [0, `TWO_PI`), in values (R31, R32). -/
theorem phaseInRange_iff {w : Word} :
    phaseInRange w = true ↔ isNaN w = false ∧ 0 ≤ sval w ∧ sval w < sval fTwoPi := by
  have hnan : isNaN fTwoPi = false := by decide
  simp only [phaseInRange, Bool.and_eq_true, posZero_fle_iff, flt_iff]
  tauto

/-- A packed word of at most the pattern `top` lies between the two words of `top`. -/
theorem within_pack (neg : Bool) {m top : Nat} (hm : m ≤ top) (htop : top ≤ infMag) :
    within (pack true top) (pack false top) (pack neg m) = true := by
  have hlt := lt_of_le_infMag htop
  have hmt := mag_pack_mono neg true hm hlt
  have hmf := mag_pack_mono neg false hm hlt
  have hval : (sval (pack neg m)).natAbs = mag (pack neg m) := natAbs_sval _
  refine within_iff.mpr ⟨isNaN_pack _ htop, isNaN_pack _ (by omega), isNaN_pack _ htop, ?_, ?_⟩
  · rw [sval_pack true hlt, if_pos rfl]
    omega
  · rw [sval_pack false hlt, if_neg Bool.false_ne_true]
    omega

/-- `clamp` lands between its bounds, for a NaN too (R95). -/
theorem within_clamp {lo hi : Word} (x : Word) (h : fle lo hi = true) :
    within lo hi (clamp x lo hi) = true := by
  obtain ⟨hlo, hhi, hle⟩ := fle_iff.mp h
  rcases clamp_cases x lo hi with ⟨_, hc⟩ | ⟨_, _, hc⟩ | ⟨_, _, _, hc⟩ | ⟨hx, hl, hh, hc⟩
  · rw [hc]
    exact within_iff.mpr ⟨hlo, hhi, hhi, hle, le_refl _⟩
  · rw [hc]
    exact within_iff.mpr ⟨hlo, hlo, hhi, le_refl _, hle⟩
  · rw [hc]
    exact within_iff.mpr ⟨hlo, hhi, hhi, hle, le_refl _⟩
  · rw [hc, within, fle_of_flt_false hx hlo hl, fle_of_flt_false hhi hx hh, Bool.and_self]

/-! Rounding. -/

/-- The division rounded to nearest is at most one above the quotient rounded down. -/
theorem roundDiv_le (n d : Nat) : roundDiv n d ≤ n / d + 1 := by
  have hmod : n / d % 2 < 2 := Nat.mod_lt _ (by decide)
  unfold roundDiv
  split
  · omega
  · split <;> omega

/-- A magnitude below `c·2^k` units, `c` a significand, rounds to at most the pattern of `c·2^k` (R91). -/
theorem roundMag_le {n k c : Nat} (hn : n < c * 2 ^ k) (hlo : 2 ^ 23 ≤ c) (hhi : c ≤ 2 ^ 24) :
    roundMag n 1 ≤ k * 2 ^ 23 + c := by
  refine le_trans (Nat.min_le_left _ _) ?_
  rw [Nat.one_mul]
  have hplace : lastPlace n 1 ≤ k := by
    have hlt : n < 2 ^ (24 + k) := lt_of_lt_of_le hn (by rw [pow_add]; exact Nat.mul_le_mul_right _ hhi)
    have hlog : n.log2 < 24 + k := by
      rcases Nat.eq_zero_or_pos n with rfl | hpos
      · simp
      · exact (Nat.log2_lt (by omega)).mpr hlt
    rw [lastPlace, Nat.div_one]
    omega
  have hround := roundDiv_le n (2 ^ lastPlace n 1)
  rcases Nat.eq_or_lt_of_le hplace with heq | hlt
  · have hquot : n / 2 ^ lastPlace n 1 < c := by
      rw [heq]
      exact Nat.div_lt_of_lt_mul (by rwa [Nat.mul_comm])
    rw [heq] at hround hquot ⊢
    omega
  · have hquot : n / 2 ^ lastPlace n 1 < 2 ^ 24 := by
      apply Nat.div_lt_of_lt_mul
      rw [← pow_add]
      refine lt_of_lt_of_le Nat.lt_log2_self (Nat.pow_le_pow_right (by decide) ?_)
      rw [lastPlace, Nat.div_one]
      omega
    have hstep : (lastPlace n 1 + 1) * 2 ^ 23 ≤ k * 2 ^ 23 := Nat.mul_le_mul_right _ hlt
    omega

/-- The sum of finite numbers is packed from the rounded magnitude of the exact sum (R91). -/
theorem fadd_of_isFinite {a b : Word} (ha : isFinite a = true) (hb : isFinite b = true) :
    fadd a b =
      if sval a + sval b = 0 then pack (isNeg a && isNeg b) 0
      else pack (decide (sval a + sval b < 0)) (roundMag (sval a + sval b).natAbs 1) := by
  simp [fadd, isNaN_of_isFinite ha, isNaN_of_isFinite hb, isInf_of_isFinite ha, isInf_of_isFinite hb]

/-- A sum of finite numbers that is not negative is a number at least `+0.0`. -/
theorem fadd_nonneg {a b : Word} (ha : isFinite a = true) (hb : isFinite b = true)
    (h : 0 ≤ sval a + sval b) : fle posZero (fadd a b) = true := by
  rw [fadd_of_isFinite ha hb, posZero_fle_iff]
  split
  · refine ⟨isNaN_pack _ (Nat.zero_le _), le_of_eq ?_⟩
    cases isNeg a && isNeg b <;> decide
  · rw [decide_eq_false (not_lt.mpr h)]
    have hle := roundMag_le_infMag (sval a + sval b).natAbs 1
    exact ⟨isNaN_pack _ hle, sval_pack_false_nonneg (lt_of_le_infMag hle)⟩

/-- A sum of finite numbers far below the overflow bound is finite. -/
theorem isFinite_fadd {a b : Word} (ha : isFinite a = true) (hb : isFinite b = true)
    (h : (sval a + sval b).natAbs < 2 ^ 24 * 2 ^ 200) : isFinite (fadd a b) = true := by
  rw [fadd_of_isFinite ha hb]
  split
  · exact isFinite_pack _ (by decide)
  · refine isFinite_pack _ (lt_of_le_of_lt (roundMag_le h (by decide) (by decide)) (by decide))

/-! The wrapped phase. -/

/-- The remainder by `TWO_PI` of a finite phase is finite and not above `TWO_PI` in magnitude (R96). -/
theorem fmod_fTwoPi_bound {p : Word} (hp : isFinite p = true) :
    isFinite (fmod p fTwoPi) = true ∧ mag (fmod p fTwoPi) ≤ mag fTwoPi := by
  have hmag : mag fTwoPi = 0xC90FDB * 2 ^ 128 := by decide
  have hrem : mag p % mag fTwoPi < 0xC90FDB * 2 ^ 128 := by
    rw [← hmag]
    exact Nat.mod_lt _ (by rw [hmag]; positivity)
  have hpat : roundMag (mag p % mag fTwoPi) 1 ≤ fTwoPi.toNat :=
    roundMag_le hrem (by decide) (by decide)
  have hfold : fmod p fTwoPi = pack (isNeg p) (roundMag (mag p % mag fTwoPi) 1) := by
    simp [fmod, hp]
  rw [hfold]
  exact ⟨isFinite_pack _ (lt_of_le_of_lt hpat (by decide)), mag_pack_mono _ false hpat (by decide)⟩

/-- A number that is not negative, zeroed from `TWO_PI` on, is a phase. -/
theorem phaseInRange_zeroed {r : Word} (h : fle posZero r = true) :
    phaseInRange (if fge r fTwoPi then posZero else r) = true := by
  split
  · decide
  next hge =>
    have hlt := flt_of_fle_false (by decide) (posZero_fle_iff.mp h).1 (Bool.eq_false_iff.mpr hge)
    rw [phaseInRange, h, hlt, Bool.and_self]

/-- `wrap2pi` of a finite phase lies in [0, `TWO_PI`) (R100). -/
theorem phaseInRange_wrap2pi {p : Word} (hp : isFinite p = true) :
    phaseInRange (wrap2pi defaultNum p) = true := by
  obtain ⟨hfin, hbound⟩ := fmod_fTwoPi_bound hp
  rw [wrap2pi_of_finite hp]
  cases hneg : flt (fmod p fTwoPi) posZero with
  | false =>
    rw [foldIntoRange_of_not_neg hneg]
    exact phaseInRange_zeroed (fle_of_flt_false (isNaN_of_isFinite hfin) (by decide) hneg)
  | true =>
    rw [foldIntoRange_of_neg hneg]
    have hval : sval fTwoPi = mag fTwoPi := by decide
    have habs := natAbs_sval (fmod p fTwoPi)
    exact phaseInRange_zeroed (fadd_nonneg hfin (by decide) (by omega))

/-- `wrap2pi` answers NaN or a phase in [0, `TWO_PI`) (R100). -/
theorem wrap2pi_isNaN_or_inRange (p : Word) :
    isNaN (wrap2pi defaultNum p) = true ∨ phaseInRange (wrap2pi defaultNum p) = true := by
  cases hp : isFinite p with
  | false => exact .inl (by rw [wrap2pi_of_not_finite hp, isNaN_canonNaN])
  | true => exact .inr (phaseInRange_wrap2pi hp)

/-- A phase in range and an increment within ±`HALF_PI` have a finite sum (R165). -/
theorem isFinite_phase_add {ph inc : Word} (hph : phaseInRange ph = true)
    (hinc : within (fneg fHalfPi) fHalfPi inc = true) : isFinite (fadd ph inc) = true := by
  obtain ⟨_, hph0, hph1⟩ := phaseInRange_iff.mp hph
  obtain ⟨_, _, _, hinc0, hinc1⟩ := within_iff.mp hinc
  have hturn : sval fTwoPi = 0xC90FDB * 2 ^ 128 := by decide
  have hhalf : sval fHalfPi = 0xC90FDB * 2 ^ 126 := by decide
  have hhalf' : sval (fneg fHalfPi) = -(0xC90FDB * 2 ^ 126) := by decide
  have hphAbs := natAbs_sval ph
  have hincAbs := natAbs_sval inc
  exact isFinite_fadd (isFinite_of_mag_lt (by omega)) (isFinite_of_mag_lt (by omega)) (by omega)

/-! Square root, arctangent and hyperbolic tangent. -/

/-- A square root is NaN or a number at least zero (R91, R125). -/
theorem fsqrt_isNaN_or_nonneg (a : Word) : isNaN (fsqrt a) = true ∨ fle posZero (fsqrt a) = true := by
  unfold fsqrt
  split
  · exact .inl isNaN_canonNaN
  next hnan =>
    have hnum : isNaN a = false := Bool.eq_false_iff.mpr hnan
    split
    next hzero => exact .inr (posZero_fle_iff.mpr ⟨hnum, le_of_eq (sval_of_isZero hzero).symm⟩)
    · split
      · exact .inl isNaN_canonNaN
      next hneg =>
        split
        · exact .inr (posZero_fle_iff.mpr ⟨hnum, by simp [sval, hneg]⟩)
        · have hle := roundMag_le_infMag
            (2 * isqrt (mag a * 2 ^ 149) +
              (if isqrt (mag a * 2 ^ 149) * isqrt (mag a * 2 ^ 149) = mag a * 2 ^ 149 then 0 else 1)) 2
          exact .inr (posZero_fle_iff.mpr
            ⟨isNaN_pack _ hle, sval_pack_false_nonneg (lt_of_le_infMag hle)⟩)

/-- The rounding of a fixed-point magnitude stays at or below its limit. -/
theorem roundFix_le (top : Word) (v : Nat) : roundFix top v ≤ top.toNat := Nat.min_le_right _ _

/-- The magnitude of the arctangent is packed from at most the pattern of `PI` (R102). -/
theorem atan2Mag_eq_pack (y x : Word) : ∃ m, m ≤ fPi.toNat ∧ atan2Mag y x = pack false m := by
  have hPi : ∃ m, m ≤ fPi.toNat ∧ fPi = pack false m := ⟨_, le_refl _, by decide⟩
  have hZero : ∃ m, m ≤ fPi.toNat ∧ posZero = pack false m := ⟨0, by decide, by decide⟩
  have hHalf : ∃ m, m ≤ fPi.toNat ∧ fHalfPi = pack false m := ⟨fHalfPi.toNat, by decide, by decide⟩
  unfold atan2Mag
  split
  · split
    · split
      · exact ⟨fThreeQuarterPi.toNat, by decide, by decide⟩
      · exact ⟨fQuarterPi.toNat, by decide, by decide⟩
    · exact hHalf
  · split
    · split
      · exact hPi
      · exact hZero
    · split
      · split
        · exact hPi
        · exact hZero
      · split
        · exact hHalf
        · split
          · exact ⟨_, roundFix_le _ _, rfl⟩
          · exact ⟨_, roundFix_le _ _, rfl⟩

/-- The arctangent is NaN or within ±`PI` (R102, R104 P-ATAN2-RANGE). -/
theorem atan2Default_isNaN_or_within (y x : Word) :
    isNaN (atan2Default y x) = true ∨ within (fneg fPi) fPi (atan2Default y x) = true := by
  obtain ⟨m, hm, hpack⟩ := atan2Mag_eq_pack y x
  have htop : fPi.toNat ≤ infMag := by decide
  have hlo : fneg fPi = pack true fPi.toNat := by decide
  have hhi : fPi = pack false fPi.toNat := by decide
  unfold atan2Default
  split
  · exact .inl isNaN_canonNaN
  · refine .inr ?_
    rw [hlo]
    split
    · rw [hpack, fneg_pack_false (le_trans hm htop)]
      exact within_pack true hm htop
    · rw [hpack]
      exact within_pack false hm htop

/-- The hyperbolic tangent is the canonical NaN or within ±1.0 (R103, R104 P-TANH-RANGE). -/
theorem tanhDefault_eq_canonNaN_or_within (z : Word) :
    tanhDefault z = canonNaN ∨ within (fneg fOne) fOne (tanhDefault z) = true := by
  have htop : fOne.toNat ≤ infMag := by decide
  have hlo : fneg fOne = pack true fOne.toNat := by decide
  have hhi : fOne = pack false fOne.toNat := by decide
  unfold tanhDefault
  split
  · exact .inl rfl
  · refine .inr ?_
    split
    next hzero =>
      have hval := sval_of_isZero hzero
      refine within_iff.mpr ⟨by decide, isNaN_of_isZero hzero, by decide, ?_, ?_⟩
      · rw [hval]
        decide
      · rw [hval]
        decide
    · split
      · exact within_pack _ (le_refl _) htop
      · exact within_pack _ (roundFix_le _ _) htop

end Sys2Proof.Proofs
end

section
/-!
PROOFS. Every step keeps a safe state safe: the safety of the outputs said register by register, then one
lemma per unit for its record and its outputs, then the commands and the host's transactions.
-/
namespace Sys2Proof.Proofs

open Sys2Proof.Machine Sys2Proof.Config

/-! The safety predicate, taken apart. -/

/-- What `State.safe` asks of the word of one register; nothing of a register the host may write. -/
def outputSafe : Reg → Word → Bool
  | .hilAm, w => nanCanonical w && (isNaN w || fle posZero w)
  | .hilFm, w => nanCanonical w
  | .choOut, w => within (fneg f10) f10 w
  | .wahOut, w => within (fneg f10) f10 w
  | .octOut, w => nanCanonical w
  | .hybOut, w => nanCanonical w && (isNaN w || within (fneg fOne) fOne w)
  | _, _ => true

/-- The outputs are safe when each register's word is. -/
theorem outputsSafe_iff {x : Regs} :
    outputsSafe x = true ↔ ∀ r, outputSafe r (getReg x r) = true := by
  constructor
  · intro h r
    simp only [outputsSafe, Bool.and_eq_true] at h
    obtain ⟨⟨⟨⟨⟨⟨⟨hAm, hFm⟩, hOct⟩, hHyb⟩, hAmSign⟩, hCho⟩, hWah⟩, hHybRange⟩ := h
    cases r
    case hilAm => exact Bool.and_eq_true_iff.mpr ⟨hAm, hAmSign⟩
    case hilFm => exact hFm
    case choOut => exact hCho
    case wahOut => exact hWah
    case octOut => exact hOct
    case hybOut => exact Bool.and_eq_true_iff.mpr ⟨hHyb, hHybRange⟩
    all_goals rfl
  · intro h
    obtain ⟨hAm, hAmSign⟩ := Bool.and_eq_true_iff.mp (h .hilAm)
    obtain ⟨hHyb, hHybRange⟩ := Bool.and_eq_true_iff.mp (h .hybOut)
    simp only [outputsSafe, Bool.and_eq_true]
    exact ⟨⟨⟨⟨⟨⟨⟨hAm, h .hilFm⟩, h .octOut⟩, hHyb⟩, hAmSign⟩, h .choOut⟩, h .wahOut⟩, hHybRange⟩

/-- Nothing is asked of a register the host may write (R24). -/
theorem outputSafe_of_readWrite {r : Reg} (w : Word) (h : isReadOnly r = false) :
    outputSafe r w = true := by
  cases r
  case hilAm | hilFm | choOut | wahOut | octOut | hybOut => cases h
  all_goals rfl

/-- `+0.0` is safe in every register (R206, R230). -/
theorem outputSafe_posZero (r : Reg) : outputSafe r posZero = true := by
  cases r <;> decide

/-- Storing a safe word keeps the outputs safe. -/
theorem outputsSafe_setReg {x : Regs} {r : Reg} {v : Word} (hx : outputsSafe x = true)
    (hv : outputSafe r v = true) : outputsSafe (setReg x r v) = true := by
  refine outputsSafe_iff.mpr fun q => ?_
  rw [getReg_setReg]
  split
  next hq => rwa [hq]
  · exact outputsSafe_iff.mp hx q

/-- Zeroing a register keeps the outputs safe (R206). -/
theorem outputsSafe_setReg_posZero {x : Regs} (r : Reg) (hx : outputsSafe x = true) :
    outputsSafe (setReg x r posZero) = true :=
  outputsSafe_setReg hx (outputSafe_posZero r)

theorem safe_iff {s : State} :
    s.safe = true ↔ hilSafe s.hil = true ∧ choSafe s.cho = true ∧ wahSafe s.wah = true ∧
      outputsSafe s.regs = true := by
  simp [State.safe, and_assoc]

/-! Replacing one unit's record and the registers, as every command of a unit does (R59). -/

theorem safe_withHil_withRegs {s : State} {h : HilState} {x : Regs} (hs : s.safe = true)
    (hh : hilSafe h = true) (hx : outputsSafe x = true) : ((s.withHil h).withRegs x).safe = true := by
  obtain ⟨_, hcho, hwah, _⟩ := safe_iff.mp hs
  exact safe_iff.mpr ⟨hh, hcho, hwah, hx⟩

theorem safe_withCho_withRegs {s : State} {c : ChoState} {x : Regs} (hs : s.safe = true)
    (hc : choSafe c = true) (hx : outputsSafe x = true) : ((s.withCho c).withRegs x).safe = true := by
  obtain ⟨hhil, _, hwah, _⟩ := safe_iff.mp hs
  exact safe_iff.mpr ⟨hhil, hc, hwah, hx⟩

theorem safe_withWah_withRegs {s : State} {w : WahState} {x : Regs} (hs : s.safe = true)
    (hw : wahSafe w = true) (hx : outputsSafe x = true) : ((s.withWah w).withRegs x).safe = true := by
  obtain ⟨hhil, hcho, _, _⟩ := safe_iff.mp hs
  exact safe_iff.mpr ⟨hhil, hcho, hw, hx⟩

/-- The safety of a state says nothing of OCT's record (R33). -/
theorem safe_withOct_withRegs {s : State} (o : OctState) {x : Regs} (hs : s.safe = true)
    (hx : outputsSafe x = true) : ((s.withOct o).withRegs x).safe = true := by
  obtain ⟨hhil, hcho, hwah, _⟩ := safe_iff.mp hs
  exact safe_iff.mpr ⟨hhil, hcho, hwah, hx⟩

/-- The safety of a state says nothing of HYB's record (R34). -/
theorem safe_withHyb_withRegs {s : State} (y : HybState) {x : Regs} (hs : s.safe = true)
    (hx : outputsSafe x = true) : ((s.withHyb y).withRegs x).safe = true := by
  obtain ⟨hhil, hcho, hwah, _⟩ := safe_iff.mp hs
  exact safe_iff.mpr ⟨hhil, hcho, hwah, hx⟩

/-- The outputs of a safe state are safe. -/
theorem outputsSafe_of_safe {s : State} (hs : s.safe = true) : outputsSafe s.regs = true :=
  (safe_iff.mp hs).2.2.2

/-- The canonical NaN and every number have a canonical pattern (R92). -/
theorem nanCanonical_of_cases {w : Word} (h : w = canonNaN ∨ isNaN w = false) :
    nanCanonical w = true := by
  rcases h with rfl | h
  · decide
  · simp [nanCanonical, h]

/-! HIL. -/

/-- A tick that finds a phase that is NaN or within ±`PI` keeps HIL's record safe (R30, R122). -/
theorem hilSafe_hilAfter {h : HilState} {th : Word} (x : Word) (hs : hilSafe h = true)
    (hth : isNaN th = true ∨ within (fneg fPi) fPi th = true) : hilSafe (hilAfter h x th) = true := by
  have hbuf : Memory.wf hilTaps h.buf = true := (Bool.and_eq_true_iff.mp hs).1
  exact Bool.and_eq_true_iff.mpr ⟨memWrite_wf hbuf h.wp.isLt, Bool.or_eq_true_iff.mpr hth⟩

/-- The amplitude is the canonical NaN or a number at least zero (R125). -/
theorem outputSafe_hilAmplitude (re im : Word) :
    outputSafe .hilAm (hilAmplitude defaultNum re im) = true :=
  Bool.and_eq_true_iff.mpr
    ⟨nanCanonical_of_cases (fsqrt_nan _), Bool.or_eq_true_iff.mpr (fsqrt_isNaN_or_nonneg _)⟩

/-- The frequency is a number or the canonical NaN (R92, R124). -/
theorem outputSafe_hilFrequency (d fs : Word) :
    outputSafe .hilFm (hilFrequency defaultNum d fs) = true :=
  nanCanonical_of_cases (fdiv_nan _ _)

theorem safe_hilTickNext {s : State} (d : Word) (hs : s.safe = true) :
    (hilTickNext defaultParams s d).safe = true := by
  obtain ⟨hhil, _, _, hout⟩ := safe_iff.mp hs
  exact safe_withHil_withRegs hs (hilSafe_hilAfter _ hhil (atan2Default_isNaN_or_within _ _))
    (outputsSafe_setReg (outputsSafe_setReg hout (outputSafe_hilAmplitude _ _))
      (outputSafe_hilFrequency _ _))

/-! CHO. -/

/-- A tick keeps a voice safe: both buffers take one write in range and the phase is wrapped (R31, R144,
R145). -/
theorem voiceSafe_choVoiceAfter {V : Voice} (x : Regs) (i : Nat) (hV : voiceSafe V = true) :
    voiceSafe (choVoiceAfter defaultNum x i V) = true := by
  simp only [voiceSafe, Bool.and_eq_true] at hV
  obtain ⟨⟨ham, hfm⟩, _⟩ := hV
  simp only [voiceSafe, Bool.and_eq_true]
  exact ⟨⟨memWrite_wf ham V.wp.isLt, memWrite_wf hfm V.wp.isLt⟩,
    Bool.or_eq_true_iff.mpr (wrap2pi_isNaN_or_inRange _)⟩

/-- The five voices are safe and share their write pointer (R31). -/
theorem choSafe_iff {c : ChoState} :
    choSafe c = true ↔
      (voiceSafe c.v0 = true ∧ voiceSafe c.v1 = true ∧ voiceSafe c.v2 = true ∧
        voiceSafe c.v3 = true ∧ voiceSafe c.v4 = true) ∧
      c.v1.wp = c.v0.wp ∧ c.v2.wp = c.v0.wp ∧ c.v3.wp = c.v0.wp ∧ c.v4.wp = c.v0.wp := by
  simp [choSafe, and_assoc]

/-- Equal write pointers advance to equal ones (R148). -/
theorem choVoiceAfter_wp_congr {N : NumConfig} {x : Regs} {i j : Nat} {V W : Voice}
    (h : V.wp = W.wp) : (choVoiceAfter N x i V).wp = (choVoiceAfter N x j W).wp :=
  congrArg ringNext h

/-- A tick keeps CHO's record safe (R31, R142). -/
theorem choSafe_choAfter {c : ChoState} (x : Regs) (hc : choSafe c = true) :
    choSafe (choAfter defaultNum x c) = true := by
  obtain ⟨⟨h0, h1, h2, h3, h4⟩, p1, p2, p3, p4⟩ := choSafe_iff.mp hc
  exact choSafe_iff.mpr
    ⟨⟨voiceSafe_choVoiceAfter x 0 h0, voiceSafe_choVoiceAfter x 1 h1,
        voiceSafe_choVoiceAfter x 2 h2, voiceSafe_choVoiceAfter x 3 h3,
        voiceSafe_choVoiceAfter x 4 h4⟩,
      choVoiceAfter_wp_congr p1, choVoiceAfter_wp_congr p2, choVoiceAfter_wp_congr p3,
      choVoiceAfter_wp_congr p4⟩

/-- The default bounds of `CHO_OUT` and `WAH_OUT` are in order (R8). -/
theorem fle_fneg_f10 : fle (fneg f10) f10 = true := by decide

/-- `CHO_OUT` is clamped to the default bounds (R147). -/
theorem outputSafe_choOutput (sum : Word) :
    outputSafe .choOut (choOutput defaultParams sum) = true :=
  within_clamp _ fle_fneg_f10

theorem safe_choTickWith {s : State} (hs : s.safe = true) :
    (choTickWith defaultParams s).safe = true := by
  obtain ⟨_, hcho, _, hout⟩ := safe_iff.mp hs
  exact safe_withCho_withRegs hs (choSafe_choAfter _ hcho)
    (outputsSafe_setReg hout (outputSafe_choOutput _))

/-! WAH. -/

theorem wahSafe_iff {w : WahState} :
    wahSafe w = true ↔ within posZero f20000 w.x1 = true ∧ within posZero f20000 w.x2 = true ∧
      within fMinus1000 f1000 w.y1 = true ∧ within fMinus1000 f1000 w.y2 = true ∧
      phaseInRange w.ph = true := by
  simp [wahSafe, and_assoc]

/-- The increment is clamped to ±`HALF_PI`, whatever the inputs (R165). -/
theorem within_wahIncrement (N : NumConfig) (x : Regs) (w : WahState) :
    within (fneg fHalfPi) fHalfPi (wahIncrement N x w) = true :=
  within_clamp _ (by decide)

/-- A phase in [0, `TWO_PI`) is in it again after the tick (R165). -/
theorem phaseInRange_wahPhase {w : WahState} (x : Regs) (h : phaseInRange w.ph = true) :
    phaseInRange (wahPhase defaultNum x w) = true :=
  phaseInRange_wrap2pi (isFinite_phase_add h (within_wahIncrement _ _ _))

/-- A tick keeps WAH's record safe: each new history is clamped, each older one moves down (R32, R163,
R164). -/
theorem wahSafe_wahAfter {w : WahState} (x : Regs) (hw : wahSafe w = true) :
    wahSafe (wahAfter defaultNum x w) = true := by
  obtain ⟨hx1, _, hy1, _, hph⟩ := wahSafe_iff.mp hw
  exact wahSafe_iff.mpr ⟨within_clamp _ (by decide), hx1, within_clamp _ (by decide), hy1,
    phaseInRange_wahPhase x hph⟩

/-- `WAH_OUT` is clamped to the default bounds (R166). -/
theorem outputSafe_wahOutput (am ph : Word) :
    outputSafe .wahOut (wahOutput defaultParams am ph) = true :=
  within_clamp _ fle_fneg_f10

theorem safe_wahTickWith {s : State} (hs : s.safe = true) :
    (wahTickWith defaultParams s).safe = true := by
  obtain ⟨_, _, hwah, hout⟩ := safe_iff.mp hs
  exact safe_withWah_withRegs hs (wahSafe_wahAfter _ hwah)
    (outputsSafe_setReg hout (outputSafe_wahOutput _ _))

/-! OCT and HYB. -/

/-- A resynthesized word is a number or the canonical NaN (R92, R108). -/
theorem outputSafe_resynth (a ph : Word) : outputSafe .octOut (resynth defaultNum a ph) = true :=
  nanCanonical_of_cases (fmul_nan _ _)

theorem safe_octTickWith {s : State} (hs : s.safe = true) :
    (octTickWith defaultParams s).safe = true :=
  safe_withOct_withRegs _ hs (outputsSafe_setReg (outputsSafe_of_safe hs) (outputSafe_resynth _ _))

/-- The soft clip is the canonical NaN or within ±1.0 (R193). -/
theorem outputSafe_tanhDefault (z : Word) : outputSafe .hybOut (tanhDefault z) = true := by
  rcases tanhDefault_eq_canonNaN_or_within z with hnan | hin
  · rw [hnan]
    decide
  · have hnum : isNaN (tanhDefault z) = false := (within_iff.mp hin).2.1
    exact Bool.and_eq_true_iff.mpr
      ⟨nanCanonical_of_cases (.inr hnum), Bool.or_eq_true_iff.mpr (.inr hin)⟩

theorem safe_hybTickWith {s : State} (hs : s.safe = true) :
    (hybTickWith defaultParams s).safe = true :=
  safe_withHyb_withRegs _ hs (outputsSafe_setReg (outputsSafe_of_safe hs) (outputSafe_tanhDefault _))

/-! Commands and transactions. -/

/-- Every command keeps a safe state safe: a `TICK` by its unit's lemma, an `INIT` because reset values
are safe (R206). -/
theorem exec_keeps_safe {i : Instr} {s t : State} (hs : s.safe = true) (h : exec i s = .next t) :
    t.safe = true := by
  have hout := outputsSafe_of_safe hs
  cases i
  case hilTick =>
    obtain ⟨d, _, rfl⟩ := execHilTick_next h
    exact safe_hilTickNext d hs
  all_goals obtain rfl := Host.Outcome.next.inj h
  case nop => exact hs
  case choTick => exact safe_choTickWith hs
  case wahTick => exact safe_wahTickWith hs
  case octTick => exact safe_octTickWith hs
  case hybTick => exact safe_hybTickWith hs
  case hilInit =>
    exact safe_withHil_withRegs hs (by decide)
      (outputsSafe_setReg_posZero _ (outputsSafe_setReg_posZero _ hout))
  case choInit => exact safe_withCho_withRegs hs (by decide) (outputsSafe_setReg_posZero _ hout)
  case wahInit => exact safe_withWah_withRegs hs (by decide) (outputsSafe_setReg_posZero _ hout)
  case octInit => exact safe_withOct_withRegs _ hs (outputsSafe_setReg_posZero _ hout)
  case hybInit => exact safe_withHyb_withRegs _ hs (outputsSafe_setReg_posZero _ hout)

/-- The host's side has no part in the safety of a state. -/
@[simp] theorem safe_withHost (s : State) (h : HostSide) : (s.withHost h).safe = s.safe := rfl

/-- Every transaction keeps a safe state safe (R200 to R202, R230). -/
theorem perform_keeps_safe {tr : Transaction} {s t : State} (hs : s.safe = true)
    (h : perform tr s = .next t) : t.safe = true := by
  rcases perform_next h with ⟨_, _, _, _, hexec⟩ | ⟨r, v, _, hrw, rfl⟩ | ⟨_, _, rfl⟩ | ⟨_, rfl⟩
  · exact exec_keeps_safe hs hexec
  · obtain ⟨hhil, hcho, hwah, hout⟩ := safe_iff.mp hs
    exact safe_iff.mpr ⟨hhil, hcho, hwah, outputsSafe_setReg hout (outputSafe_of_readWrite v hrw)⟩
  · rwa [safe_withHost]
  · rw [safe_withHost]
    decide

/-- Settles O55: a step is no transaction or the next pending one, and each transaction keeps the
invariant. -/
theorem everyStepKeepsTheStateSafe : Obligations.EveryStepKeepsTheStateSafe := by
  intro s t hs hstep
  rcases step_cases s with ⟨_, hidle⟩ | ⟨tr, rest, _, hperform⟩
  · obtain rfl := Host.Outcome.next.inj (hidle.symm.trans hstep)
    exact hs
  · exact perform_keeps_safe (s := s.withHost (hostTakes s.host rest)) hs (hperform.symm.trans hstep)

end Sys2Proof.Proofs
end

section
/-!
PROOFS. The commands of a unit (R59): each computes an effect, a new record and words for the
unit's outputs, from what the unit holds, and applies it. The frame of a command, what it depends on and
the commutation of commands of different units follow from that.
-/
namespace Sys2Proof.Proofs

open Sys2Proof.Machine Sys2Proof.Config

/-! Effects. -/

/-- The type of a unit's record (R30 to R34). -/
def UnitRecord : UnitName → Type
  | .hil => HilState
  | .cho => ChoState
  | .wah => WahState
  | .oct => OctState
  | .hyb => HybState

/-- `s` with another record of one unit. -/
def withRecord : (u : UnitName) → UnitRecord u → State → State
  | .hil, h, s => s.withHil h
  | .cho, c, s => s.withCho c
  | .wah, w, s => s.withWah w
  | .oct, o, s => s.withOct o
  | .hyb, y, s => s.withHyb y

/-- The output registers of a unit, the only ones its commands write (R205, R206). -/
abbrev OutputReg (u : UnitName) : Type := { r : Reg // isOutputOf u r = true }

/-- What a command of a unit leaves: a record, and words for outputs of the unit, written in order. -/
structure CommandEffect (u : UnitName) where
  record : UnitRecord u
  outputs : List (OutputReg u × Word)

/-- The registers after the words are written in order. -/
def writeOutputs {u : UnitName} (x : Regs) : List (OutputReg u × Word) → Regs
  | [] => x
  | (r, v) :: rest => writeOutputs (setReg x r.val v) rest

/-- The state an effect leaves. -/
def CommandEffect.apply {u : UnitName} (e : CommandEffect u) (s : State) : State :=
  (withRecord u e.record s).withRegs (writeOutputs s.regs e.outputs)

section

variable {u v : UnitName} {x y : Regs} {r : Reg} {s s' : State}

/-- Writes to outputs keep every other register. -/
theorem getReg_writeOutputs_other (ws : List (OutputReg u × Word)) (hr : isOutputOf u r = false) :
    getReg (writeOutputs x ws) r = getReg x r := by
  induction ws generalizing x with
  | nil => rfl
  | cons w rest ih =>
    have hne : r ≠ w.1.val := by
      rintro rfl
      simp [w.1.property] at hr
    exact ih.trans (getReg_setReg_other x w.2 hne)

/-- The same writes keep a register alike that was alike. -/
theorem getReg_writeOutputs_congr (ws : List (OutputReg u × Word)) (h : getReg x r = getReg y r) :
    getReg (writeOutputs x ws) r = getReg (writeOutputs y ws) r := by
  induction ws generalizing x y with
  | nil => exact h
  | cons w rest ih => exact ih (by rw [getReg_setReg, getReg_setReg, h])

/-- An effect leaves the host's side alone. -/
theorem CommandEffect.apply_host (e : CommandEffect u) (s : State) :
    (e.apply s).host = s.host := by
  cases u <;> rfl

/-- An effect leaves its record, whatever the state was. -/
theorem CommandEffect.samePrivate_apply (e : CommandEffect u) (s s' : State) :
    SamePrivate u (e.apply s) (e.apply s') := by
  cases u <;> rfl

/-- An effect keeps the record of every other unit. -/
theorem CommandEffect.samePrivate_apply_other (e : CommandEffect u) (s : State) (h : v ≠ u) :
    SamePrivate v (e.apply s) s := by
  revert h
  cases u <;> cases v <;> simp [SamePrivate, CommandEffect.apply, withRecord, State.withRegs,
    State.withHil, State.withCho, State.withWah, State.withOct, State.withHyb]

/-- One effect on two states that agree for its unit leaves states that agree for it. -/
theorem CommandEffect.sameForUnit_apply (e : CommandEffect u) (h : SameForUnit u s s') :
    SameForUnit u (e.apply s) (e.apply s') :=
  ⟨fun r hr => getReg_writeOutputs_congr e.outputs (h.1 r hr), e.samePrivate_apply s s'⟩

end

/-! Agreement. -/

/-- The registers a command of the unit may read hold the same words (R59). -/
def SameRegs (u : UnitName) (x y : Regs) : Prop :=
  ∀ r, unitOfReg r = some u ∨ unitOfReg r = none → getReg x r = getReg y r

theorem sameForUnit_iff {u : UnitName} {s t : State} :
    SameForUnit u s t ↔ SameRegs u s.regs t.regs ∧ SamePrivate u s t := Iff.rfl

theorem samePrivate_refl (u : UnitName) (s : State) : SamePrivate u s s := by
  cases u <;> rfl

theorem samePrivate_symm {u : UnitName} {s t : State} (h : SamePrivate u s t) :
    SamePrivate u t s := by
  cases u <;> exact Eq.symm h

theorem sameForUnit_refl (u : UnitName) (s : State) : SameForUnit u s s :=
  ⟨fun _ _ => rfl, samePrivate_refl u s⟩

theorem sameForUnit_symm {u : UnitName} {s t : State} (h : SameForUnit u s t) :
    SameForUnit u t s :=
  ⟨fun r hr => (h.1 r hr).symm, samePrivate_symm h.2⟩

/-! HIL reads `HIL_IN` and `FS` (R122). -/

/-- The effect of `HIL.TICK` where the unwrapped phase difference is `d` (R122, R126). -/
def hilTickEffect (P : Params) (s : State) (d : Word) : CommandEffect .hil where
  record := hilAfter s.hil (getReg s.regs .hilIn) (hilTickPhase P s)
  outputs :=
    [(⟨.hilAm, rfl⟩, hilAmplitude P.num (hilTickRe s) (hilTickIm P s)),
      (⟨.hilFm, rfl⟩, hilFrequency P.num d (getReg s.regs .fs))]

theorem hilTickNext_eq_apply (P : Params) (s : State) (d : Word) :
    hilTickNext P s d = (hilTickEffect P s d).apply s := rfl

section

variable {P : Params} {s s' : State} (h : SameForUnit .hil s s')
include h

theorem hilIn_congr : getReg s.regs .hilIn = getReg s'.regs .hilIn := h.1 .hilIn (.inl rfl)

theorem hilRecord_congr : s.hil = s'.hil := h.2

theorem hilTickRe_congr : hilTickRe s = hilTickRe s' := by
  rw [hilTickRe, hilTickRe, hilIn_congr h, hilRecord_congr h]

theorem hilTickIm_congr : hilTickIm P s = hilTickIm P s' := by
  rw [hilTickIm, hilTickIm, hilIn_congr h, hilRecord_congr h]

theorem hilTickDelta_congr : hilTickDelta P s = hilTickDelta P s' := by
  rw [hilTickDelta, hilTickDelta, hilTickPhase_congr (hilTickRe_congr h) (hilTickIm_congr h),
    hilRecord_congr h]

theorem hilTickEffect_congr (d : Word) : hilTickEffect P s d = hilTickEffect P s' d := by
  have hfs : getReg s.regs .fs = getReg s'.regs .fs := h.1 .fs (.inr rfl)
  simp only [hilTickEffect, hfs, hilIn_congr h, hilRecord_congr h, hilTickRe_congr h,
    hilTickIm_congr h, hilTickPhase_congr (hilTickRe_congr h) (hilTickIm_congr h)]

end

/-! CHO reads its inputs, its two parameters, `FS` and `DT` (R142). -/

/-- The effect of `CHO.TICK` (R142, R147). -/
def choTickEffect (P : Params) (s : State) : CommandEffect .cho where
  record := choAfter P.num s.regs s.cho
  outputs := [(⟨.choOut, rfl⟩, choOutput P (choSum P.num s.regs s.cho))]

theorem choTickWith_eq_apply (P : Params) (s : State) :
    choTickWith P s = (choTickEffect P s).apply s := rfl

section

variable {N : NumConfig} {x y : Regs} (h : SameRegs .cho x y)
include h

theorem choDelaySamples_congr (i : Nat) : choDelaySamples N x i = choDelaySamples N y i := by
  rw [choDelaySamples, choDelaySamples, h .choDelay (.inl rfl), h .fs (.inr rfl)]

theorem choDetuneFactor_congr (i : Nat) : choDetuneFactor N x i = choDetuneFactor N y i := by
  rw [choDetuneFactor, choDetuneFactor, h .choDetune (.inl rfl)]

theorem choWriteAm_congr (V : Voice) : choWriteAm x V = choWriteAm y V := by
  rw [choWriteAm, choWriteAm, h .choAm (.inl rfl)]

theorem choWriteFm_congr (V : Voice) : choWriteFm x V = choWriteFm y V := by
  rw [choWriteFm, choWriteFm, h .choFm (.inl rfl)]

theorem choPhase_congr (i : Nat) (V : Voice) : choPhase N x i V = choPhase N y i V := by
  rw [choPhase, choPhase, choDelayedFm, choDelayedFm, choWriteFm_congr h, choDelaySamples_congr h,
    choDetuneFactor_congr h, h .dt (.inr rfl)]

theorem choVoiceAfter_congr (i : Nat) (V : Voice) :
    choVoiceAfter N x i V = choVoiceAfter N y i V := by
  rw [choVoiceAfter, choVoiceAfter, choWriteAm_congr h, choWriteFm_congr h, choPhase_congr h]

theorem choVoiceOut_congr (i : Nat) (V : Voice) : choVoiceOut N x i V = choVoiceOut N y i V := by
  rw [choVoiceOut, choVoiceOut, choDelayedAm, choDelayedAm, choWriteAm_congr h,
    choDelaySamples_congr h, choPhase_congr h]

theorem choAfter_congr (c : ChoState) : choAfter N x c = choAfter N y c := by
  simp only [choAfter, choVoiceAfter_congr h]

theorem choSum_congr (c : ChoState) : choSum N x c = choSum N y c := by
  simp only [choSum, choVoiceOut_congr h]

end

theorem choTickEffect_congr {P : Params} {s s' : State} (h : SameForUnit .cho s s') :
    choTickEffect P s = choTickEffect P s' := by
  obtain ⟨hregs, hrecord⟩ := sameForUnit_iff.mp h
  have hcho : s.cho = s'.cho := hrecord
  simp only [choTickEffect, hcho, choAfter_congr hregs, choSum_congr hregs]

/-! WAH reads its inputs, its two parameters, `FS` and `DT` (R161). -/

/-- The effect of `WAH.TICK` (R161, R166). -/
def wahTickEffect (P : Params) (s : State) : CommandEffect .wah where
  record := wahAfter P.num s.regs s.wah
  outputs :=
    [(⟨.wahOut, rfl⟩, wahOutput P (getReg s.regs .wahAm) (wahPhase P.num s.regs s.wah))]

theorem wahTickWith_eq_apply (P : Params) (s : State) :
    wahTickWith P s = (wahTickEffect P s).apply s := rfl

section

variable {N : NumConfig} {x y : Regs} (h : SameRegs .wah x y)
include h

theorem wahInUsed_congr : wahInUsed x = wahInUsed y := by
  rw [wahInUsed, wahInUsed, h .wahFm (.inl rfl)]

theorem wahCoefs_congr : wahCoefs N x = wahCoefs N y := by
  rw [wahCoefs, wahCoefs, wahFcUsed, wahFcUsed, wahQUsed, wahQUsed, h .wahFc (.inl rfl),
    h .wahQ (.inl rfl), h .fs (.inr rfl)]

theorem wahSmoothed_congr (w : WahState) : wahSmoothed N x w = wahSmoothed N y w := by
  rw [wahSmoothed, wahSmoothed, wahCoefs_congr h, wahInUsed_congr h]

theorem wahPhase_congr (w : WahState) : wahPhase N x w = wahPhase N y w := by
  rw [wahPhase, wahPhase, wahIncrement, wahIncrement, wahSmoothed_congr h, h .dt (.inr rfl)]

theorem wahAfter_congr (w : WahState) : wahAfter N x w = wahAfter N y w := by
  rw [wahAfter, wahAfter, wahInUsed_congr h, wahSmoothed_congr h, wahPhase_congr h]

end

theorem wahTickEffect_congr {P : Params} {s s' : State} (h : SameForUnit .wah s s') :
    wahTickEffect P s = wahTickEffect P s' := by
  obtain ⟨hregs, hrecord⟩ := sameForUnit_iff.mp h
  have hwah : s.wah = s'.wah := hrecord
  simp only [wahTickEffect, hwah, wahAfter_congr hregs, wahPhase_congr hregs,
    hregs .wahAm (.inl rfl)]

/-! OCT reads its inputs, its control and `DT` (R181). -/

/-- The effect of `OCT.TICK` (R181, R183). -/
def octTickEffect (P : Params) (s : State) : CommandEffect .oct where
  record := (⟨octPhase P.num s.regs s.oct⟩ : OctState)
  outputs :=
    [(⟨.octOut, rfl⟩, resynth P.num (getReg s.regs .octAm) (octPhase P.num s.regs s.oct))]

theorem octTickWith_eq_apply (P : Params) (s : State) :
    octTickWith P s = (octTickEffect P s).apply s := rfl

theorem octPhase_congr {N : NumConfig} {x y : Regs} (h : SameRegs .oct x y) (o : OctState) :
    octPhase N x o = octPhase N y o := by
  rw [octPhase, octPhase, octAdvanced, octAdvanced, h .octFm (.inl rfl), h .octCtrl (.inl rfl),
    h .dt (.inr rfl)]

theorem octTickEffect_congr {P : Params} {s s' : State} (h : SameForUnit .oct s s') :
    octTickEffect P s = octTickEffect P s' := by
  obtain ⟨hregs, hrecord⟩ := sameForUnit_iff.mp h
  have hoct : s.oct = s'.oct := hrecord
  simp only [octTickEffect, hoct, octPhase_congr hregs, hregs .octAm (.inl rfl)]

/-! HYB reads its inputs, its mix control and `DT` (R191). -/

/-- The effect of `HYB.TICK` (R191, R193). -/
def hybTickEffect (P : Params) (s : State) : CommandEffect .hyb where
  record := (⟨hybSmoothed P.num s.regs s.hyb, hybPhase P.num s.regs s.hyb⟩ : HybState)
  outputs :=
    [(⟨.hybOut, rfl⟩,
      P.num.tanh (resynth P.num (getReg s.regs .hybAm) (hybPhase P.num s.regs s.hyb)))]

theorem hybTickWith_eq_apply (P : Params) (s : State) :
    hybTickWith P s = (hybTickEffect P s).apply s := rfl

section

variable {N : NumConfig} {x y : Regs} (h : SameRegs .hyb x y)
include h

theorem hybSmoothed_congr (z : HybState) : hybSmoothed N x z = hybSmoothed N y z := by
  rw [hybSmoothed, hybSmoothed, hybMixed, hybMixed, h .hybMix (.inl rfl), h .hybFm1 (.inl rfl),
    h .hybFm2 (.inl rfl)]

theorem hybPhase_congr (z : HybState) : hybPhase N x z = hybPhase N y z := by
  rw [hybPhase, hybPhase, hybSmoothed_congr h, h .dt (.inr rfl)]

end

theorem hybTickEffect_congr {P : Params} {s s' : State} (h : SameForUnit .hyb s s') :
    hybTickEffect P s = hybTickEffect P s' := by
  obtain ⟨hregs, hrecord⟩ := sameForUnit_iff.mp h
  have hhyb : s.hyb = s'.hyb := hrecord
  simp only [hybTickEffect, hhyb, hybSmoothed_congr hregs, hybPhase_congr hregs,
    hregs .hybAm (.inl rfl)]

/-! Every command. -/

/-- The effect of `INIT`: the zero record and zero outputs, on every state (R206). -/
def initEffect : (u : UnitName) → CommandEffect u
  | .hil => ⟨HilState.reset, [(⟨.hilAm, rfl⟩, posZero), (⟨.hilFm, rfl⟩, posZero)]⟩
  | .cho => ⟨ChoState.reset, [(⟨.choOut, rfl⟩, posZero)]⟩
  | .wah => ⟨WahState.reset, [(⟨.wahOut, rfl⟩, posZero)]⟩
  | .oct => ⟨OctState.reset, [(⟨.octOut, rfl⟩, posZero)]⟩
  | .hyb => ⟨HybState.reset, [(⟨.hybOut, rfl⟩, posZero)]⟩

theorem exec_initOfUnit (u : UnitName) (s : State) :
    exec (initOfUnit u) s = .next ((initEffect u).apply s) := by
  cases u <;> rfl

/-- A command of a unit that completes from `s` has one effect, which it leaves from every state that
agrees with `s` for the unit (R59). -/
theorem exec_has_effect {i : Instr} {u : UnitName} {s t : State} (hu : unitOf i = some u)
    (h : exec i s = .next t) :
    ∃ e : CommandEffect u, ∀ s', SameForUnit u s s' → exec i s' = .next (e.apply s') := by
  cases i
  case nop => cases hu
  all_goals obtain rfl := Option.some.inj hu
  case hilTick =>
    obtain ⟨d, hd, _⟩ := execHilTick_next h
    refine ⟨hilTickEffect defaultParams s d, fun s' hs => ?_⟩
    rw [hilTickEffect_congr hs, ← hilTickNext_eq_apply]
    exact execHilTick_of_delta ((hilTickDelta_congr hs).symm.trans hd)
  case choTick =>
    refine ⟨choTickEffect defaultParams s, fun s' hs => ?_⟩
    rw [choTickEffect_congr hs, ← choTickWith_eq_apply, exec, execChoTick]
  case wahTick =>
    refine ⟨wahTickEffect defaultParams s, fun s' hs => ?_⟩
    rw [wahTickEffect_congr hs, ← wahTickWith_eq_apply, exec, execWahTick]
  case octTick =>
    refine ⟨octTickEffect defaultParams s, fun s' hs => ?_⟩
    rw [octTickEffect_congr hs, ← octTickWith_eq_apply, exec, execOctTick]
  case hybTick =>
    refine ⟨hybTickEffect defaultParams s, fun s' hs => ?_⟩
    rw [hybTickEffect_congr hs, ← hybTickWith_eq_apply, exec, execHybTick]
  case hilInit => exact ⟨initEffect .hil, fun s' _ => exec_initOfUnit .hil s'⟩
  case choInit => exact ⟨initEffect .cho, fun s' _ => exec_initOfUnit .cho s'⟩
  case wahInit => exact ⟨initEffect .wah, fun s' _ => exec_initOfUnit .wah s'⟩
  case octInit => exact ⟨initEffect .oct, fun s' _ => exec_initOfUnit .oct s'⟩
  case hybInit => exact ⟨initEffect .hyb, fun s' _ => exec_initOfUnit .hyb s'⟩

/-- The state a command of a unit leaves is its effect on the state it began from. -/
theorem exec_eq_apply {i : Instr} {u : UnitName} {s t : State} (hu : unitOf i = some u)
    (h : exec i s = .next t) :
    ∃ e : CommandEffect u, t = e.apply s ∧
      ∀ s', SameForUnit u s s' → exec i s' = .next (e.apply s') := by
  obtain ⟨e, he⟩ := exec_has_effect hu h
  exact ⟨e, Host.Outcome.next.inj (h.symm.trans (he s (sameForUnit_refl u s))), he⟩

/-- Settles O15: an effect writes its unit's outputs and record. -/
theorem commandWritesOnlyItsUnit : Obligations.CommandWritesOnlyItsUnit := by
  intro i u s t hu h
  obtain ⟨e, rfl, _⟩ := exec_eq_apply hu h
  exact ⟨fun _ hr => getReg_writeOutputs_other e.outputs hr,
    fun _ hv => e.samePrivate_apply_other s hv, e.apply_host s⟩

/-- Settles O16: the effect found from the one state is the command's effect on the other. -/
theorem commandReadsOnlyItsUnit : Obligations.CommandReadsOnlyItsUnit := by
  intro i u s s' t hu hsame h
  obtain ⟨e, rfl, he⟩ := exec_eq_apply hu h
  exact ⟨e.apply s', he s' hsame, e.sameForUnit_apply hsame⟩

/-! Two units. -/

/-- A register of one unit, `FS` and `DT` are no outputs of another unit. -/
theorem isOutputOf_eq_false {u v : UnitName} {r : Reg} (huv : u ≠ v)
    (hr : unitOfReg r = some v ∨ unitOfReg r = none) : isOutputOf u r = false := by
  rcases hr with hr | hr
  · simp [isOutputOf, hr, Ne.symm huv]
  · simp [isOutputOf, hr]

/-- An effect of one unit leaves a state that agrees with the old one for every other unit (R59). -/
theorem CommandEffect.sameForUnit_apply_other {u v : UnitName} (e : CommandEffect u) (s : State)
    (huv : u ≠ v) : SameForUnit v s (e.apply s) :=
  sameForUnit_symm ⟨fun _ hr => getReg_writeOutputs_other e.outputs (isOutputOf_eq_false huv hr),
    e.samePrivate_apply_other s huv.symm⟩

/-- No register is an output of two units. -/
theorem isOutputOf_disjoint {u v : UnitName} {r : Reg} (huv : u ≠ v) (hr : isOutputOf v r = true) :
    isOutputOf u r = false := by
  simp only [isOutputOf, Bool.and_eq_true, beq_iff_eq] at hr
  exact isOutputOf_eq_false huv (.inl hr.2)

/-- Writes to outputs of different units commute: no register takes words from both. -/
theorem writeOutputs_comm {u v : UnitName} (x : Regs) (ws : List (OutputReg u × Word))
    (ws' : List (OutputReg v × Word)) (huv : u ≠ v) :
    writeOutputs (writeOutputs x ws') ws = writeOutputs (writeOutputs x ws) ws' := by
  refine regs_ext fun r => ?_
  cases hr : isOutputOf v r with
  | true =>
    have hr' := isOutputOf_disjoint huv hr
    rw [getReg_writeOutputs_other ws hr']
    exact getReg_writeOutputs_congr ws' (getReg_writeOutputs_other ws hr').symm
  | false =>
    rw [getReg_writeOutputs_other ws' hr]
    exact getReg_writeOutputs_congr ws (getReg_writeOutputs_other ws' hr)

/-- New records of different units commute. -/
theorem withRecord_comm {u v : UnitName} (p : UnitRecord u) (q : UnitRecord v) (s : State)
    (huv : u ≠ v) : withRecord u p (withRecord v q s) = withRecord v q (withRecord u p s) := by
  revert huv
  cases u <;> cases v <;> simp [withRecord, State.withHil, State.withCho, State.withWah,
    State.withOct, State.withHyb]

/-- Two effects in a row: both records, and the second's words after the first's. -/
theorem CommandEffect.apply_apply {u v : UnitName} (e : CommandEffect u) (f : CommandEffect v)
    (s : State) :
    e.apply (f.apply s) = (withRecord u e.record (withRecord v f.record s)).withRegs
      (writeOutputs (writeOutputs s.regs f.outputs) e.outputs) := by
  cases u <;> rfl

/-- Effects of different units commute, in the records and in the registers (R59). -/
theorem CommandEffect.apply_comm {u v : UnitName} (e : CommandEffect u) (f : CommandEffect v)
    (s : State) (huv : u ≠ v) : e.apply (f.apply s) = f.apply (e.apply s) := by
  rw [e.apply_apply, f.apply_apply, withRecord_comm _ _ s huv, writeOutputs_comm _ _ _ huv]

/-- Settles O17: neither command's effect changes what the other reads, and the two effects commute. -/
theorem commandsOfDifferentUnitsCommute : Obligations.CommandsOfDifferentUnitsCommute := by
  intro i j u v s a b hu hv huv hi hj
  obtain ⟨e, rfl, he⟩ := exec_eq_apply hu hi
  obtain ⟨f, rfl, hf⟩ := exec_eq_apply hv hj
  have hfirst : exec j s = .next (f.apply s) :=
    hf s (sameForUnit_symm (e.sameForUnit_apply_other s huv))
  have hsecond : exec i (f.apply s) = .next (e.apply (f.apply s)) :=
    he _ (f.sameForUnit_apply_other s huv.symm)
  rw [e.apply_comm f s huv] at hsecond
  exact ⟨f.apply s, hfirst, hsecond⟩

end Sys2Proof.Proofs
end

section
/-!
PROOFS. The encoding of commands (R71 to R75): a word and its three fields determine each other, the
decoder accepts exactly the fields of the opcode map, and those are exactly the fields that pass the
checks of format `C`. A word outside the map is reserved, and its write to `CMD` is refused.
-/
namespace Sys2Proof.Proofs

open Sys2Proof.Machine

/-! A word and its fields (R71). -/

@[simp] theorem toNat_fieldsOf_zero (w : Word) : (fieldsOf w).zero.toNat = w.toNat / 2 ^ 8 := by
  have hw := w.isLt
  simp only [fieldsOf, BitVec.extractLsb'_toNat, Nat.shiftRight_eq_div_pow]
  omega

@[simp] theorem toNat_fieldsOf_func (w : Word) :
    (fieldsOf w).func.toNat = w.toNat / 2 ^ 4 % 2 ^ 4 := by
  simp only [fieldsOf, BitVec.extractLsb'_toNat, Nat.shiftRight_eq_div_pow]

@[simp] theorem toNat_fieldsOf_unit (w : Word) : (fieldsOf w).unit.toNat = w.toNat % 2 ^ 4 := by
  simp only [fieldsOf, BitVec.extractLsb'_toNat, Nat.shiftRight_zero]

/-- Fields are equal when the three numbers are. -/
theorem commandFields_eq_of_toNat {c d : CommandFields} (hzero : c.zero.toNat = d.zero.toNat)
    (hfunc : c.func.toNat = d.func.toNat) (hunit : c.unit.toNat = d.unit.toNat) : c = d := by
  cases c
  cases d
  simp only [CommandFields.mk.injEq]
  exact ⟨BitVec.eq_of_toNat_eq hzero, BitVec.eq_of_toNat_eq hfunc, BitVec.eq_of_toNat_eq hunit⟩

/-- The word of three fields is their weighted sum, `ZERO` above `FUNC` above `UNIT` (R71, R9). -/
theorem toNat_wordOf (c : CommandFields) :
    (wordOf c).toNat = 2 ^ 4 * (2 ^ 4 * c.zero.toNat + c.func.toNat) + c.unit.toNat := by
  rw [wordOf, BitVec.toNat_append, BitVec.toNat_append, ← Nat.shiftLeft_add_eq_or_of_lt c.unit.isLt,
    ← Nat.shiftLeft_add_eq_or_of_lt c.func.isLt, Nat.shiftLeft_eq, Nat.shiftLeft_eq,
    Nat.mul_comm, Nat.mul_comm c.zero.toNat]

theorem wordOf_fieldsOf (w : Word) : wordOf (fieldsOf w) = w := by
  apply BitVec.eq_of_toNat_eq
  simp only [toNat_wordOf, toNat_fieldsOf_zero, toNat_fieldsOf_func, toNat_fieldsOf_unit]
  omega

theorem fieldsOf_wordOf (c : CommandFields) : fieldsOf (wordOf c) = c := by
  have hfunc := c.func.isLt
  have hunit := c.unit.isLt
  apply commandFields_eq_of_toNat
  case hzero => rw [toNat_fieldsOf_zero, toNat_wordOf]; omega
  case hfunc => rw [toNat_fieldsOf_func, toNat_wordOf]; omega
  case hunit => rw [toNat_fieldsOf_unit, toNat_wordOf]; omega

/-- Format `C` loses nothing: fields and word determine each other (R71). -/
theorem fieldsOf_eq_iff {w : Word} {c : CommandFields} : fieldsOf w = c ↔ w = wordOf c :=
  ⟨fun h => by rw [← h, wordOf_fieldsOf], fun h => by rw [h, fieldsOf_wordOf]⟩

/-! The decoder accepts exactly the fields of the opcode map (R72, R73). -/

/-- The commands' own laws, as one statement over all commands. -/
theorem commandWords (i : Instr) : Laws.CommandWords.Statement i :=
  match i with
  | .nop => Laws.CommandWords.nop
  | .hilTick => Laws.CommandWords.hilTick
  | .choTick => Laws.CommandWords.choTick
  | .wahTick => Laws.CommandWords.wahTick
  | .octTick => Laws.CommandWords.octTick
  | .hybTick => Laws.CommandWords.hybTick
  | .hilInit => Laws.CommandWords.hilInit
  | .choInit => Laws.CommandWords.choInit
  | .wahInit => Laws.CommandWords.wahInit
  | .octInit => Laws.CommandWords.octInit
  | .hybInit => Laws.CommandWords.hybInit

theorem fields_wellFormed (i : Instr) : i.fields.wellFormed = true := (commandWords i).1

theorem decode_encode (i : Instr) : decode (encode i) = .ok i := (commandWords i).2

theorem fields_zero (i : Instr) : i.fields.zero = 0 := by
  cases i <;> rfl

/-- The `TICK` of unit `u` has `FUNC` 1 and `UNIT` `u` (R72, R73). -/
theorem fields_of_tickOf {u : Nat} {i : Instr} (h : tickOf u = some i) :
    i.fields.func.toNat = 1 ∧ i.fields.unit.toNat = u := by
  unfold tickOf at h
  split at h <;> cases h <;> exact ⟨rfl, rfl⟩

/-- The `INIT` of unit `u` has `FUNC` 2 and `UNIT` `u` (R72, R73). -/
theorem fields_of_initOf {u : Nat} {i : Instr} (h : initOf u = some i) :
    i.fields.func.toNat = 2 ∧ i.fields.unit.toNat = u := by
  unfold initOf at h
  split at h <;> cases h <;> exact ⟨rfl, rfl⟩

/-- A pair of values answers a command only where the opcode map gives that command the pair. -/
theorem fields_of_commandOf {f u : Nat} {i : Instr} (h : commandOf f u = .ok i) :
    i.fields.func.toNat = f ∧ i.fields.unit.toNat = u := by
  match f with
  | 0 =>
    simp only [commandOf] at h
    split at h
    next hu =>
      cases h
      exact ⟨rfl, hu.symm⟩
    · cases h
  | 1 =>
    simp only [commandOf] at h
    cases ht : tickOf u with
    | none => simp [ht] at h
    | some j =>
      obtain rfl : j = i := by simpa [ht] using h
      exact fields_of_tickOf ht
  | 2 =>
    simp only [commandOf] at h
    cases ht : initOf u with
    | none => simp [ht] at h
    | some j =>
      obtain rfl : j = i := by simpa [ht] using h
      exact fields_of_initOf ht
  | _ + 3 => simp [commandOf] at h

/-- A word decodes to a command exactly when its fields are the command's (R72). -/
theorem decode_eq_ok_iff {w : Word} {i : Instr} : decode w = .ok i ↔ fieldsOf w = i.fields := by
  constructor
  · intro h
    unfold decode at h
    split at h
    · cases h
    next hzero =>
      obtain ⟨hfunc, hunit⟩ := fields_of_commandOf h
      exact commandFields_eq_of_toNat (by rw [not_not.mp hzero, fields_zero]) hfunc.symm hunit.symm
  · intro h
    rw [fieldsOf_eq_iff.mp h]
    exact decode_encode i

/-- Settles O2: decoding is the equality of the fields, and a word is the word of its fields. -/
theorem decodeAcceptsExactlyTheEncodings : Obligations.DecodeAcceptsExactlyTheEncodings :=
  fun _ _ => decode_eq_ok_iff.trans fieldsOf_eq_iff

/-- Settles O1: the map by evaluation, its way back by `decode_encode`, and the reserved words by the
check each fails. -/
theorem opcodeMapWords : Obligations.OpcodeMapWords :=
  ⟨rfl, decode_encode .nop,
    decode_encode .hilTick, decode_encode .hilInit, decode_encode .choTick, decode_encode .choInit,
    decode_encode .wahTick, decode_encode .wahInit, decode_encode .octTick, decode_encode .octInit,
    decode_encode .hybTick, decode_encode .hybInit, rfl, rfl, rfl, rfl⟩

/-! Reserved words (R75). -/

/-- Every unit number up to 4 has a `TICK`. -/
theorem exists_tickOf {u : Nat} (h : u ≤ 4) : ∃ i, tickOf u = some i := by
  interval_cases u <;> exact ⟨_, rfl⟩

/-- Every unit number up to 4 has an `INIT`. -/
theorem exists_initOf {u : Nat} (h : u ≤ 4) : ∃ i, initOf u = some i := by
  interval_cases u <;> exact ⟨_, rfl⟩

/-- The opcode map has no gap: every pair of `FUNC` and `UNIT` that R71 allows is a command's. -/
theorem exists_fields {f u : Nat} (h : f = 0 ∧ u = 0 ∨ (f = 1 ∨ f = 2) ∧ u ≤ 4) :
    ∃ i : Instr, i.fields.func.toNat = f ∧ i.fields.unit.toNat = u := by
  obtain ⟨rfl, rfl⟩ | ⟨rfl | rfl, hu⟩ := h
  · exact ⟨.nop, rfl, rfl⟩
  · exact (exists_tickOf hu).imp fun _ => fields_of_tickOf
  · exact (exists_initOf hu).imp fun _ => fields_of_initOf

/-- The checks of format `C` on the fields' numbers: `ZERO` 0, and a `NOP` of unit 0 or a `TICK` or `INIT`
of a unit up to 4 (R71). -/
theorem wellFormed_iff_toNat {c : CommandFields} :
    c.wellFormed = true ↔ c.zero.toNat = 0 ∧
      (c.func.toNat = 0 ∧ c.unit.toNat = 0 ∨
        (c.func.toNat = 1 ∨ c.func.toNat = 2) ∧ c.unit.toNat ≤ 4) := by
  simp only [CommandFields.wellFormed, CommandFields.zeroOk, CommandFields.funcOk,
    CommandFields.unitOk, Bool.and_eq_true, beq_iff_eq, decide_eq_true_eq]
  split
  next hfunc => simp [hfunc, ← BitVec.toNat_inj]
  next hfunc =>
    have hfunc' : c.func.toNat ≠ 0 := fun h => hfunc (BitVec.eq_of_toNat_eq h)
    simp only [decide_eq_true_eq, ← BitVec.toNat_inj, BitVec.ofNat_eq_ofNat, BitVec.toNat_ofNat]
    omega

/-- Well-formed fields are those of some command (R73, R75). -/
theorem wellFormed_iff_exists {c : CommandFields} :
    c.wellFormed = true ↔ ∃ i : Instr, c = i.fields := by
  constructor
  · intro h
    obtain ⟨hzero, hpair⟩ := wellFormed_iff_toNat.mp h
    obtain ⟨i, hfunc, hunit⟩ := exists_fields hpair
    exact ⟨i, commandFields_eq_of_toNat (by rw [hzero, fields_zero]; rfl) hfunc.symm hunit.symm⟩
  · rintro ⟨i, rfl⟩
    exact fields_wellFormed i

/-- A word is reserved exactly when its fields fail a check (R71, R75). -/
theorem reservedWord_iff_not_wellFormed {w : Word} :
    ReservedWord w ↔ ¬ (fieldsOf w).wellFormed = true := by
  rw [wellFormed_iff_toNat, toNat_fieldsOf_zero, toNat_fieldsOf_func, toNat_fieldsOf_unit,
    ReservedWord]
  omega

/-- A word is reserved exactly when it is no command's word (R75). -/
theorem reservedWord_iff {w : Word} : ReservedWord w ↔ ∀ i, w ≠ encode i := by
  rw [reservedWord_iff_not_wellFormed, wellFormed_iff_exists, not_exists]
  exact forall_congr' fun _ => not_congr fieldsOf_eq_iff

/-- `execute` refuses every word that is no command's (R75, R204). -/
theorem execute_of_no_command {w : Word} (s : State) (h : ∀ i, w ≠ encode i) :
    execute w s = .refused (.reservedCommand w) := by
  unfold execute
  split
  next i hi => exact absurd (decodeAcceptsExactlyTheEncodings w i |>.mp hi) (h i)
  · rfl

/-- Settles O3: the fields that fail a check are those of no command, and the step that writes such a
word to `CMD` hands it to `execute`, which refuses it. -/
theorem reservedWordsAreRefused : Obligations.ReservedWordsAreRefused :=
  fun _ => ⟨reservedWord_iff, fun hw _ _ hp =>
    (step_of_pending hp).trans (execute_of_no_command _ (reservedWord_iff.mp hw))⟩

end Sys2Proof.Proofs
end

section
/-!
PROOFS. Rounding to nearest: a binary32 as a last place and a significand, `roundMag` as the nearest such
number with ties to even, and what follows for a sign and a magnitude packed into a word (R10, R91).
-/
namespace Sys2Proof.Proofs

open Sys2Proof.Machine Sys2Proof.Config

/-! Last place and significand (R10). -/

/-- A significand of at most 24 bits that fills them, or lies at the lowest last place. -/
def Normal (K q : Nat) : Prop := q ≤ 2 ^ 24 ∧ (K = 0 ∨ 2 ^ 23 ≤ q)

/-- The pattern `K·2^23 + q` stands for `q·2^K` units, also where `q` has just reached 2^24. -/
theorem mag_pack_significand (neg : Bool) {K q : Nat} (hq : Normal K q)
    (hlt : K * 2 ^ 23 + q < 2 ^ 31) : mag (pack neg (K * 2 ^ 23 + q)) = q * 2 ^ K := by
  obtain ⟨hq, hK⟩ := hq
  rw [mag_pack neg hlt]
  rcases Nat.lt_or_ge q (2 ^ 23) with hlow | hfull
  · obtain rfl : K = 0 := by omega
    have hdiv : (0 * 2 ^ 23 + q) / 2 ^ 23 = 0 := by omega
    have hmod : (0 * 2 ^ 23 + q) % 2 ^ 23 = q := by omega
    rw [hdiv, hmod, if_pos rfl, pow_zero, Nat.mul_one]
  · rcases Nat.eq_or_lt_of_le hq with rfl | hq
    · have hdiv : (K * 2 ^ 23 + 2 ^ 24) / 2 ^ 23 = K + 2 := by omega
      have hmod : (K * 2 ^ 23 + 2 ^ 24) % 2 ^ 23 = 0 := by omega
      rw [hdiv, hmod, if_neg (by omega), show K + 2 - 1 = K + 1 by omega]
      ring
    · have hdiv : (K * 2 ^ 23 + q) / 2 ^ 23 = K + 1 := by omega
      have hmod : (K * 2 ^ 23 + q) % 2 ^ 23 = q - 2 ^ 23 := by omega
      rw [hdiv, hmod, if_neg (by omega), show K + 1 - 1 = K by omega,
        show 2 ^ 23 + (q - 2 ^ 23) = q by omega]

/-- A word is its sign and the 31 bits below it. -/
theorem pack_isNeg_low (w : Word) : pack (isNeg w) (w.toNat % 2 ^ 31) = w := by
  apply BitVec.eq_of_toNat_eq
  have hw := w.isLt
  rw [pack_toNat _ (Nat.mod_lt _ (by decide))]
  have hneg : isNeg w = decide (2 ^ 31 ≤ w.toNat) := by
    rw [isNeg, ← BitVec.msb_eq_getLsbD_last, BitVec.msb_eq_decide]
  rw [hneg]
  by_cases h : 2 ^ 31 ≤ w.toNat
  · simp only [h, decide_true, if_true]
    omega
  · simp only [h, decide_false, Bool.false_eq_true, if_false]
    omega

/-- Every word has a last place and a significand; they are its magnitude and its pattern. -/
theorem exists_significand (w : Word) : ∃ K q, Normal K q ∧ q < 2 ^ 24 ∧ mag w = q * 2 ^ K ∧
    w = pack (isNeg w) (K * 2 ^ 23 + q) ∧ K * 2 ^ 23 + q < 2 ^ 31 ∧
    (isFinite w = true → K ≤ 253) := by
  have hlow := pack_isNeg_low w
  have hexp : expField w = w.toNat % 2 ^ 31 / 2 ^ 23 := by
    rw [expField]
    omega
  have hfrac : fracField w = w.toNat % 2 ^ 31 % 2 ^ 23 := by
    rw [fracField]
    omega
  have hm : w.toNat % 2 ^ 31 < 2 ^ 31 := Nat.mod_lt _ (by decide)
  have hfin : isFinite w = true → expField w < 255 := by
    simp only [isFinite, bne_iff_ne]
    omega
  generalize w.toNat % 2 ^ 31 = m at hlow hexp hfrac hm
  by_cases h0 : expField w = 0
  · refine ⟨0, m, ⟨by omega, .inl rfl⟩, by omega, ?_, ?_, by omega, by omega⟩
    · rw [mag, if_pos h0]
      omega
    · rw [Nat.zero_mul, Nat.zero_add, hlow]
  · have hpat : (expField w - 1) * 2 ^ 23 + (2 ^ 23 + fracField w) = m := by omega
    refine ⟨expField w - 1, 2 ^ 23 + fracField w, ⟨by omega, .inr (by omega)⟩, by omega, ?_, ?_,
      by omega, fun hw => ?_⟩
    · rw [mag, if_neg h0]
    · rw [hpat, hlow]
    · have := hfin hw
      omega

/-- A finite magnitude is at most that of the greatest finite binary32. -/
theorem mag_le_of_isFinite {w : Word} (h : isFinite w = true) : mag w ≤ (2 ^ 24 - 1) * 2 ^ 253 := by
  obtain ⟨K, q, -, hq, hmag, -, -, hK⟩ := exists_significand w
  rw [hmag]
  exact Nat.mul_le_mul (by omega) (Nat.pow_le_pow_right (by decide) (hK h))

/-! Rounding a quotient to a whole number of last places. -/

/-- `roundDiv` answers a nearest natural, and an even one where two are as near. -/
theorem roundDiv_nearest {n e : Nat} (he : 0 < e) :
    2 * n ≤ (2 * roundDiv n e + 1) * e ∧ 2 * roundDiv n e * e ≤ 2 * n + e ∧
    (2 * n = (2 * roundDiv n e + 1) * e ∨ 2 * roundDiv n e * e = 2 * n + e →
      roundDiv n e % 2 = 0) := by
  have hn := Nat.div_add_mod n e
  have hlt := Nat.mod_lt n he
  rw [Nat.mul_comm] at hn
  unfold roundDiv
  generalize n / e = Q at *
  generalize n % e = ρ at *
  subst hn
  split
  · refine ⟨?_, ?_, ?_⟩
    · nlinarith
    · nlinarith
    · rintro (h | h) <;> nlinarith
  · split
    · refine ⟨?_, ?_, ?_⟩
      · nlinarith
      · nlinarith
      · rintro (h | h) <;> nlinarith
    · have hhalf : 2 * ρ = e := by omega
      have hpar : Q % 2 = 0 ∨ Q % 2 = 1 := by omega
      rcases hpar with h | h
      · rw [h, Nat.add_zero]
        exact ⟨by nlinarith, by nlinarith, fun _ => h⟩
      · rw [h]
        exact ⟨by nlinarith, by nlinarith, fun _ => by omega⟩

/-- The last place taken for `n / d` leaves a quotient below 2^24 last places, and one of at least 2^23
unless it is the lowest. -/
theorem lastPlace_bounds {n d : Nat} (hd : 0 < d) :
    n < 2 ^ 24 * (d * 2 ^ lastPlace n d) ∧
    (lastPlace n d = 0 ∨ 2 ^ 23 * (d * 2 ^ lastPlace n d) ≤ n) := by
  have hquot : n / d < 2 ^ ((n / d).log2 + 1) := Nat.lt_log2_self
  have hup : (n / d).log2 + 1 ≤ 24 + lastPlace n d := by
    rw [lastPlace]
    omega
  constructor
  · calc n < 2 ^ ((n / d).log2 + 1) * d := (Nat.div_lt_iff_lt_mul hd).mp hquot
      _ ≤ 2 ^ (24 + lastPlace n d) * d :=
        Nat.mul_le_mul_right _ (Nat.pow_le_pow_right (by decide) hup)
      _ = 2 ^ 24 * (d * 2 ^ lastPlace n d) := by ring
  · rcases Nat.eq_zero_or_pos (lastPlace n d) with h | h
    · exact .inl h
    · right
      have hlog : (n / d).log2 = 23 + lastPlace n d := by
        rw [lastPlace] at h ⊢
        omega
      have hne : n / d ≠ 0 := by
        intro h0
        rw [h0, Nat.log2_zero] at hlog
        omega
      calc 2 ^ 23 * (d * 2 ^ lastPlace n d) = d * 2 ^ (n / d).log2 := by
            rw [hlog]
            ring
        _ ≤ d * (n / d) := Nat.mul_le_mul_left _ (Nat.log2_self_le hne)
        _ ≤ n := Nat.mul_div_le n d

/-- The significand `roundMag` packs for `n / d`. -/
def roundedSignificand (n d : Nat) : Nat := roundDiv n (d * 2 ^ lastPlace n d)

theorem roundMag_eq (n d : Nat) :
    roundMag n d = min (lastPlace n d * 2 ^ 23 + roundedSignificand n d) infMag := rfl

/-- The significand for `n / d` is a nearest one at its last place, and an even one where two are as near. -/
theorem roundedSignificand_nearest {n d : Nat} (hd : 0 < d) :
    2 * n ≤ (2 * roundedSignificand n d + 1) * (d * 2 ^ lastPlace n d) ∧
    2 * roundedSignificand n d * (d * 2 ^ lastPlace n d) ≤ 2 * n + d * 2 ^ lastPlace n d ∧
    (2 * n = (2 * roundedSignificand n d + 1) * (d * 2 ^ lastPlace n d) ∨
        2 * roundedSignificand n d * (d * 2 ^ lastPlace n d) = 2 * n + d * 2 ^ lastPlace n d →
      roundedSignificand n d % 2 = 0) :=
  roundDiv_nearest (by positivity)

theorem normal_roundedSignificand {n d : Nat} (hd : 0 < d) :
    Normal (lastPlace n d) (roundedSignificand n d) := by
  obtain ⟨hup, hlow⟩ := lastPlace_bounds (n := n) hd
  obtain ⟨hn1, hn2, -⟩ := roundedSignificand_nearest (n := n) hd
  have he : 0 < d * 2 ^ lastPlace n d := by positivity
  unfold Normal
  generalize d * 2 ^ lastPlace n d = e at *
  generalize roundedSignificand n d = q at *
  constructor
  · by_contra h
    have : (2 * (2 ^ 24 + 1)) * e ≤ 2 * q * e := Nat.mul_le_mul_right _ (by omega)
    omega
  · refine hlow.imp_right fun hlow => ?_
    by_contra h
    have : (2 * q + 1) * e ≤ (2 * (2 ^ 23 - 1) + 1) * e := Nat.mul_le_mul_right _ (by omega)
    omega

/-- From the overflow bound on, and only there, `roundMag` gives the pattern of infinity (R91). -/
theorem infMag_le_iff {n d : Nat} (hd : 0 < d) :
    infMag ≤ lastPlace n d * 2 ^ 23 + roundedSignificand n d ↔ (2 ^ 25 - 1) * 2 ^ 252 * d ≤ n := by
  obtain ⟨hq, hnorm⟩ := normal_roundedSignificand (n := n) hd
  obtain ⟨hup, hlow⟩ := lastPlace_bounds (n := n) hd
  obtain ⟨hn1, hn2, htie⟩ := roundedSignificand_nearest (n := n) hd
  have hinf : infMag = 255 * 2 ^ 23 := by decide
  generalize roundedSignificand n d = q at *
  generalize lastPlace n d = K at *
  rcases Nat.lt_trichotomy K 253 with hK | rfl | hK
  · have hpow : d * 2 ^ K ≤ d * 2 ^ 252 :=
      Nat.mul_le_mul_left _ (Nat.pow_le_pow_right (by decide) (by omega))
    constructor <;> omega
  · have he : 0 < 2 ^ 252 * d := by positivity
    rw [show d * 2 ^ 253 = 2 * (2 ^ 252 * d) by ring] at *
    rw [Nat.mul_assoc]
    generalize 2 ^ 252 * d = e at *
    constructor
    · intro h
      have : 2 * 2 ^ 24 * (2 * e) ≤ 2 * q * (2 * e) := Nat.mul_le_mul_right _ (by omega)
      omega
    · intro h
      by_contra hlt
      rcases Nat.eq_or_lt_of_le (show q ≤ 2 ^ 24 - 1 by omega) with rfl | hq'
      · have := htie (.inl (by omega))
        omega
      · have : (2 * q + 1) * (2 * e) ≤ (2 * (2 ^ 24 - 2) + 1) * (2 * e) :=
          Nat.mul_le_mul_right _ (by omega)
        omega
  · have hpow : d * 2 ^ 254 ≤ d * 2 ^ K :=
      Nat.mul_le_mul_left _ (Nat.pow_le_pow_right (by decide) (by omega))
    constructor <;> omega

/-! The nearest binary32 to a value in units of 2^−149, over the rationals and over the reals. -/

section Nearest

variable {𝕜 : Type*} [Field 𝕜] [LinearOrder 𝕜] [IsStrictOrderedRing 𝕜]

/-- Two different multiples of a step are at least a step apart. -/
theorem eq_or_step_le {K R M : Nat} (hR : 2 ^ K ∣ R) (hM : 2 ^ K ∣ M) :
    M = R ∨ (2 : 𝕜) ^ K ≤ |(M : 𝕜) - R| := by
  obtain ⟨a, rfl⟩ := hR
  obtain ⟨b, rfl⟩ := hM
  rcases eq_or_ne b a with rfl | hne
  · exact .inl rfl
  · right
    have hone : (1 : ℤ) ≤ |(b : ℤ) - a| := Int.one_le_abs (by omega)
    have hcast : (1 : 𝕜) ≤ |(b : 𝕜) - a| := by exact_mod_cast hone
    push_cast
    rw [← mul_sub, abs_mul, abs_of_pos (by positivity)]
    exact le_mul_of_one_le_right (by positivity) hcast

/-- A multiple of a step within half a step of `y` is nearest to `y` among the multiples. -/
theorem nearest_multiple {K R M : Nat} {y : 𝕜} (hR : 2 ^ K ∣ R) (hM : 2 ^ K ∣ M)
    (hhalf : |(R : 𝕜) - y| ≤ 2 ^ K / 2) :
    |(R : 𝕜) - y| ≤ |(M : 𝕜) - y| ∧
      (|(R : 𝕜) - y| = |(M : 𝕜) - y| → M = R ∨ |(R : 𝕜) - y| = 2 ^ K / 2) := by
  rcases eq_or_step_le (𝕜 := 𝕜) hR hM with rfl | hstep
  · exact ⟨le_refl _, fun _ => .inl rfl⟩
  · have htri : |(M : 𝕜) - R| ≤ |(M : 𝕜) - y| + |(R : 𝕜) - y| := by
      rw [abs_sub_comm (R : 𝕜) y]
      exact abs_sub_le _ _ _
    exact ⟨by linarith, fun h => .inr (by linarith)⟩

/-- A multiple of a last place within half a last place of `y` is nearest to `y` among the magnitudes of
all binary32, where `y` has that last place; and only a tie leaves another as near. -/
theorem nearest_mag {K R : Nat} {y : 𝕜} (hR : 2 ^ K ∣ R) (hhalf : |(R : 𝕜) - y| ≤ 2 ^ K / 2)
    (hplace : K = 0 ∨ (2 : 𝕜) ^ (23 + K) ≤ y) (w : Word) :
    |(R : 𝕜) - y| ≤ |(mag w : 𝕜) - y| ∧
      (|(R : 𝕜) - y| = |(mag w : 𝕜) - y| → mag w = R ∨ |(R : 𝕜) - y| = 2 ^ K / 2) := by
  obtain ⟨k, q, -, hq, hmag, -⟩ := exists_significand w
  rcases Nat.le_total K k with hk | hk
  · refine nearest_multiple hR ?_ hhalf
    rw [hmag]
    exact Dvd.dvd.mul_left (pow_dvd_pow 2 hk) q
  · rcases hplace with rfl | hplace
    · exact nearest_multiple hR (by simp) hhalf
    · have hlt : mag w < 2 ^ (23 + K) ∨ 2 ^ K ∣ mag w := by
        rcases Nat.eq_or_lt_of_le hk with rfl | hk
        · exact .inr (hmag ▸ Dvd.intro_left q rfl)
        · left
          calc mag w < 2 ^ 24 * 2 ^ k := hmag ▸ Nat.mul_lt_mul_of_pos_right hq (by positivity)
            _ = 2 ^ (24 + k) := by rw [pow_add]
            _ ≤ 2 ^ (23 + K) := Nat.pow_le_pow_right (by decide) (by omega)
      rcases hlt with hlt | hdvd
      · have hpow := (nearest_multiple (M := 2 ^ (23 + K)) hR (pow_dvd_pow 2 (by omega)) hhalf).1
        have hlt' : (mag w : 𝕜) < 2 ^ (23 + K) := by exact_mod_cast hlt
        push_cast at hpow
        rw [abs_sub_comm, abs_sub_comm ((2 : 𝕜) ^ _), abs_of_nonneg (sub_nonneg.mpr hplace)] at hpow
        have hright : |(mag w : 𝕜) - y| = y - mag w := by
          rw [abs_sub_comm]
          exact abs_of_nonneg (by linarith)
        rw [abs_sub_comm (R : 𝕜), hright]
        exact ⟨by linarith, fun h => by linarith⟩
      · exact nearest_multiple hR hdvd hhalf

/-- The significand of `n / d` times its last place is within half a last place of `n / d`. -/
theorem roundedSignificand_half {n d : Nat} (hd : 0 < d) :
    |((roundedSignificand n d * 2 ^ lastPlace n d : ℕ) : 𝕜) - n / d| ≤ 2 ^ lastPlace n d / 2 ∧
    (|((roundedSignificand n d * 2 ^ lastPlace n d : ℕ) : 𝕜) - n / d| = 2 ^ lastPlace n d / 2 →
      roundedSignificand n d % 2 = 0) := by
  obtain ⟨hn1, hn2, htie⟩ := roundedSignificand_nearest (n := n) hd
  generalize roundedSignificand n d = q at *
  generalize lastPlace n d = K at *
  have hd' : (0 : 𝕜) < d := by exact_mod_cast hd
  have h1 : 2 * (n : 𝕜) ≤ (2 * q + 1) * (d * 2 ^ K) := by exact_mod_cast hn1
  have h2 : 2 * (q : 𝕜) * (d * 2 ^ K) ≤ 2 * n + d * 2 ^ K := by exact_mod_cast hn2
  have hlow : -(2 ^ K / 2) ≤ (q : 𝕜) * 2 ^ K - n / d := by
    rw [neg_le_sub_iff_le_add, div_le_iff₀ hd']
    linarith
  have hhigh : (q : 𝕜) * 2 ^ K - n / d ≤ 2 ^ K / 2 := by
    rw [sub_le_iff_le_add, ← sub_le_iff_le_add', le_div_iff₀ hd']
    linarith
  push_cast
  refine ⟨abs_le.mpr ⟨hlow, hhigh⟩, fun h => htie ?_⟩
  have hn : (n : 𝕜) = n / d * d := (div_mul_cancel₀ _ hd'.ne').symm
  rcases (abs_eq (by positivity)).mp h with h | h
  · right
    have : 2 * (q : 𝕜) * (d * 2 ^ K) = 2 * n + d * 2 ^ K := by
      rw [hn]
      linear_combination 2 * (d : 𝕜) * h
    exact_mod_cast this
  · left
    have : 2 * (n : 𝕜) = (2 * q + 1) * (d * 2 ^ K) := by
      rw [hn]
      linear_combination (-2) * (d : 𝕜) * h
    exact_mod_cast this

/-- The last place of `n / d` is the one that `n / d` itself has. -/
theorem lastPlace_le_quotient {n d : Nat} (hd : 0 < d) :
    lastPlace n d = 0 ∨ (2 : 𝕜) ^ (23 + lastPlace n d) ≤ n / d := by
  refine (lastPlace_bounds hd).2.imp_right fun h => ?_
  rw [le_div_iff₀ (by exact_mod_cast hd)]
  have : (2 : 𝕜) ^ 23 * (d * 2 ^ lastPlace n d) ≤ n := by exact_mod_cast h
  calc (2 : 𝕜) ^ (23 + lastPlace n d) * d = 2 ^ 23 * (d * 2 ^ lastPlace n d) := by ring
    _ ≤ n := this

/-- The value of a word in units is its magnitude with its sign. -/
theorem abs_sval (w : Word) : |(sval w : 𝕜)| = mag w := by
  rw [← natAbs_sval, Nat.cast_natAbs, Int.cast_abs]

/-- A word of the sign of `y` is as far from `y` as its magnitude is from |`y`|. -/
theorem abs_sval_sub {w : Word} {y : 𝕜} (hneg : isNeg w = true → y ≤ 0)
    (hpos : isNeg w = false → 0 ≤ y) : |(sval w : 𝕜) - y| = |(mag w : 𝕜) - (|y|)| := by
  cases h : isNeg w with
  | true =>
    rw [sval, h, if_pos rfl, abs_of_nonpos (hneg h), ← abs_neg]
    push_cast
    congr 1
    ring
  | false =>
    rw [sval, h, abs_of_nonneg (hpos h)]
    simp

/-- Every word is at least as far from `y` as its magnitude is from |`y`|. -/
theorem abs_mag_sub_le (c : Word) (y : 𝕜) : |(mag c : 𝕜) - (|y|)| ≤ |(sval c : 𝕜) - y| := by
  rw [← abs_sval]
  exact abs_abs_sub_abs_le _ _

end Nearest

end Sys2Proof.Proofs
end

section
/-!
PROOFS. Correctly rounded words: when a packed word is its exact value rounded once, what a correctly rounded
word of an exact value is, the change of sign, and the basic arithmetic on finite operands (R91).
-/
namespace Sys2Proof.Proofs

open Sys2Proof.Machine Sys2Proof.Config

/-! Rational values. -/

/-- Distances between a word and a rational are distances in units of 2^−149. -/
theorem abs_ratVal_sub (w : Word) (x : ℚ) :
    |ratVal w - x| = |(sval w : ℚ) - x * 2 ^ 149| / 2 ^ 149 := by
  rw [ratVal, ← abs_of_pos (show (0 : ℚ) < 2 ^ 149 by positivity), ← abs_div,
    abs_of_pos (show (0 : ℚ) < 2 ^ 149 by positivity)]
  congr 1
  field_simp

theorem abs_ratVal (w : Word) : |ratVal w| = mag w / 2 ^ 149 := by
  have h := abs_ratVal_sub w 0
  simpa [abs_sval] using h

theorem ratVal_nonpos {w : Word} (h : isNeg w = true) : ratVal w ≤ 0 := by
  rw [ratVal, sval, if_pos h]
  exact div_nonpos_of_nonpos_of_nonneg (by simp) (by positivity)

theorem ratVal_nonneg {w : Word} (h : isNeg w = false) : 0 ≤ ratVal w := by
  rw [ratVal, sval, if_neg (by simp [h])]
  positivity

/-- The order of the values is the order of the signed magnitudes. -/
theorem ratVal_le_iff {a b : Word} : ratVal a ≤ ratVal b ↔ sval a ≤ sval b := by
  rw [ratVal, ratVal, div_le_div_iff_of_pos_right (by positivity), Int.cast_le]

theorem ratVal_lt_iff {a b : Word} : ratVal a < ratVal b ↔ sval a < sval b := by
  rw [ratVal, ratVal, div_lt_div_iff_of_pos_right (by positivity), Int.cast_lt]

theorem ratVal_inj {a b : Word} : ratVal a = ratVal b ↔ sval a = sval b := by
  rw [le_antisymm_iff, le_antisymm_iff, ratVal_le_iff, ratVal_le_iff]

theorem ratVal_eq_zero_iff {w : Word} : ratVal w = 0 ↔ mag w = 0 := by
  rw [← abs_eq_zero, abs_ratVal]
  simp

/-- A zero is a finite word of magnitude 0. -/
theorem isZero_iff {w : Word} : isZero w = true ↔ isFinite w = true ∧ mag w = 0 := by
  simp only [isZero, Bool.and_eq_true, Bool.not_eq_true', beq_iff_eq]
  exact ⟨fun h => ⟨isFinite_of_mag_lt (by omega), h.2⟩, fun h => ⟨isNaN_of_isFinite h.1, h.2⟩⟩

theorem ratVal_of_isZero {w : Word} (h : isZero w = true) : ratVal w = 0 :=
  ratVal_eq_zero_iff.mpr (isZero_iff.mp h).2

/-- Every finite value is below the overflow bound. -/
theorem abs_ratVal_lt_overflowBound {w : Word} (h : isFinite w = true) :
    |ratVal w| < overflowBound := by
  have hmag : (mag w : ℚ) ≤ ((2 ^ 24 - 1) * 2 ^ 253 : ℕ) := Nat.cast_le.mpr (mag_le_of_isFinite h)
  rw [abs_ratVal, overflowBound, div_lt_iff₀ (by positivity)]
  norm_num at hmag ⊢
  linarith

/-! Words that are correctly rounded. -/

/-- The pattern of infinity is that of an infinity of either sign. -/
theorem isInf_pack_infMag (neg : Bool) : isInf (pack neg infMag) = true := by
  cases neg <;> decide

/-- The overflow bound in units of 2^−149, on the quotient that is rounded. -/
theorem overflowBound_le_iff {n d : Nat} {x : ℚ} (hd : 0 < d) (hmag : |x| * 2 ^ 149 = n / d) :
    overflowBound ≤ |x| ↔ infMag ≤ lastPlace n d * 2 ^ 23 + roundedSignificand n d := by
  have hn : (n : ℚ) = |x| * 2 ^ 149 * d := by
    rw [hmag, div_mul_cancel₀]
    exact_mod_cast hd.ne'
  have hd' : (0 : ℚ) < 2 ^ 149 * d := by positivity
  rw [infMag_le_iff hd, ← Nat.cast_le (α := ℚ), hn, mul_assoc, ← mul_le_mul_iff_left₀ hd',
    overflowBound]
  push_cast
  ring_nf

/-- Words of one magnitude that are as far from `y` are of one value, unless only 0 is nearest to `y` = 0. -/
theorem sval_eq_of_mag_eq {r c : Word} {y : ℚ} (hsame : mag c = mag r)
    (hdist : |(sval r : ℚ) - y| = |(sval c : ℚ) - y|) (hzero : y = 0 → mag r = 0) :
    sval c = sval r := by
  have habs : |(sval c : ℚ)| = |(sval r : ℚ)| := by rw [abs_sval, abs_sval, hsame]
  rcases abs_eq_abs.mp habs with h | h
  · exact_mod_cast h
  · rw [h] at hdist
    have hprod : (sval r : ℚ) * y = 0 := by
      have hsq := (sq_eq_sq_iff_abs_eq_abs _ _).mpr hdist
      linear_combination (-1 / 4) * hsq
    have hr : (sval r : ℚ) = 0 := by
      rcases mul_eq_zero.mp hprod with h0 | h0
      · exact h0
      · rw [← abs_eq_zero, abs_sval, hzero h0, Nat.cast_zero]
    rw [hr] at h
    exact_mod_cast h.trans (neg_zero.trans hr.symm)

/-- A word of the sign of `x` whose magnitude is within half a last place of |`x`| is nearest to `x`, and its
significand decides a tie. -/
theorem nearest_of_half {r : Word} {K : Nat} {x : ℚ} (hdvd : 2 ^ K ∣ mag r)
    (hneg : isNeg r = true → x ≤ 0) (hpos : isNeg r = false → 0 ≤ x)
    (hhalf : |(mag r : ℚ) - |x| * 2 ^ 149| ≤ 2 ^ K / 2)
    (htie : |(mag r : ℚ) - |x| * 2 ^ 149| = 2 ^ K / 2 → fracField r % 2 = 0)
    (hplace : K = 0 ∨ (2 : ℚ) ^ (23 + K) ≤ |x| * 2 ^ 149) (c : Word) :
    |ratVal r - x| ≤ |ratVal c - x| ∧
      (|ratVal r - x| = |ratVal c - x| → ratVal c = ratVal r ∨ fracField r % 2 = 0) := by
  have hy : |x| * 2 ^ 149 = |x * 2 ^ 149| := by
    rw [abs_mul, abs_of_pos (show (0 : ℚ) < 2 ^ 149 by positivity)]
  rw [hy] at hhalf hplace htie
  have hnear := nearest_mag hdvd hhalf hplace
  have hr : |(sval r : ℚ) - x * 2 ^ 149| = |(mag r : ℚ) - (|x * 2 ^ 149|)| :=
    abs_sval_sub (fun h => mul_nonpos_of_nonpos_of_nonneg (hneg h) (by positivity))
      (fun h => mul_nonneg (hpos h) (by positivity))
  have hc := abs_mag_sub_le (𝕜 := ℚ) c (x * 2 ^ 149)
  rw [abs_ratVal_sub, abs_ratVal_sub, div_le_div_iff_of_pos_right (by positivity),
    div_left_inj' (by positivity), ratVal_inj]
  refine ⟨hr ▸ (hnear c).1.trans hc, fun hdist => ?_⟩
  rcases (hnear c).2 (le_antisymm (hnear c).1 (hr ▸ hdist ▸ hc)) with hsame | htied
  · refine .inl (sval_eq_of_mag_eq hsame hdist fun h0 => ?_)
    have hmin := (hnear posZero).1
    rw [h0, show mag posZero = 0 by decide] at hmin
    simpa using hmin
  · exact .inr (htie htied)

/-- A word packed from the sign of `x` and the rounded quotient `n / d` of its magnitude is `x` rounded
once to nearest, ties to even (R91). -/
theorem roundsTo_pack {neg : Bool} {n d : Nat} {x : ℚ} (hd : 0 < d) (hmag : |x| * 2 ^ 149 = n / d)
    (hneg : neg = true → x ≤ 0) (hpos : neg = false → 0 ≤ x) :
    RoundsTo x (pack neg (roundMag n d)) := by
  have hover := overflowBound_le_iff hd hmag
  rw [RoundsTo]
  split
  next hbig =>
    have hx : x ≠ 0 := by
      rintro rfl
      rw [abs_zero, overflowBound] at hbig
      norm_num at hbig
    rw [roundMag_eq, min_eq_right (hover.mp hbig)]
    refine ⟨isInf_pack_infMag neg, ?_⟩
    rw [isNeg_pack neg (by decide)]
    refine ⟨fun h => lt_of_le_of_ne (hneg h) hx, fun h => by_contra fun hf => ?_⟩
    exact absurd (hpos (by simpa using hf)) (not_le.mpr h)
  next hsmall =>
    have hlt := not_le.mp (mt hover.mpr hsmall)
    have hlt31 := lt_of_le_infMag hlt.le
    have hval := mag_pack_significand neg (normal_roundedSignificand (n := n) hd) hlt31
    have hsign := isNeg_pack neg hlt31
    obtain ⟨hhalf, htie⟩ := roundedSignificand_half (𝕜 := ℚ) (n := n) hd
    rw [← hmag, ← hval] at hhalf htie
    rw [roundMag_eq, min_eq_left hlt.le]
    refine ⟨isFinite_pack neg hlt, fun c _ => nearest_of_half (Dvd.intro_left _ hval.symm)
      (fun h => hneg (hsign ▸ h)) (fun h => hpos (hsign ▸ h)) hhalf (fun h => ?_)
      (hmag ▸ lastPlace_le_quotient hd) c⟩
    have heven := htie h
    rw [fracField_pack neg hlt31]
    omega

/-- A correctly rounded finite value is nearest, also where it was only known not to overflow. -/
theorem roundsTo_nearest {x : ℚ} {r c : Word} (h : RoundsTo x r) (hc : isFinite c = true)
    (hx : |x| ≤ |ratVal c|) :
    isFinite r = true ∧ ∀ c' : Word, isFinite c' = true → |ratVal r - x| ≤ |ratVal c' - x| := by
  rw [RoundsTo, if_neg (not_le.mpr (hx.trans_lt (abs_ratVal_lt_overflowBound hc)))] at h
  exact ⟨h.1, fun c' hc' => (h.2 c' hc').1⟩

/-- An exact value that is a binary32 is rounded to itself. -/
theorem roundsTo_exact {x : ℚ} {r c : Word} (h : RoundsTo x r) (hc : isFinite c = true)
    (hx : ratVal c = x) : isFinite r = true ∧ ratVal r = x := by
  obtain ⟨hfin, hnear⟩ := roundsTo_nearest h hc (by rw [hx])
  have hzero := hnear c hc
  rw [hx, sub_self, abs_zero] at hzero
  exact ⟨hfin, sub_eq_zero.mp (abs_nonpos_iff.mp hzero)⟩

/-- Rounding does not pass a binary32 at or above the exact value. -/
theorem roundsTo_le {x : ℚ} {r c : Word} (h : RoundsTo x r) (hc : isFinite c = true) (hx0 : 0 ≤ x)
    (hx : x ≤ ratVal c) : isFinite r = true ∧ 0 ≤ ratVal r ∧ ratVal r ≤ ratVal c := by
  obtain ⟨hfin, hnear⟩ := roundsTo_nearest h hc (abs_le_abs_of_nonneg hx0 hx)
  have hup := hnear c hc
  have hlow := hnear posZero (by decide)
  rw [abs_of_nonneg (sub_nonneg.mpr hx)] at hup
  rw [ratVal_of_isZero (w := posZero) (by decide), zero_sub, abs_neg, abs_of_nonneg hx0] at hlow
  refine ⟨hfin, ?_, ?_⟩
  · linarith [neg_abs_le (ratVal r - x)]
  · linarith [le_abs_self (ratVal r - x)]

/-! Change of sign (R91). -/

/-- A number is packed from at most the pattern of infinity. -/
theorem low_le_infMag {w : Word} (h : isNaN w = false) : w.toNat % 2 ^ 31 ≤ infMag := by
  have hinf : infMag = 255 * 2 ^ 23 := by decide
  have hnan : ¬ (expField w = 255 ∧ fracField w ≠ 0) := by
    simpa [isNaN] using h
  rw [expField, fracField] at hnan
  omega

/-- `fneg` flips the sign of a packed number and keeps the rest. -/
theorem fneg_pack (neg : Bool) {m : Nat} (h : m ≤ infMag) : fneg (pack neg m) = pack (!neg) m := by
  cases neg with
  | false => exact fneg_pack_false h
  | true =>
    have hflip := fneg_pack_false h
    rw [fneg, isNaN_pack false h, if_neg Bool.false_ne_true] at hflip
    rw [fneg, isNaN_pack true h, if_neg Bool.false_ne_true, ← hflip, BitVec.xor_assoc, BitVec.xor_self,
      BitVec.xor_zero]
    rfl

/-- `fneg` of a number, as a packed word. -/
theorem fneg_eq_pack {w : Word} (h : isNaN w = false) :
    fneg w = pack (!isNeg w) (w.toNat % 2 ^ 31) := by
  conv_lhs => rw [← pack_isNeg_low w]
  exact fneg_pack _ (low_le_infMag h)

theorem isNeg_fneg {w : Word} (h : isNaN w = false) : isNeg (fneg w) = !isNeg w := by
  rw [fneg_eq_pack h, isNeg_pack _ (Nat.mod_lt _ (by decide))]

theorem isNaN_fneg {w : Word} (h : isNaN w = false) : isNaN (fneg w) = false := by
  rw [fneg_eq_pack h, isNaN_pack _ (low_le_infMag h)]

/-- What is below the sign is the same in a number and its negation. -/
theorem fields_fneg {w : Word} (h : isNaN w = false) :
    expField (fneg w) = expField w ∧ fracField (fneg w) = fracField w := by
  have hlt : w.toNat % 2 ^ 31 < 2 ^ 31 := Nat.mod_lt _ (by decide)
  rw [fneg_eq_pack h, expField_pack _ hlt, fracField_pack _ hlt, expField, fracField]
  omega

theorem isFinite_fneg {w : Word} (h : isNaN w = false) : isFinite (fneg w) = isFinite w := by
  rw [isFinite, isFinite, (fields_fneg h).1]

theorem isInf_fneg {w : Word} (h : isNaN w = false) : isInf (fneg w) = isInf w := by
  rw [isInf, isInf, (fields_fneg h).1, (fields_fneg h).2]

theorem mag_fneg {w : Word} (h : isNaN w = false) : mag (fneg w) = mag w := by
  rw [mag, mag, (fields_fneg h).1, (fields_fneg h).2]

theorem isZero_fneg {w : Word} (h : isNaN w = false) : isZero (fneg w) = isZero w := by
  rw [isZero, isZero, isNaN_fneg h, mag_fneg h, h]

theorem sval_fneg {w : Word} (h : isNaN w = false) : sval (fneg w) = -sval w := by
  rw [sval, sval, isNeg_fneg h, mag_fneg h]
  cases isNeg w <;> simp

theorem ratVal_fneg {w : Word} (h : isNaN w = false) : ratVal (fneg w) = -ratVal w := by
  rw [ratVal, ratVal, sval_fneg h]
  push_cast
  ring

/-- Negating a number twice gives it back. -/
theorem fneg_fneg {w : Word} (h : isNaN w = false) : fneg (fneg w) = w := by
  rw [fneg_eq_pack h, fneg_pack _ (low_le_infMag h), Bool.not_not, pack_isNeg_low]

/-! Sum, difference, product and quotient of finite operands (R91). -/

/-- The sum of finite operands is the exact sum rounded once. -/
theorem fadd_roundsTo {a b : Word} (ha : isFinite a = true) (hb : isFinite b = true) :
    RoundsTo (ratVal a + ratVal b) (fadd a b) := by
  have hsum : ratVal a + ratVal b = ((sval a + sval b : ℤ) : ℚ) / 2 ^ 149 := by
    rw [ratVal, ratVal]
    push_cast
    ring
  rw [fadd_of_isFinite ha hb, hsum]
  split
  next h0 =>
    rw [h0, show (0 : Nat) = roundMag 0 1 by decide]
    exact roundsTo_pack one_pos (by simp) (by simp) (by simp)
  next h0 =>
    refine roundsTo_pack one_pos ?_ (fun h => ?_) (fun h => ?_)
    · rw [abs_div, abs_of_pos (show (0 : ℚ) < 2 ^ 149 by positivity), Nat.cast_natAbs, Int.cast_abs]
      field_simp
      simp
    · have hneg : ((sval a + sval b : ℤ) : ℚ) ≤ 0 := by exact_mod_cast (of_decide_eq_true h).le
      exact div_nonpos_of_nonpos_of_nonneg hneg (by positivity)
    · have hpos : (0 : ℚ) ≤ ((sval a + sval b : ℤ) : ℚ) := by
        exact_mod_cast not_lt.mp (of_decide_eq_false h)
      exact div_nonneg hpos (by positivity)

/-- The difference of finite operands is the exact difference rounded once. -/
theorem fsub_roundsTo {a b : Word} (ha : isFinite a = true) (hb : isFinite b = true) :
    RoundsTo (ratVal a - ratVal b) (fsub a b) := by
  have hb' := isNaN_of_isFinite hb
  rw [sub_eq_add_neg, ← ratVal_fneg hb']
  exact fadd_roundsTo ha ((isFinite_fneg hb').trans hb)

/-- A sum of finite operands that is exactly zero is `-0.0` only for two negative operands. -/
theorem fadd_of_sum_zero {a b : Word} (ha : isFinite a = true) (hb : isFinite b = true)
    (h : sval a + sval b = 0) : fadd a b = pack (isNeg a && isNeg b) 0 := by
  rw [fadd_of_isFinite ha hb, if_pos h]

/-- A zero packed with a sign. -/
theorem pack_zero (neg : Bool) : pack neg 0 = if neg then 0x80000000#32 else 0x00000000#32 := by
  cases neg <;> rfl

/-- Settles O20: the exact sum is a whole number of units, rounded once by `fadd`; `fsub` adds the negation. -/
theorem sumsAreCorrectlyRounded : Obligations.SumsAreCorrectlyRounded := by
  intro a b ha hb
  refine ⟨fadd_roundsTo ha hb, fsub_roundsTo ha hb, fun h0 => ?_⟩
  rw [ratVal, ratVal, ← add_div, div_eq_zero_iff, or_iff_left (by positivity)] at h0
  rw [fadd_of_sum_zero ha hb (by exact_mod_cast h0), pack_zero]

/-- Operands of different signs have a product that is not positive, others one that is not negative. -/
theorem ratVal_mul_sign (a b : Word) :
    ((isNeg a != isNeg b) = true → ratVal a * ratVal b ≤ 0) ∧
    ((isNeg a != isNeg b) = false → 0 ≤ ratVal a * ratVal b) := by
  cases ha : isNeg a <;> cases hb : isNeg b
  · exact ⟨by simp, fun _ => mul_nonneg (ratVal_nonneg ha) (ratVal_nonneg hb)⟩
  · exact ⟨fun _ => mul_nonpos_of_nonneg_of_nonpos (ratVal_nonneg ha) (ratVal_nonpos hb), by simp⟩
  · exact ⟨fun _ => mul_nonpos_of_nonpos_of_nonneg (ratVal_nonpos ha) (ratVal_nonneg hb), by simp⟩
  · exact ⟨by simp, fun _ => mul_nonneg_of_nonpos_of_nonpos (ratVal_nonpos ha) (ratVal_nonpos hb)⟩

/-- The quotient has the sign of the product. -/
theorem ratVal_div_sign (a b : Word) :
    ((isNeg a != isNeg b) = true → ratVal a / ratVal b ≤ 0) ∧
    ((isNeg a != isNeg b) = false → 0 ≤ ratVal a / ratVal b) := by
  have hdiv : ratVal a / ratVal b = ratVal a * ratVal b / (ratVal b * ratVal b) := by
    rcases eq_or_ne (ratVal b) 0 with h | h
    · simp [h]
    · field_simp
  rw [hdiv]
  exact ⟨fun h => div_nonpos_of_nonpos_of_nonneg ((ratVal_mul_sign a b).1 h) (mul_self_nonneg _),
    fun h => div_nonneg ((ratVal_mul_sign a b).2 h) (mul_self_nonneg _)⟩

theorem fmul_of_isFinite {a b : Word} (ha : isFinite a = true) (hb : isFinite b = true) :
    fmul a b = pack (isNeg a != isNeg b) (roundMag (mag a * mag b) (2 ^ 149)) := by
  simp [fmul, isNaN_of_isFinite ha, isNaN_of_isFinite hb, isInf_of_isFinite ha, isInf_of_isFinite hb]

theorem fdiv_of_isFinite {a b : Word} (ha : isFinite a = true) (hb : isFinite b = true)
    (h0 : isZero b = false) :
    fdiv a b = pack (isNeg a != isNeg b) (roundMag (mag a * 2 ^ 149) (mag b)) := by
  simp [fdiv, isNaN_of_isFinite ha, isNaN_of_isFinite hb, isInf_of_isFinite ha, isInf_of_isFinite hb,
    h0]

/-- The product of finite operands is the exact product rounded once. -/
theorem fmul_roundsTo {a b : Word} (ha : isFinite a = true) (hb : isFinite b = true) :
    RoundsTo (ratVal a * ratVal b) (fmul a b) := by
  rw [fmul_of_isFinite ha hb]
  refine roundsTo_pack (by positivity) ?_ (ratVal_mul_sign a b).1 (ratVal_mul_sign a b).2
  rw [abs_mul, abs_ratVal, abs_ratVal, Nat.cast_mul, Nat.cast_pow, Nat.cast_ofNat]
  field_simp

/-- The quotient of finite operands by a divisor that is not zero is the exact quotient rounded once. -/
theorem fdiv_roundsTo {a b : Word} (ha : isFinite a = true) (hb : isFinite b = true)
    (h0 : isZero b = false) : RoundsTo (ratVal a / ratVal b) (fdiv a b) := by
  have hmag : mag b ≠ 0 := fun h => by simp [isZero_iff.mpr ⟨hb, h⟩] at h0
  rw [fdiv_of_isFinite ha hb h0]
  refine roundsTo_pack (Nat.pos_of_ne_zero hmag) ?_ (ratVal_div_sign a b).1 (ratVal_div_sign a b).2
  rw [abs_div, abs_ratVal, abs_ratVal, Nat.cast_mul, Nat.cast_pow, Nat.cast_ofNat]
  field_simp

/-- Settles O21: product and quotient are packed from the exclusive-or of the signs and the rounded quotient
of whole numbers that the exact magnitude is. -/
theorem productsAndQuotientsAreCorrectlyRounded :
    Obligations.ProductsAndQuotientsAreCorrectlyRounded := by
  intro a b ha hb
  have hsign (n d : Nat) : isNeg (pack (isNeg a != isNeg b) (roundMag n d)) = (isNeg a != isNeg b) :=
    isNeg_pack _ (lt_of_le_infMag (roundMag_le_infMag n d))
  exact ⟨fmul_roundsTo ha hb, fmul_of_isFinite ha hb ▸ hsign _ _,
    fun h0 => ⟨fdiv_roundsTo ha hb h0, fdiv_of_isFinite ha hb h0 ▸ hsign _ _⟩⟩

end Sys2Proof.Proofs
end

section
/-!
PROOFS. The binary32 nearest a real number, and the square root (R91): the integer root is exact from below, and
every rounding boundary above 2^74 units is a whole number of units.
-/
namespace Sys2Proof.Proofs

open Sys2Proof.Machine Sys2Proof.Config

/-! The binary32 nearest a real number. -/

/-- `r` is finite and no finite binary32 is nearer to the real `y`. -/
def NearestTo (r : Word) (y : ℝ) : Prop :=
  isFinite r = true ∧ ∀ c : Word, isFinite c = true →
    |((ratVal r : ℚ) : ℝ) - y| ≤ |((ratVal c : ℚ) : ℝ) - y|

/-- Distances between a word and a real are distances in units of 2^−149. -/
theorem abs_ratVal_sub_real (w : Word) (y : ℝ) :
    |((ratVal w : ℚ) : ℝ) - y| = |(sval w : ℝ) - y * 2 ^ 149| / 2 ^ 149 := by
  have hpow : (0 : ℝ) < 2 ^ 149 := by positivity
  have hval : ((ratVal w : ℚ) : ℝ) - y = ((sval w : ℝ) - y * 2 ^ 149) / 2 ^ 149 := by
    rw [ratVal]
    push_cast
    field_simp
  rw [hval, abs_div, abs_of_pos hpow]

/-- A word without sign that is within half a last place of `y` is nearest to `y`. -/
theorem nearestTo_of_half {r : Word} {K : Nat} {y : ℝ} (hfin : isFinite r = true)
    (hsign : isNeg r = false) (hy : 0 ≤ y) (hdvd : 2 ^ K ∣ mag r)
    (hhalf : |(mag r : ℝ) - y * 2 ^ 149| ≤ 2 ^ K / 2)
    (hplace : K = 0 ∨ (2 : ℝ) ^ (23 + K) ≤ y * 2 ^ 149) : NearestTo r y := by
  have hy' : 0 ≤ y * 2 ^ 149 := by positivity
  refine ⟨hfin, fun c _ => ?_⟩
  rw [abs_ratVal_sub_real, abs_ratVal_sub_real, div_le_div_iff_of_pos_right (by positivity),
    abs_sval_sub (by simp [hsign]) (fun _ => hy'), abs_of_nonneg hy']
  refine (nearest_mag hdvd hhalf hplace c).1.trans ?_
  have := abs_mag_sub_le c (y * 2 ^ 149)
  rwa [abs_of_nonneg hy'] at this

/-- A word is nearest to its own value. -/
theorem nearestTo_self {r : Word} (hfin : isFinite r = true) : NearestTo r (ratVal r : ℚ) :=
  ⟨hfin, fun c _ => by simp⟩

/-- The negation of the nearest word is nearest to the negation. -/
theorem nearestTo_fneg {r : Word} {y : ℝ} (h : NearestTo r y) : NearestTo (fneg r) (-y) := by
  obtain ⟨hfin, hnear⟩ := h
  have hr := isNaN_of_isFinite hfin
  refine ⟨(isFinite_fneg hr).trans hfin, fun c hc => ?_⟩
  have hcn := isNaN_of_isFinite hc
  have := hnear (fneg c) ((isFinite_fneg hcn).trans hc)
  rw [ratVal_fneg hcn] at this
  rw [ratVal_fneg hr]
  push_cast at this ⊢
  calc |-((ratVal r : ℚ) : ℝ) - -y| = |((ratVal r : ℚ) : ℝ) - y| := by
        rw [← abs_neg]
        ring_nf
    _ ≤ |-((ratVal c : ℚ) : ℝ) - y| := this
    _ = |((ratVal c : ℚ) : ℝ) - -y| := by
        rw [← abs_neg]
        ring_nf

/-! The integer square root. -/

/-- Bit by bit the root stays at or below the real root, and within the bits still to come of it. -/
theorem isqrtFrom_spec {n k r : Nat} (hlow : r * r ≤ n) (hup : n < (r + 2 ^ k) * (r + 2 ^ k)) :
    isqrtFrom n k r * isqrtFrom n k r ≤ n ∧ n < (isqrtFrom n k r + 1) * (isqrtFrom n k r + 1) := by
  induction k generalizing r with
  | zero => exact ⟨hlow, hup⟩
  | succ k ih =>
    rw [isqrtFrom]
    split
    next h =>
      refine ih h ?_
      rwa [show r + 2 ^ k + 2 ^ k = r + 2 ^ (k + 1) by ring]
    next h => exact ih hlow (not_le.mp h)

/-- `isqrt` is the greatest natural whose square is not above its operand. -/
theorem isqrt_spec (n : Nat) : isqrt n * isqrt n ≤ n ∧ n < (isqrt n + 1) * (isqrt n + 1) := by
  refine isqrtFrom_spec (Nat.zero_le _) ?_
  rw [Nat.zero_add, ← pow_add]
  exact Nat.lt_log2_self.trans_le (Nat.pow_le_pow_right (by decide) (by omega))

/-! `fsqrt` (R91). -/

/-- What is missing from an integer root, rounded up to a whole: nothing where it is exact. -/
def rootRest (n : Nat) : Nat := if isqrt n * isqrt n = n then 0 else 1

theorem rootRest_le (n : Nat) : rootRest n ≤ 1 := by
  unfold rootRest
  split <;> omega

/-- What `fsqrt` rounds: twice the integer root, and one more where the root is not exact. -/
def rootTwice (n : Nat) : Nat := 2 * isqrt n + rootRest n

theorem fsqrt_of_isZero {a : Word} (h : isZero a = true) : fsqrt a = a := by
  simp [fsqrt, h, isNaN_of_isZero h]

theorem fsqrt_of_pos {a : Word} (ha : isFinite a = true) (h0 : isZero a = false)
    (hneg : isNeg a = false) : fsqrt a = pack false (roundMag (rootTwice (mag a * 2 ^ 149)) 2) := by
  simp [fsqrt, rootTwice, rootRest, isNaN_of_isFinite ha, isInf_of_isFinite ha, h0, hneg]

/-- The integer root is exact, or the real root lies between it and the next integer. -/
theorem sqrt_between (n : Nat) : (isqrt n : ℝ) ≤ √n ∧ √n ≤ (isqrt n + rootRest n : ℕ) := by
  obtain ⟨hlow, hup⟩ := isqrt_spec n
  refine ⟨Real.le_sqrt_of_sq_le (by exact_mod_cast (sq (isqrt n)).trans_le hlow),
    Real.sqrt_le_iff.mpr ⟨by positivity, ?_⟩⟩
  unfold rootRest
  split
  next h =>
    rw [Nat.add_zero]
    exact_mod_cast (h.symm.trans (sq (isqrt n)).symm).le
  next => exact_mod_cast hup.le.trans (sq (isqrt n + 1)).symm.le

/-- From 2^149 on, `rootTwice` over 2 has a last place above the lowest, and half a last place is a whole
number: no rounding boundary lies inside the interval that holds the real root. -/
theorem rootTwice_bounds {n : Nat} (hn : 2 ^ 149 ≤ n) :
    ∃ k, lastPlace (rootTwice n) 2 = k + 1 ∧
      isqrt n + rootRest n ≤ 2 * (roundedSignificand (rootTwice n) 2 * 2 ^ k) + 2 ^ k ∧
      2 * (roundedSignificand (rootTwice n) 2 * 2 ^ k) ≤ isqrt n + 2 ^ k ∧
      2 ^ 24 * 2 ^ k ≤ isqrt n := by
  obtain ⟨-, hup⟩ := isqrt_spec n
  obtain ⟨hq1, hq2, -⟩ := roundedSignificand_nearest (n := rootTwice n) two_pos
  obtain ⟨hlt, hplace⟩ := lastPlace_bounds (n := rootTwice n) two_pos
  have hrest := rootRest_le n
  generalize roundedSignificand (rootTwice n) 2 = q at *
  generalize lastPlace (rootTwice n) 2 = K at *
  rw [rootTwice] at hq1 hq2 hlt hplace
  cases K with
  | zero =>
    have : (isqrt n + 1) * (isqrt n + 1) ≤ 2 ^ 24 * 2 ^ 24 := Nat.mul_le_mul (by omega) (by omega)
    omega
  | succ k =>
    have hplace := hplace.resolve_left (Nat.succ_ne_zero k)
    rw [show (2 * q + 1) * (2 * 2 ^ (k + 1)) = 8 * (q * 2 ^ k) + 4 * 2 ^ k by ring] at hq1
    rw [show 2 * q * (2 * 2 ^ (k + 1)) = 8 * (q * 2 ^ k) by ring,
      show 2 * 2 ^ (k + 1) = 4 * 2 ^ k by ring] at hq2
    rw [show 2 ^ 23 * (2 * 2 ^ (k + 1)) = 2 * (2 ^ 24 * 2 ^ k) by ring] at hplace
    exact ⟨k, rfl, by omega, by omega, by omega⟩

/-- From 2^149 on, the significand of `rootTwice` over 2 is within half a last place of the real root, and
the root has that last place. -/
theorem rootTwice_half {n : Nat} (hn : 2 ^ 149 ≤ n) :
    |((roundedSignificand (rootTwice n) 2 * 2 ^ lastPlace (rootTwice n) 2 : ℕ) : ℝ) - √n| ≤
      2 ^ lastPlace (rootTwice n) 2 / 2 ∧
    (2 : ℝ) ^ (23 + lastPlace (rootTwice n) 2) ≤ √n := by
  obtain ⟨hs, hs'⟩ := sqrt_between n
  obtain ⟨k, hK, hceil, hfloor, hstart⟩ := rootTwice_bounds hn
  rw [hK]
  generalize roundedSignificand (rootTwice n) 2 = q at *
  have hceil' : ((isqrt n + rootRest n : ℕ) : ℝ) ≤ 2 * (q * 2 ^ k) + 2 ^ k := by exact_mod_cast hceil
  have hfloor' : 2 * ((q : ℝ) * 2 ^ k) ≤ isqrt n + 2 ^ k := by exact_mod_cast hfloor
  have hstart' : (2 : ℝ) ^ 24 * 2 ^ k ≤ isqrt n := by exact_mod_cast hstart
  have hval : ((q * 2 ^ (k + 1) : ℕ) : ℝ) = 2 * (q * 2 ^ k) := by
    push_cast
    ring
  constructor
  · rw [hval, show (2 : ℝ) ^ (k + 1) / 2 = 2 ^ k by ring, abs_le]
    constructor <;> linarith
  · calc (2 : ℝ) ^ (23 + (k + 1)) = 2 ^ 24 * 2 ^ k := by ring
      _ ≤ √n := hstart'.trans hs

/-- The root of a number is far below the overflow bound. -/
theorem rootTwice_lt {n : Nat} (hn : n < 2 ^ 426) : rootTwice n < (2 ^ 25 - 1) * 2 ^ 252 * 2 := by
  obtain ⟨hlow, -⟩ := isqrt_spec n
  have hs : isqrt n < 2 ^ 213 := by
    by_contra h
    have : 2 ^ 213 * 2 ^ 213 ≤ isqrt n * isqrt n := Nat.mul_le_mul (by omega) (by omega)
    omega
  have hrest := rootRest_le n
  rw [rootTwice]
  omega

/-- The real root in units of 2^−149 is the real root of the whole number that `fsqrt` takes the root of. -/
theorem sqrt_ratVal {a : Word} (hneg : isNeg a = false) :
    √((ratVal a : ℚ) : ℝ) * 2 ^ 149 = √((mag a * 2 ^ 149 : ℕ) : ℝ) := by
  have hval : ((ratVal a : ℚ) : ℝ) = (mag a * 2 ^ 149 : ℕ) / (2 ^ 149 * 2 ^ 149) := by
    rw [ratVal, sval, hneg, if_neg Bool.false_ne_true, Nat.cast_mul, Nat.cast_pow, Nat.cast_ofNat,
      Int.cast_natCast]
    push_cast
    field_simp
  rw [hval, Real.sqrt_div (by positivity), Real.sqrt_mul_self (by positivity),
    div_mul_cancel₀ _ (by positivity)]

/-- The square root of a finite number above zero is nearest to the real root, and not negative. -/
theorem fsqrt_nearestTo_of_pos {a : Word} (ha : isFinite a = true) (hz : isZero a = false)
    (hneg : isNeg a = false) :
    NearestTo (fsqrt a) √((ratVal a : ℚ) : ℝ) ∧ 0 ≤ sval (fsqrt a) := by
  have hmag : mag a ≠ 0 := fun h => by simp [isZero_iff.mpr ⟨ha, h⟩] at hz
  have hmax := mag_le_of_isFinite ha
  have hfit : lastPlace (rootTwice (mag a * 2 ^ 149)) 2 * 2 ^ 23 +
      roundedSignificand (rootTwice (mag a * 2 ^ 149)) 2 < infMag :=
    not_le.mp (mt (infMag_le_iff two_pos).mp (not_le.mpr (rootTwice_lt (by omega))))
  have hfit31 := lt_of_le_infMag hfit.le
  have hval := mag_pack_significand false (normal_roundedSignificand two_pos) hfit31
  obtain ⟨hhalf, hplace⟩ := rootTwice_half (n := mag a * 2 ^ 149) (by omega)
  rw [fsqrt_of_pos ha hz hneg, roundMag_eq, min_eq_left hfit.le]
  refine ⟨nearestTo_of_half (isFinite_pack _ hfit) (isNeg_pack _ hfit31) (Real.sqrt_nonneg _)
    (Dvd.intro_left _ hval.symm) ?_ (.inr ?_), sval_pack_false_nonneg hfit31⟩
  · rwa [hval, sqrt_ratVal hneg]
  · rwa [sqrt_ratVal hneg]

/-- The square root of a finite number that is not negative is nearest to the real root, and not negative. -/
theorem fsqrt_nearestTo {a : Word} (ha : isFinite a = true) (h0 : 0 ≤ sval a) :
    NearestTo (fsqrt a) √((ratVal a : ℚ) : ℝ) ∧ 0 ≤ sval (fsqrt a) := by
  cases hz : isZero a with
  | true =>
    have hval := ratVal_of_isZero hz
    rw [fsqrt_of_isZero hz, hval, Rat.cast_zero, Real.sqrt_zero]
    exact ⟨by simpa [hval] using nearestTo_self ha, h0⟩
  | false =>
    refine fsqrt_nearestTo_of_pos ha hz (Bool.eq_false_iff.mpr fun hneg => ?_)
    have hmag : mag a ≠ 0 := fun h => by simp [isZero_iff.mpr ⟨ha, h⟩] at hz
    rw [sval, if_pos hneg] at h0
    omega

/-- Settles O22: the half that `rootTwice` adds to an inexact integer root keeps it on the real root's side of
every rounding boundary. -/
theorem squareRootsAreCorrectlyRounded : Obligations.SquareRootsAreCorrectlyRounded := by
  intro a ha h0
  obtain ⟨⟨hfin, hnear⟩, hpos⟩ := fsqrt_nearestTo ha (posZero_fle_iff.mp h0).2
  exact ⟨hfin, posZero_fle_iff.mpr ⟨isNaN_of_isFinite hfin, hpos⟩, hnear⟩

end Sys2Proof.Proofs
end

section
/-!
PROOFS. `clamp` (R95), and the special values of the basic arithmetic with their signs (R91, R92).
-/
namespace Sys2Proof.Proofs

open Sys2Proof.Machine Sys2Proof.Config

/-! Infinities. -/

theorem isInf_iff {w : Word} : isInf w = true ↔ expField w = 255 ∧ fracField w = 0 := by
  simp [isInf]

/-- The magnitude of an infinity is 2^128 (R10). -/
theorem mag_of_isInf {w : Word} (h : isInf w = true) : mag w = 2 ^ 277 := by
  obtain ⟨hexp, hfrac⟩ := isInf_iff.mp h
  rw [mag, hexp, hfrac, if_neg (by decide), Nat.add_zero, ← pow_add]

theorem isZero_of_isInf {w : Word} (h : isInf w = true) : isZero w = false := by
  have hmag : mag w ≠ 0 := by
    rw [mag_of_isInf h]
    positivity
  simp [isZero, hmag]

/-- A finite magnitude is below that of an infinity. -/
theorem mag_lt_of_isFinite {w : Word} (h : isFinite w = true) : mag w < 2 ^ 277 := by
  calc mag w ≤ (2 ^ 24 - 1) * 2 ^ 253 := mag_le_of_isFinite h
    _ < 2 ^ 24 * 2 ^ 253 := Nat.mul_lt_mul_of_pos_right (by decide) (by positivity)
    _ = 2 ^ 277 := by rw [← pow_add]

/-! `clamp` (R95). -/

theorem clamp_of_isNaN {x : Word} (lo hi : Word) (h : isNaN x = true) : clamp x lo hi = hi := by
  simp [clamp, h]

theorem clamp_of_flt {x lo : Word} (hi : Word) (h : flt x lo = true) : clamp x lo hi = lo := by
  simp [clamp, h, (flt_iff.mp h).1]

theorem clamp_of_fgt {x lo hi : Word} (hle : fle lo hi = true) (h : fgt x hi = true) :
    clamp x lo hi = hi := by
  obtain ⟨_, hx, hlt⟩ := flt_iff.mp h
  obtain ⟨_, _, hle⟩ := fle_iff.mp hle
  have hlo : flt x lo = false := Bool.eq_false_iff.mpr fun hl => by
    obtain ⟨_, _, hl⟩ := flt_iff.mp hl
    omega
  simp [clamp, hx, hlo, h]

theorem clamp_of_within {x lo hi : Word} (h : within lo hi x = true) : clamp x lo hi = x := by
  obtain ⟨_, hx, _, hlo, hhi⟩ := within_iff.mp h
  have hl : flt x lo = false := by simp [flt, not_lt.mpr hlo]
  have hh : fgt x hi = false := by simp [fgt, flt, not_lt.mpr hhi]
  simp [clamp, hx, hl, hh]

/-- Settles O19: the cases of `clamp`; an infinity is beyond every finite bound. -/
theorem clampRule : Obligations.ClampRule := by
  intro x lo hi hlo hhi hle
  have hlo' := mag_lt_of_isFinite hlo
  have hhi' := mag_lt_of_isFinite hhi
  have hloAbs := natAbs_sval lo
  have hhiAbs := natAbs_sval hi
  have hposInf : sval 0x7F800000#32 = 2 ^ 23 * 2 ^ 254 := by decide
  have hnegInf : sval 0xFF800000#32 = -(2 ^ 23 * 2 ^ 254) := by decide
  have hrange := within_clamp x hle
  refine ⟨clamp_of_isNaN lo hi, clamp_of_flt hi, clamp_of_fgt hle, clamp_of_within,
    clamp_of_fgt hle ?_, clamp_of_flt hi ?_, hrange, (within_iff.mp hrange).2.1⟩
  · exact flt_iff.mpr ⟨isNaN_of_isFinite hhi, by decide, by omega⟩
  · exact flt_iff.mpr ⟨by decide, isNaN_of_isFinite hlo, by omega⟩

/-! Special values of the arithmetic (R91, R92). -/

/-- A packed infinity: its class and its sign. -/
theorem pack_infMag_spec (neg : Bool) :
    isInf (pack neg infMag) = true ∧ isNeg (pack neg infMag) = neg :=
  ⟨isInf_pack_infMag neg, isNeg_pack neg (by decide)⟩

/-- An infinity absorbs every number of a sum but an infinity of the other sign. -/
theorem fadd_of_isInf {a b : Word} (ha : isInf a = true) (hb : isNaN b = false) :
    fadd a b = if isInf b && isNeg a != isNeg b then canonNaN else a := by
  simp [fadd, ha, hb, isNaN_of_isInf ha]

theorem fadd_of_isFinite_of_isInf {a b : Word} (ha : isFinite a = true) (hb : isInf b = true) :
    fadd a b = b := by
  simp [fadd, isNaN_of_isFinite ha, isInf_of_isFinite ha, hb, isNaN_of_isInf hb]

/-- An infinity with itself, added and subtracted. -/
theorem fadd_fsub_isInf_self {a : Word} (ha : isInf a = true) :
    fadd a a = a ∧ fadd a (fneg a) = canonNaN ∧ fsub a a = canonNaN ∧ fsub a (fneg a) = a := by
  have hn := isNaN_of_isInf ha
  have hself : fadd a a = a := by simp [fadd_of_isInf ha hn]
  have hopp : fadd a (fneg a) = canonNaN := by
    rw [fadd_of_isInf ha (isNaN_fneg hn), isInf_fneg hn, isNeg_fneg hn, ha]
    cases isNeg a <;> rfl
  exact ⟨hself, hopp, hopp, by rw [fsub, fneg_fneg hn, hself]⟩

/-- An infinity and a finite operand, added and subtracted either way. -/
theorem fadd_fsub_isInf_isFinite {a b : Word} (ha : isInf a = true) (hb : isFinite b = true) :
    fadd a b = a ∧ fadd b a = a ∧ fsub a b = a ∧ fsub b a = fneg a := by
  have hbn := isNaN_of_isFinite hb
  have han := isNaN_of_isInf ha
  have hb' : isFinite (fneg b) = true := (isFinite_fneg hbn).trans hb
  have hleft (c : Word) (hc : isFinite c = true) : fadd a c = a := by
    simp [fadd_of_isInf ha (isNaN_of_isFinite hc), isInf_of_isFinite hc]
  exact ⟨hleft b hb, fadd_of_isFinite_of_isInf hb ha, hleft _ hb',
    fadd_of_isFinite_of_isInf hb ((isInf_fneg han).trans ha)⟩

/-- The difference of equal finite operands is a zero, negative only for `-0.0` minus `+0.0`. -/
theorem fsub_of_feq {a b : Word} (ha : isFinite a = true) (hb : isFinite b = true)
    (h : feq a b = true) :
    fsub a b = if isNeg a && !isNeg b then 0x80000000#32 else 0x00000000#32 := by
  have hbn := isNaN_of_isFinite hb
  have hval : sval a = sval b := by
    simp only [feq, Bool.and_eq_true, decide_eq_true_eq] at h
    exact h.2
  rw [fsub, fadd_of_sum_zero ha ((isFinite_fneg hbn).trans hb) (by rw [sval_fneg hbn]; omega),
    isNeg_fneg hbn, pack_zero]

/-- An infinity times a zero, either way. -/
theorem fmul_isInf_isZero {a b : Word} (ha : isInf a = true) (hb : isZero b = true) :
    fmul a b = canonNaN ∧ fmul b a = canonNaN := by
  simp [fmul, ha, hb]

/-- An infinity times any other number, either way. -/
theorem fmul_of_isInf {a b : Word} (ha : isInf a = true) (hb : isNaN b = false)
    (h0 : isZero b = false) :
    fmul a b = pack (isNeg a != isNeg b) infMag ∧ fmul b a = pack (isNeg a != isNeg b) infMag := by
  have hxor : (isNeg b != isNeg a) = (isNeg a != isNeg b) := bne_comm
  simp [fmul, ha, hb, h0, isNaN_of_isInf ha, isZero_of_isInf ha, hxor]

theorem fdiv_isInf_isInf {a b : Word} (ha : isInf a = true) (hb : isInf b = true) :
    fdiv a b = canonNaN := by
  simp [fdiv, ha, hb]

theorem fdiv_isInf_isFinite {a b : Word} (ha : isInf a = true) (hb : isFinite b = true) :
    fdiv a b = pack (isNeg a != isNeg b) infMag := by
  simp [fdiv, ha, isNaN_of_isInf ha, isNaN_of_isFinite hb, isInf_of_isFinite hb]

theorem fdiv_isFinite_isInf {a b : Word} (ha : isFinite a = true) (hb : isInf b = true) :
    fdiv a b = pack (isNeg a != isNeg b) 0 := by
  simp [fdiv, hb, isNaN_of_isInf hb, isNaN_of_isFinite ha, isInf_of_isFinite ha]

/-- A number that is not zero over a zero. -/
theorem fdiv_of_isZero {a b : Word} (ha : isNaN a = false) (h0 : isZero a = false)
    (hb : isZero b = true) : fdiv a b = pack (isNeg a != isNeg b) infMag := by
  have hbf := (isZero_iff.mp hb).1
  cases hinf : isInf a with
  | true => exact fdiv_isInf_isFinite hinf hbf
  | false => simp [fdiv, ha, h0, hb, hinf, isNaN_of_isFinite hbf, isInf_of_isFinite hbf]

theorem fdiv_isZero_isZero {a b : Word} (ha : isZero a = true) (hb : isZero b = true) :
    fdiv a b = canonNaN := by
  simp [fdiv, ha, hb, isInf_of_isFinite (isZero_iff.mp ha).1, isInf_of_isFinite (isZero_iff.mp hb).1]

/-- The root of a number below zero. -/
theorem fsqrt_of_neg {a : Word} (h : flt a posZero = true) : fsqrt a = canonNaN := by
  obtain ⟨hn, -, hlt⟩ := flt_iff.mp h
  rw [show sval posZero = 0 by decide] at hlt
  have hz : isZero a = false := Bool.eq_false_iff.mpr fun hz => by
    rw [sval_of_isZero hz] at hlt
    omega
  have hneg : isNeg a = true := by
    by_contra hpos
    rw [sval, if_neg hpos] at hlt
    omega
  simp [fsqrt, hn, hz, hneg]

/-- Settles O23: one lemma per pair of classes of the operands. -/
theorem arithmeticSpecialValues : Obligations.ArithmeticSpecialValues := by
  intro a b
  have hinf := pack_infMag_spec (isNeg a != isNeg b)
  refine ⟨fun h => ⟨fadd_of_isNaN h, fsub_of_isNaN h, fmul_of_isNaN h, fdiv_of_isNaN h⟩,
    fun h => by simp [fsqrt, h], fadd_fsub_isInf_self, fadd_fsub_isInf_isFinite, fsub_of_feq,
    fmul_isInf_isZero, fun ha hb h0 => ?_, fdiv_isInf_isInf, fun ha hb => ?_, fun ha hb => ?_,
    fun ha h0 hb => ?_, fdiv_isZero_isZero, fsqrt_of_neg, fsqrt_of_isZero, by decide⟩
  · obtain ⟨hab, hba⟩ := fmul_of_isInf ha hb h0
    rw [hab, hba]
    exact ⟨hinf.1, hinf.2, hinf⟩
  · rw [fdiv_isInf_isFinite ha hb]
    exact hinf
  · rw [fdiv_isFinite_isInf ha hb]
    exact ⟨by cases (isNeg a != isNeg b) <;> decide, isNeg_pack _ (by decide)⟩
  · rw [fdiv_of_isZero ha h0 hb]
    exact hinf

end Sys2Proof.Proofs
end

section
/-!
PROOFS. Exact operations: rounding gives back what is a binary32 already; `float`, `ifloor`, `ffloor` and `fmod`
(R96), and `wrap2pi` (R100).
-/
namespace Sys2Proof.Proofs

open Sys2Proof.Machine Sys2Proof.Config

/-! Rounding what is a binary32 already. -/

/-- A magnitude with a last place and a significand is rounded to its own pattern. -/
theorem roundMag_significand {K q : Nat} (h : Normal K q) (hq : q < 2 ^ 24) :
    roundMag (q * 2 ^ K) 1 = min (K * 2 ^ 23 + q) infMag := by
  have hplace : lastPlace (q * 2 ^ K) 1 = K := by
    rw [lastPlace, Nat.div_one]
    rcases h.2 with rfl | hlow
    · rw [pow_zero, Nat.mul_one]
      rcases Nat.eq_zero_or_pos q with rfl | hpos
      · rfl
      · have := (Nat.log2_lt hpos.ne').mpr hq
        omega
    · have hlog : (q * 2 ^ K).log2 = 23 + K := by
        refine (Nat.log2_eq_iff (by positivity)).mpr ⟨?_, ?_⟩
        · rw [pow_add]
          exact Nat.mul_le_mul_right _ hlow
        · rw [show 23 + K + 1 = 24 + K by omega, pow_add]
          exact Nat.mul_lt_mul_of_pos_right hq (by positivity)
      omega
  have hsig : roundedSignificand (q * 2 ^ K) 1 = q := by
    rw [roundedSignificand, hplace, Nat.one_mul, roundDiv, Nat.mul_mod_left,
      Nat.mul_div_cancel _ (by positivity), if_pos (by positivity)]
  rw [roundMag_eq, hplace, hsig]

/-- Rounding the magnitude of a finite word gives the word back, bit for bit. -/
theorem pack_roundMag_mag {w : Word} (h : isFinite w = true) :
    pack (isNeg w) (roundMag (mag w) 1) = w := by
  obtain ⟨K, q, hnorm, hq, hmag, hpack, -, hK⟩ := exists_significand w
  have hK := hK h
  have hinf : infMag = 255 * 2 ^ 23 := by decide
  rw [hmag, roundMag_significand hnorm hq, min_eq_left (by omega), ← hpack]

/-- A number of at most 24 bits times a power of two has a last place and a significand. -/
theorem exists_normal {c : Nat} (k : Nat) (hc : c ≤ 2 ^ 24) :
    ∃ K q, Normal K q ∧ q < 2 ^ 24 ∧ c * 2 ^ k = q * 2 ^ K := by
  rcases Nat.eq_or_lt_of_le hc with rfl | hc
  · exact ⟨k + 1, 2 ^ 23, ⟨by decide, .inr (le_refl _)⟩, by decide, by ring⟩
  · induction k generalizing c with
    | zero => exact ⟨0, c, ⟨hc.le, .inl rfl⟩, hc, rfl⟩
    | succ k ih =>
      rcases Nat.lt_or_ge c (2 ^ 23) with hlow | hfull
      · obtain ⟨K, q, hnorm, hq, heq⟩ := ih (c := 2 * c) (by omega) (by omega)
        exact ⟨K, q, hnorm, hq, by rw [← heq]; ring⟩
      · exact ⟨k + 1, c, ⟨hc.le, .inr hfull⟩, hc, rfl⟩

/-- A number of at most 24 bits times a power of two, below 2^128, is rounded to itself. -/
theorem roundMag_exact (neg : Bool) {c k : Nat} (hc : c ≤ 2 ^ 24) (hlt : c * 2 ^ k < 2 ^ 277) :
    isFinite (pack neg (roundMag (c * 2 ^ k) 1)) = true ∧
    mag (pack neg (roundMag (c * 2 ^ k) 1)) = c * 2 ^ k ∧
    isNeg (pack neg (roundMag (c * 2 ^ k) 1)) = neg := by
  obtain ⟨K, q, hnorm, hq, heq⟩ := exists_normal k hc
  have hinf : infMag = 255 * 2 ^ 23 := by decide
  have hK : K ≤ 253 := by
    by_contra hK
    have hlow := hnorm.2.resolve_left (by omega)
    have : 2 ^ 23 * 2 ^ 254 ≤ q * 2 ^ K :=
      Nat.mul_le_mul hlow (Nat.pow_le_pow_right (by decide) (by omega))
    rw [← pow_add] at this
    omega
  have hfit : K * 2 ^ 23 + q < infMag := by omega
  rw [heq, roundMag_significand hnorm hq, min_eq_left hfit.le]
  exact ⟨isFinite_pack neg hfit, mag_pack_significand neg hnorm (lt_of_le_infMag hfit.le),
    isNeg_pack neg (lt_of_le_infMag hfit.le)⟩

/-! `float`, `ifloor` and `ffloor` (R96). -/

/-- A whole number of 2^149 units is an integer. -/
theorem ratVal_of_sval {w : Word} {i : ℤ} (h : sval w = i * 2 ^ 149) : ratVal w = i := by
  rw [ratVal, h, Int.cast_mul, Int.cast_pow, Int.cast_ofNat]
  exact mul_div_cancel_right₀ _ (by positivity)

/-- `float` is exact up to 2^24. -/
theorem floatOfInt_exact {i : ℤ} (h : |i| ≤ 2 ^ 24) :
    isFinite (floatOfInt i) = true ∧ ratVal (floatOfInt i) = i := by
  have habs : i.natAbs ≤ 2 ^ 24 := by
    obtain ⟨hlow, hup⟩ := abs_le.mp h
    omega
  have hlt : i.natAbs * 2 ^ 149 < 2 ^ 277 := by omega
  obtain ⟨hfin, hmag, hneg⟩ := roundMag_exact (decide (i < 0)) habs hlt
  refine ⟨hfin, ratVal_of_sval ?_⟩
  rw [floatOfInt, sval, hneg, hmag]
  push_cast
  rcases lt_or_ge i 0 with h0 | h0
  · rw [if_pos (by simpa using h0), abs_of_neg h0]
    ring
  · rw [if_neg (by simpa using h0), abs_of_nonneg h0]

/-- `ifloor` is the floor of the value. -/
theorem ifloor_eq (v : Word) : ifloor v = ⌊ratVal v⌋ := by
  have h := Rat.floor_intCast_div_natCast (sval v) (2 ^ 149)
  rw [Nat.cast_pow, Nat.cast_ofNat, Nat.cast_pow, Nat.cast_ofNat] at h
  rw [ifloor, ratVal, h]

/-- From 2^23 on a binary32 is a whole number. -/
theorem two_pow_dvd_mag {v : Word} (h : 2 ^ 23 * 2 ^ 149 ≤ mag v) : 2 ^ 149 ∣ mag v := by
  obtain ⟨K, q, -, hq, hmag, -⟩ := exists_significand v
  have hK : 149 ≤ K := by
    by_contra hK
    have : q * 2 ^ K ≤ (2 ^ 24 - 1) * 2 ^ 148 :=
      Nat.mul_le_mul (by omega) (Nat.pow_le_pow_right (by decide) (by omega))
    omega
  rw [hmag]
  exact Dvd.dvd.mul_left (pow_dvd_pow 2 hK) q

/-- A magnitude of whole 2^149 units is that of an integer. -/
theorem exists_sval_eq {v : Word} (hdvd : 2 ^ 149 ∣ mag v) : ∃ i : ℤ, sval v = i * 2 ^ 149 := by
  obtain ⟨i, hi⟩ : (2 : ℤ) ^ 149 ∣ sval v := by
    rw [← Int.natAbs_dvd_natAbs, natAbs_sval]
    exact hdvd
  exact ⟨i, hi.trans (mul_comm _ _)⟩

/-- `float` of the floor of a whole number that is not zero is that number, bit for bit. -/
theorem floatOfInt_ifloor {v : Word} (h : isFinite v = true) (h0 : isZero v = false)
    (hdvd : 2 ^ 149 ∣ mag v) : floatOfInt (ifloor v) = v := by
  have hmag : mag v ≠ 0 := fun hm => by simp [isZero_iff.mpr ⟨h, hm⟩] at h0
  obtain ⟨i, hi⟩ := exists_sval_eq hdvd
  have hfloor : ifloor v = i := by
    rw [ifloor, hi, Int.mul_ediv_cancel _ (by positivity)]
  have habs : i.natAbs * 2 ^ 149 = mag v := by
    rw [← natAbs_sval, hi, Int.natAbs_mul]
    rfl
  have hneg : decide (i < 0) = isNeg v := by
    rw [sval] at hi
    cases hs : isNeg v with
    | true =>
      rw [hs, if_pos rfl] at hi
      exact decide_eq_true (by omega)
    | false =>
      rw [hs, if_neg Bool.false_ne_true] at hi
      exact decide_eq_false (by omega)
  rw [floatOfInt, hfloor, habs, hneg, pack_roundMag_mag h]

/-- `ffloor` of a value from 2^23 on is that value. -/
theorem ffloor_of_large {v : Word} (h : isFinite v = true) (hlarge : 2 ^ 23 * 2 ^ 149 ≤ mag v) :
    ffloor v = v := by
  have h0 : isZero v = false := Bool.eq_false_iff.mpr fun hz => by
    have := (isZero_iff.mp hz).2
    omega
  rw [ffloor, h, h0, if_neg (by decide), if_neg (by decide),
    floatOfInt_ifloor h h0 (two_pow_dvd_mag hlarge)]

/-- `ffloor` of a finite value is finite and its floor. -/
theorem ffloor_exact {v : Word} (h : isFinite v = true) :
    isFinite (ffloor v) = true ∧ ratVal (ffloor v) = ⌊ratVal v⌋ := by
  rcases Nat.lt_or_ge (mag v) (2 ^ 23 * 2 ^ 149) with hsmall | hlarge
  · cases h0 : isZero v with
    | true =>
      have hfl : ffloor v = v := by simp [ffloor, h, h0]
      rw [hfl, ratVal_of_isZero h0]
      simpa using h
    | false =>
      have hfl : ffloor v = floatOfInt (ifloor v) := by simp [ffloor, h, h0]
      have habs := natAbs_sval v
      rw [hfl, ← ifloor_eq]
      refine floatOfInt_exact (abs_le.mpr ?_)
      rw [ifloor]
      omega
  · obtain ⟨i, hi⟩ := exists_sval_eq (two_pow_dvd_mag hlarge)
    rw [ffloor_of_large h hlarge, ratVal_of_sval hi, Int.floor_intCast]
    exact ⟨h, rfl⟩

/-! `fmod` (R96). -/

/-- The remainder of two magnitudes has at most 24 bits. -/
theorem exists_mag_mod (x : Word) {y : Word} (hy : 0 < mag y) :
    ∃ c k, c ≤ 2 ^ 24 ∧ mag x % mag y = c * 2 ^ k := by
  obtain ⟨K, q, -, hq, hx, -⟩ := exists_significand x
  obtain ⟨K', q', -, hq', hy', -⟩ := exists_significand y
  rw [hy'] at hy
  have hpos : 0 < q' := Nat.pos_of_mul_pos_right hy
  rcases Nat.le_total K K' with hK | hK
  · refine ⟨q % (q' * 2 ^ (K' - K)), K, (Nat.mod_le _ _).trans hq.le, ?_⟩
    rw [hx, hy', ← Nat.mul_mod_mul_right, Nat.mul_assoc, ← pow_add, Nat.sub_add_cancel hK]
  · refine ⟨q * 2 ^ (K - K') % q', K', ((Nat.mod_lt _ hpos).trans hq').le, ?_⟩
    rw [hx, hy', ← Nat.mul_mod_mul_right, Nat.mul_assoc, ← pow_add, Nat.sub_add_cancel hK]

theorem fmod_of_isFinite {x : Word} (y : Word) (hx : isFinite x = true) :
    fmod x y = pack (isNeg x) (roundMag (mag x % mag y) 1) := by
  simp [fmod, hx]

/-- `fmod` is exact: it packs the sign of the dividend and the remainder of the magnitudes. -/
theorem fmod_exact {x y : Word} (hx : isFinite x = true) (hy : 0 < mag y) :
    isFinite (fmod x y) = true ∧ mag (fmod x y) = mag x % mag y ∧ isNeg (fmod x y) = isNeg x := by
  obtain ⟨c, k, hc, hrem⟩ := exists_mag_mod x hy
  have hlt := (Nat.mod_le (mag x) (mag y)).trans_lt (mag_lt_of_isFinite hx)
  rw [fmod_of_isFinite y hx, hrem]
  rw [hrem] at hlt
  exact roundMag_exact (isNeg x) hc hlt

/-- A value above zero is its magnitude. -/
theorem sval_eq_mag_of_nonneg {w : Word} (h : 0 ≤ sval w) : sval w = mag w := by
  have := natAbs_sval w
  omega

/-- `fmod` is the truncating remainder of the signed values. -/
theorem sval_fmod {x y : Word} (hx : isFinite x = true) (hy : 0 < sval y) :
    sval (fmod x y) = (sval x).tmod (sval y) := by
  have hy' := sval_eq_mag_of_nonneg hy.le
  obtain ⟨-, hmag, hneg⟩ := fmod_exact hx (y := y) (by omega)
  rw [sval, hneg, hmag, hy']
  cases hs : isNeg x with
  | true => rw [if_pos rfl, sval, if_pos hs, Int.neg_tmod, Int.ofNat_tmod]
  | false => rw [if_neg Bool.false_ne_true, sval, if_neg (by simp [hs]), Int.ofNat_tmod]

/-- The truncating remainder: below the divisor, a whole number of divisors from the dividend, and no more of
them than the dividend holds. -/
theorem fmod_spec {x y : Word} (hx : isFinite x = true) (hy : 0 < sval y) :
    |ratVal (fmod x y)| < ratVal y ∧
    ∃ n : ℤ, ratVal (fmod x y) = ratVal x - n * ratVal y ∧ |(n : ℚ)| * ratVal y ≤ |ratVal x| := by
  have hy' := sval_eq_mag_of_nonneg hy.le
  obtain ⟨-, hmag, -⟩ := fmod_exact hx (y := y) (by omega)
  have hyval : ratVal y = mag y / 2 ^ 149 := by
    rw [ratVal, hy', Int.cast_natCast]
  constructor
  · rw [abs_ratVal, hmag, hyval, div_lt_div_iff_of_pos_right (by positivity), Nat.cast_lt]
    exact Nat.mod_lt _ (by omega)
  · refine ⟨(sval x).tdiv (sval y), ?_, ?_⟩
    · have hdiv : (sval (fmod x y) : ℚ) = sval x - (sval x).tdiv (sval y) * sval y := by
        rw [sval_fmod hx hy]
        have := Int.tmod_add_mul_tdiv (sval x) (sval y)
        exact_mod_cast (by linarith : (sval x).tmod (sval y) = sval x - (sval x).tdiv (sval y) * sval y)
      rw [ratVal, hdiv, ratVal, ratVal]
      ring
    · have habs : |((sval x).tdiv (sval y) : ℚ)| = (mag x / mag y : ℕ) := by
        rw [← Int.cast_abs, Int.abs_eq_natAbs, Int.natAbs_tdiv, natAbs_sval, natAbs_sval,
          Int.cast_natCast]
        rfl
      rw [habs, abs_ratVal, hyval, ← mul_div_assoc, div_le_div_iff_of_pos_right (by positivity)]
      exact_mod_cast Nat.div_mul_le_self _ _

/-- Settles O24: the integers up to 2^24, the floors and the remainders of binary32 are binary32, so nothing is
rounded. -/
theorem floorAndRemainderAreExact : Obligations.FloorAndRemainderAreExact := by
  refine ⟨fun v hv => ?_, fun v hv => by simp [ffloor, hv], by decide,
    fun i hi => floatOfInt_exact hi, fun x y _ hpos => ?_⟩
  · obtain ⟨hfin, hval⟩ := ffloor_exact hv
    refine ⟨ifloor_eq v, hfin, hval, fun hlarge => ffloor_of_large hv ?_⟩
    rw [abs_ratVal, le_div_iff₀ (by positivity)] at hlarge
    exact_mod_cast hlarge
  · have hy : 0 < sval y := by
      have := (flt_iff.mp hpos).2.2
      rwa [show sval posZero = 0 by decide] at this
    refine ⟨fun hx => by simp [fmod, hx], fun hx => ?_⟩
    have hy' := sval_eq_mag_of_nonneg hy.le
    obtain ⟨hfin, -, hneg⟩ := fmod_exact hx (y := y) (by omega)
    exact ⟨hfin, hneg, fmod_spec hx hy⟩

/-! The remainder folded into the range (R100, R110). -/

/-- The remainder is smaller than the divisor, so only a sum can reach it. -/
theorem foldIntoRange_fmod {x m : Word} (hx : isFinite x = true) (hm : 0 < sval m) :
    foldIntoRange defaultNum (fmod x m) m =
      if flt (fmod x m) posZero then
        (if fge (fadd (fmod x m) m) m then posZero else fadd (fmod x m) m)
      else fmod x m := by
  split
  next h => exact foldIntoRange_of_neg h
  next h =>
    have hlt : sval (fmod x m) < sval m := by
      rw [← ratVal_lt_iff]
      exact (le_abs_self _).trans_lt (fmod_spec hx hm).1
    have hge : fge (fmod x m) m = false := by simp [fge, fle, hlt]
    rw [foldIntoRange_of_not_neg (Bool.eq_false_iff.mpr h), hge, if_neg Bool.false_ne_true]

/-- A phase in [0, `TWO_PI`) is its own remainder, bit for bit. -/
theorem fmod_of_lt {x m : Word} (hx : isFinite x = true) (hlt : mag x < mag m) : fmod x m = x := by
  rw [fmod_of_isFinite m hx, Nat.mod_eq_of_lt hlt, pack_roundMag_mag hx]

/-- `wrap2pi` leaves a phase in range as it is. -/
theorem wrap2pi_of_phaseInRange {p : Word} (h : phaseInRange p = true) :
    wrap2pi defaultNum p = p := by
  obtain ⟨hn, h0, hlt⟩ := phaseInRange_iff.mp h
  have hturn : sval fTwoPi = mag fTwoPi := by decide
  have hp := sval_eq_mag_of_nonneg h0
  have hsmall : mag fTwoPi < 2 ^ 277 := mag_lt_of_isFinite (by decide)
  have hfin : isFinite p = true := isFinite_of_mag_lt (by omega)
  have hneg : flt p posZero = false := by
    simp [flt, show sval posZero = 0 by decide, h0]
  rw [wrap2pi_of_finite hfin, foldIntoRange_fmod hfin (by decide), fmod_of_lt hfin (by omega), hneg,
    if_neg Bool.false_ne_true]

/-- Settles O25, with `phaseInRange_wrap2pi` for the range. -/
theorem wrapLandsInOneTurn : Obligations.WrapLandsInOneTurn := by
  refine fun p => ⟨fun hp => ⟨phaseInRange_wrap2pi hp, fun hneg => ?_, fun hneg => ?_⟩,
    wrap2pi_of_phaseInRange, wrap2pi_of_not_finite⟩
  · rw [wrap2pi_of_finite hp, foldIntoRange_fmod hp (by decide), hneg, if_neg Bool.false_ne_true]
  · rw [wrap2pi_of_finite hp, foldIntoRange_fmod hp (by decide), if_pos hneg]
    rfl

end Sys2Proof.Proofs
end

section
/-!
PROOFS. The delay line (R110, R111): a remainder folded into its range, the exact split of a position into an
entry and a weight, and the read at a whole delay.
-/
namespace Sys2Proof.Proofs

open Sys2Proof.Machine Sys2Proof.Config

/-- Where the order of the values fails one way, it holds the other way. -/
theorem ratVal_lt_of_fge_false {a b : Word} (ha : isFinite a = true) (hb : isFinite b = true)
    (h : ¬ fge a b = true) : ratVal a < ratVal b :=
  ratVal_lt_iff.mpr (flt_iff.mp (flt_of_fle_false (isNaN_of_isFinite hb) (isNaN_of_isFinite ha)
    (Bool.eq_false_iff.mpr h))).2.2

/-- `< +0.0` on finite words, in values. -/
theorem flt_posZero_iff {a : Word} (ha : isFinite a = true) :
    flt a posZero = true ↔ ratVal a < 0 := by
  have hzero : ratVal posZero = 0 := ratVal_of_isZero (by decide)
  rw [← hzero, ratVal_lt_iff, flt_iff]
  exact ⟨fun h => h.2.2, fun h => ⟨isNaN_of_isFinite ha, by decide, h⟩⟩

/-- A remainder folded into the range of its divisor lies there (R100, R110). -/
theorem foldIntoRange_fmod_range {x m : Word} (hx : isFinite x = true) (hmf : isFinite m = true)
    (hm : 0 < sval m) :
    isFinite (foldIntoRange defaultNum (fmod x m) m) = true ∧
    0 ≤ ratVal (foldIntoRange defaultNum (fmod x m) m) ∧
    ratVal (foldIntoRange defaultNum (fmod x m) m) < ratVal m := by
  have hzero : ratVal posZero = 0 := ratVal_of_isZero (by decide)
  have hm' : 0 < ratVal m := by
    rw [← hzero, ratVal_lt_iff]
    exact hm
  have hrf : isFinite (fmod x m) = true := by
    have := sval_eq_mag_of_nonneg hm.le
    exact (fmod_exact hx (by omega)).1
  obtain ⟨hlow, hup⟩ := abs_lt.mp (fmod_spec hx hm).1
  rw [foldIntoRange_fmod hx hm]
  split
  next hneg =>
    have hneg := (flt_posZero_iff hrf).mp hneg
    obtain ⟨hfin, hpos, -⟩ := roundsTo_le (fadd_roundsTo hrf hmf) hmf (by linarith) (by linarith)
    split
    · exact ⟨by decide, hzero.ge, hzero.symm ▸ hm'⟩
    next hge => exact ⟨hfin, hpos, ratVal_lt_of_fge_false hfin hmf hge⟩
  next hneg => exact ⟨hrf, not_lt.mp (mt (flt_posZero_iff hrf).mpr hneg), hup⟩

/-! The split of a position. -/

/-- The remainder by 1.0 of a number that is not negative is its fractional part. -/
theorem ratVal_fmod_fOne {p : Word} (hp : isFinite p = true) (h0 : 0 ≤ sval p) :
    ratVal (fmod p fOne) = Int.fract (ratVal p) := by
  have hone : sval fOne = 2 ^ 149 := by decide
  have hrem : sval (fmod p fOne) = sval p - 2 ^ 149 * ifloor p := by
    rw [sval_fmod hp (by rw [hone]; positivity), hone, Int.tmod_eq_emod_of_nonneg h0, ifloor,
      Int.emod_def]
  rw [Int.fract, ← ifloor_eq, ratVal, hrem, ratVal, Int.cast_sub, Int.cast_mul, Int.cast_pow,
    Int.cast_ofNat, sub_div, mul_div_cancel_left₀ _ (by positivity)]

/-- A position minus its floor is exact, since the fractional part has no more bits than the position. -/
theorem fsub_floor_exact {p : Word} (hp : isFinite p = true) (h0 : 0 ≤ ratVal p)
    (hlt : ratVal p < 2 ^ 24) :
    isFinite (fsub p (floatOfInt ⌊ratVal p⌋.toNat)) = true ∧
    ratVal (fsub p (floatOfInt ⌊ratVal p⌋.toNat)) = Int.fract (ratVal p) := by
  have hfloor : (⌊ratVal p⌋.toNat : ℤ) = ⌊ratVal p⌋ := Int.toNat_of_nonneg (Int.floor_nonneg.mpr h0)
  have hbound : |(⌊ratVal p⌋ : ℤ)| ≤ 2 ^ 24 := by
    rw [abs_of_nonneg (Int.floor_nonneg.mpr h0)]
    exact_mod_cast (Int.floor_le (ratVal p)).trans hlt.le
  obtain ⟨hfin, hval⟩ := floatOfInt_exact hbound
  have h0' : 0 ≤ sval p := by
    have hzero : ratVal posZero = 0 := ratVal_of_isZero (by decide)
    rwa [← hzero, ratVal_le_iff] at h0
  have hone : 0 < mag fOne := by decide
  have hexact := ratVal_fmod_fOne hp h0'
  rw [hfloor]
  have hround := roundsTo_exact (fsub_roundsTo hp hfin) (fmod_exact hp hone).1
    (by rw [hexact, hval, Int.fract])
  rwa [hval, ← Int.fract] at hround

/-- The value of the constant 4410.0 (R7). -/
theorem ratVal_f4410 : ratVal f4410 = (4410 : ℤ) := ratVal_of_sval (by decide)

/-- The value of the constant 1.0. -/
theorem ratVal_fOne : ratVal fOne = (1 : ℤ) := ratVal_of_sval (by decide)

/-- The read position of a finite difference lies in the buffer (R110). -/
theorem fdlPosition_range {wp : Nat} {d : Word} (hx : isFinite (fsub (floatOfInt wp) d) = true) :
    isFinite (fdlPosition defaultNum wp d) = true ∧ 0 ≤ ratVal (fdlPosition defaultNum wp d) ∧
    ratVal (fdlPosition defaultNum wp d) < 4410 := by
  have hcap : ratVal f4410 = 4410 := ratVal_f4410
  rw [← hcap]
  exact foldIntoRange_fmod_range hx (by decide) (by decide)

/-- The read position of a finite difference: the remainder, with 4410 added to a negative one (R110). -/
theorem fdlPosition_eq {wp : Nat} {d : Word} (hx : isFinite (fsub (floatOfInt wp) d) = true) :
    fdlPosition defaultNum wp d =
      if flt (fmod (fsub (floatOfInt wp) d) f4410) posZero then
        (if fge (fadd (fmod (fsub (floatOfInt wp) d) f4410) f4410) f4410 then posZero
          else fadd (fmod (fsub (floatOfInt wp) d) f4410) f4410)
      else fmod (fsub (floatOfInt wp) d) f4410 :=
  foldIntoRange_fmod hx (by decide)

/-- The entry index is the floor of the read position (R110). -/
theorem fdlIndex_eq (wp : Nat) (d : Word) :
    fdlIndex defaultNum wp d = ⌊ratVal (fdlPosition defaultNum wp d)⌋.toNat := by
  rw [fdlIndex, ifloor_eq]

/-- The weight of a read is exactly the fractional part of the position (R110). -/
theorem fdlFrac_exact {wp : Nat} {d : Word} (hx : isFinite (fsub (floatOfInt wp) d) = true) :
    isFinite (fdlFrac defaultNum wp d) = true ∧
    ratVal (fdlFrac defaultNum wp d) = Int.fract (ratVal (fdlPosition defaultNum wp d)) := by
  obtain ⟨hfin, h0, hlt⟩ := fdlPosition_range hx
  rw [fdlFrac, fdlIndex_eq]
  exact fsub_floor_exact hfin h0 (by linarith)

/-- Settles O32: the position lies in the buffer, and its fractional part is a binary32. -/
theorem delayReadPositionSplits : Obligations.DelayReadPositionSplits := by
  intro m wp d x r up pos i0 frac
  refine ⟨fun hx => ?_, fdlRead_of_not_finite (N := defaultNum)⟩
  have hpos : fdlPosition defaultNum wp d = pos := fdlPosition_eq hx
  have hi0 : fdlIndex defaultNum wp d = i0 := by rw [fdlIndex_eq, hpos]
  have hfrac : fdlFrac defaultNum wp d = frac := by
    rw [fdlFrac, hpos, hi0]
    rfl
  obtain ⟨hpfin, hp0, hp1⟩ := fdlPosition_range hx
  obtain ⟨hffin, hfval⟩ := fdlFrac_exact hx
  have hread := fdlRead_of_finite (N := defaultNum) (m := m) (wp := wp) (d := d) hx
  rw [hi0, hfrac] at hread
  rw [hfrac] at hffin
  rw [hfrac, hpos] at hfval
  rw [hpos] at hpfin hp0 hp1
  have hfloor : ((i0 : ℕ) : ℤ) = ⌊ratVal pos⌋ := Int.toNat_of_nonneg (Int.floor_nonneg.mpr hp0)
  have hcast : ((i0 : ℕ) : ℚ) = ⌊ratVal pos⌋ := by exact_mod_cast congrArg (Int.cast (R := ℚ)) hfloor
  have hi0lt : i0 < choCap := by
    have : ((i0 : ℕ) : ℚ) < 4410 := hcast ▸ (Int.floor_le (ratVal pos)).trans_lt hp1
    exact_mod_cast this
  refine ⟨hpfin, hp0, hi0lt, hffin, ?_, ?_, ?_, hread⟩
  · rw [hfval, hcast, Int.fract]
  · exact hfval ▸ Int.fract_nonneg _
  · exact hfval ▸ Int.fract_lt_one _

/-! A whole delay (R111). -/

/-- The sum or difference of finite operands that is a small integer is exact. -/
theorem roundsTo_int {x : ℚ} {r : Word} {i : ℤ} (h : RoundsTo x r) (hx : x = i) (hi : |i| ≤ 2 ^ 24) :
    isFinite r = true ∧ ratVal r = i := by
  obtain ⟨hfin, hval⟩ := floatOfInt_exact hi
  exact hx ▸ roundsTo_exact h hfin (hval.trans hx.symm)

/-- The difference of a write pointer and a whole delay is exact. -/
theorem fsub_floatOfInt_exact {wp n : Nat} (hwp : wp < choCap) (hn : n < choCap) :
    isFinite (fsub (floatOfInt wp) (floatOfInt n)) = true ∧
    ratVal (fsub (floatOfInt wp) (floatOfInt n)) = ((wp : ℤ) - n : ℤ) := by
  have hcap : choCap = 4410 := rfl
  obtain ⟨hwf, hwv⟩ := floatOfInt_exact (i := wp) (abs_le.mpr (by omega))
  obtain ⟨hnf, hnv⟩ := floatOfInt_exact (i := n) (abs_le.mpr (by omega))
  exact roundsTo_int (fsub_roundsTo hwf hnf) (by rw [hwv, hnv, Int.cast_sub]) (abs_le.mpr (by omega))

/-- A difference smaller than the buffer is its own remainder. -/
theorem fmod_f4410_of_lt {x : Word} (hx : isFinite x = true) (hlt : |ratVal x| < 4410) :
    fmod x f4410 = x := by
  refine fmod_of_lt hx ?_
  rw [abs_ratVal, div_lt_iff₀ (by positivity)] at hlt
  rw [show mag f4410 = 4410 * 2 ^ 149 by decide]
  exact_mod_cast hlt

/-- The read position of a whole delay is a whole number, with no rounding on the way (R111). -/
theorem fdlPosition_whole {wp n : Nat} (hwp : wp < choCap) (hn : n < choCap) :
    ratVal (fdlPosition defaultNum wp (floatOfInt n)) = ((wp + choCap - n) % choCap : ℕ) := by
  obtain ⟨hxf, hxv⟩ := fsub_floatOfInt_exact hwp hn
  have hcap : choCap = 4410 := rfl
  rw [hcap] at hwp hn ⊢
  have hsmall : |ratVal (fsub (floatOfInt wp) (floatOfInt n))| < 4410 := by
    rw [hxv]
    exact_mod_cast (abs_lt.mpr (by omega) : |(wp : ℤ) - n| < 4410)
  rw [fdlPosition_eq hxf, fmod_f4410_of_lt hxf hsmall]
  generalize fsub (floatOfInt wp) (floatOfInt n) = x at *
  have hsign : flt x posZero = true ↔ wp < n := by
    rw [flt_posZero_iff hxf, hxv, Int.cast_lt_zero]
    omega
  split
  next hneg =>
    have hlt := hsign.mp hneg
    obtain ⟨-, hupv⟩ := roundsTo_int (i := (wp : ℤ) - n + 4410)
      (fadd_roundsTo hxf (show isFinite f4410 = true by decide))
      (by rw [hxv, ratVal_f4410, Int.cast_add]) (abs_le.mpr (by omega))
    have hge : fge (fadd x f4410) f4410 = false := Bool.eq_false_iff.mpr fun hge => by
      have := ratVal_le_iff.mpr (fle_iff.mp hge).2.2
      rw [hupv, ratVal_f4410, Int.cast_le] at this
      omega
    rw [hge, if_neg Bool.false_ne_true, hupv,
      show (wp : ℤ) - n + 4410 = ((wp + 4410 - n) % 4410 : ℕ) by omega, Int.cast_natCast]
  next hneg =>
    have hle := mt hsign.mpr hneg
    rw [hxv, show (wp : ℤ) - n = ((wp + 4410 - n) % 4410 : ℕ) by omega, Int.cast_natCast]

/-- An interpolation with weight zero is the first of its operands (R111). -/
theorem interpolate_of_zero {a b frac : Word} (ha : isFinite a = true) (hb : isFinite b = true)
    (hf : isFinite frac = true) (h0 : ratVal frac = 0) :
    isFinite (interpolate defaultNum a b frac) = true ∧
    ratVal (interpolate defaultNum a b frac) = ratVal a := by
  obtain ⟨hcf, hcv⟩ := roundsTo_int (i := 1) (fsub_roundsTo (show isFinite fOne = true by decide) hf)
    (by rw [ratVal_fOne, h0, sub_zero]) (by decide)
  obtain ⟨hlf, hlv⟩ := roundsTo_exact (fmul_roundsTo ha hcf) ha (by rw [hcv, Int.cast_one, mul_one])
  obtain ⟨hrf, hrv⟩ := roundsTo_int (i := 0) (fmul_roundsTo hb hf)
    (by rw [h0, mul_zero, Int.cast_zero]) (by decide)
  have hsum := roundsTo_exact (fadd_roundsTo hlf hrf) ha
    (by rw [hlv, hrv, hcv, Int.cast_one, mul_one, Int.cast_zero, add_zero])
  rw [hlv, hrv, hcv, Int.cast_one, mul_one, Int.cast_zero, add_zero] at hsum
  exact hsum

/-- Finite words of one value are equal as numbers (R11). -/
theorem feq_of_ratVal_eq {a b : Word} (ha : isFinite a = true) (hb : isFinite b = true)
    (h : ratVal a = ratVal b) : feq a b = true := by
  simp [feq, isNaN_of_isFinite ha, isNaN_of_isFinite hb, ratVal_inj.mp h]

/-- Settles O33: a whole delay reads at a whole position, so the weight of the second entry is zero. -/
theorem wholeDelayReadsTheEntry : Obligations.WholeDelayReadsTheEntry := by
  intro m wp n hn ha hb
  have hx := (fsub_floatOfInt_exact wp.isLt hn).1
  have hpos := fdlPosition_whole wp.isLt hn
  have hi : fdlIndex defaultNum wp (floatOfInt n) = (wp.val + choCap - n) % choCap := by
    rw [fdlIndex_eq, hpos, Int.floor_natCast, Int.toNat_natCast]
  obtain ⟨hff, hfv⟩ := fdlFrac_exact hx
  rw [hpos, Int.fract_natCast] at hfv
  rw [fdlRead_of_finite hx, hi, Nat.mod_add_mod]
  obtain ⟨hfin, hval⟩ := interpolate_of_zero ha hb hff hfv
  exact feq_of_ratVal_eq hfin ha hval

end Sys2Proof.Proofs
end

section
/-!
PROOFS. The cosine table (R98, R99) against the real cosine. The doubled cosines 2·cos(jπ/512) are computed in
fixed point by nested square roots and the recurrence of the cosine, each with a bound on its error, and every
entry of the quarter wave is checked to lie within half a last place of them.
-/
namespace Sys2Proof.Proofs

open Sys2Proof.Machine Sys2Proof.Config

/-! Doubled cosines in fixed point, one being `S`. -/

/-- 2·cos(π/2^(n+1)): `n` nested square roots of 2 + … . -/
def halvedTwoCos (S : Nat) : Nat → Nat
  | 0 => 0
  | n + 1 => isqrt ((2 * S + halvedTwoCos S n) * S)

/-- A doubled cosine is at most two. -/
theorem halvedTwoCos_le (S n : Nat) : halvedTwoCos S n ≤ 2 * S := by
  induction n with
  | zero => exact Nat.zero_le _
  | succ n ih =>
    refine Nat.mul_self_le_mul_self_iff.mp ((isqrt_spec _).1.trans ?_)
    nlinarith

/-- The integer root is within one of the real root. -/
theorem abs_isqrt_sub_sqrt (n : Nat) : |(isqrt n : ℝ) - √n| ≤ 1 := by
  obtain ⟨hlow, hup⟩ := sqrt_between n
  have hrest : (rootRest n : ℝ) ≤ 1 := by exact_mod_cast rootRest_le n
  push_cast at hup
  rw [abs_le]
  constructor <;> linarith

/-- Roots are closer than their squares by the factor of one of them. -/
theorem abs_sqrt_sub_sqrt_mul_le {x y s : ℝ} (hx : 0 ≤ x) (hy : 0 ≤ y) (hs : s ≤ √x) :
    |√x - √y| * s ≤ |x - y| := by
  have hprod : (√x - √y) * (√x + √y) = x - y := by
    linear_combination Real.sq_sqrt hx - Real.sq_sqrt hy
  rw [← hprod, abs_mul, abs_of_nonneg (show 0 ≤ √x + √y by positivity)]
  exact mul_le_mul_of_nonneg_left (by linarith [Real.sqrt_nonneg y]) (abs_nonneg _)

/-- Each nested root adds at most one to the error. -/
theorem halvedTwoCos_error {S : Nat} (hS : 0 < S) (n : Nat) :
    |(halvedTwoCos S n : ℝ) - S * Real.sqrtTwoAddSeries 0 n| ≤ n := by
  induction n with
  | zero => simp [halvedTwoCos]
  | succ n ih =>
    have hS' : (0 : ℝ) < S := by exact_mod_cast hS
    have ht := Real.sqrtTwoAddSeries_zero_nonneg n
    have ha : (0 : ℝ) ≤ halvedTwoCos S n := Nat.cast_nonneg _
    have hround := abs_isqrt_sub_sqrt ((2 * S + halvedTwoCos S n) * S)
    rw [halvedTwoCos, Real.sqrtTwoAddSeries]
    push_cast at hround ⊢
    generalize (S : ℝ) = S' at *
    generalize (halvedTwoCos S n : ℝ) = a at *
    generalize Real.sqrtTwoAddSeries 0 n = t at *
    have hexact : S' * √(2 + t) = √((2 * S' + S' * t) * S') := by
      rw [show (2 * S' + S' * t) * S' = S' ^ 2 * (2 + t) by ring, Real.sqrt_mul (by positivity),
        Real.sqrt_sq hS'.le]
    have hprop : |√((2 * S' + a) * S') - √((2 * S' + S' * t) * S')| ≤ n := by
      have hlow : S' ≤ √((2 * S' + a) * S') := Real.le_sqrt_of_sq_le (by nlinarith)
      have h := abs_sqrt_sub_sqrt_mul_le (y := (2 * S' + S' * t) * S') (by positivity) (by positivity) hlow
      rw [show (2 * S' + a) * S' - (2 * S' + S' * t) * S' = (a - S' * t) * S' by ring, abs_mul,
        abs_of_pos hS'] at h
      exact (le_of_mul_le_mul_right h hS').trans ih
    rw [hexact]
    linarith [abs_sub_le (isqrt ((2 * S + halvedTwoCos S n) * S) : ℝ) (√((2 * S' + a) * S'))
      (√((2 * S' + S' * t) * S'))]

/-- The angle of one step of the quarter wave: a quarter turn in 256 steps (R99). -/
noncomputable def tableStep : ℝ := Real.pi / 512

/-- `a` is 2·cos(j·`tableStep`) in fixed point, up to an error of `e`. -/
def Approximates (S : Nat) (a : ℤ) (e j : Nat) : Prop :=
  |(a : ℝ) - S * (2 * Real.cos (j * tableStep))| ≤ e

theorem approximates_zero (S : Nat) : Approximates S (2 * S) 0 0 := by
  simp [Approximates, mul_comm]

theorem approximates_one {S : Nat} (hS : 0 < S) : Approximates S (halvedTwoCos S 8) 8 1 := by
  have hcos := Real.cos_pi_over_two_pow 8
  have herr := halvedTwoCos_error hS 8
  rw [show (2 : ℝ) ^ (8 + 1) = 512 by norm_num, ← tableStep] at hcos
  rw [Approximates, Nat.cast_one, one_mul, hcos, mul_div_cancel₀ _ two_ne_zero]
  exact_mod_cast herr

/-- Division rounded down is within one of the real quotient. -/
theorem abs_ediv_sub_div_le (n : ℤ) {S : Nat} (hS : 0 < S) : |((n / S : ℤ) : ℝ) - n / S| ≤ 1 := by
  have hS' : (0 : ℝ) < S := by exact_mod_cast hS
  have hrem : ((n % S : ℤ) : ℝ) = n - S * (n / S : ℤ) := by
    rw [Int.emod_def]
    push_cast
    ring
  have h0 : (0 : ℝ) ≤ (n % S : ℤ) := by exact_mod_cast Int.emod_nonneg n (by omega)
  have h1 : ((n % S : ℤ) : ℝ) ≤ S := by exact_mod_cast (Int.emod_lt_of_pos n (by omega)).le
  have hval : ((n / S : ℤ) : ℝ) - n / S = -((n % S : ℤ) : ℝ) / S := by
    rw [hrem]
    field_simp
    ring
  rw [hval, abs_div, abs_neg, abs_of_nonneg h0, abs_of_pos hS', div_le_one hS']
  exact h1

/-- The recurrence 2cos((j+2)t) = 2cos(t)·2cos((j+1)t) − 2cos(jt), with the errors of its operands and of the
division. -/
theorem approximates_succ {S : Nat} (hS : 0 < S) {d a b : ℤ} {ed ea eb j : Nat}
    (hd : |d| ≤ 2 * S) (h1 : Approximates S d ed 1) (ha : Approximates S a ea j)
    (hb : Approximates S b eb (j + 1)) :
    Approximates S (d * b / S - a) (2 * eb + 2 * ed + 1 + ea) (j + 2) := by
  have hS' : (0 : ℝ) < S := by exact_mod_cast hS
  have hd' : |(d : ℝ)| ≤ 2 * S := by exact_mod_cast hd
  have hfloor := abs_ediv_sub_div_le (d * b) hS
  have hcos : 2 * Real.cos ((j + 2 : ℕ) * tableStep) =
      2 * Real.cos ((1 : ℕ) * tableStep) * (2 * Real.cos ((j + 1 : ℕ) * tableStep)) -
        2 * Real.cos (j * tableStep) := by
    have hsum := Real.cos_add ((j + 1 : ℕ) * tableStep) ((1 : ℕ) * tableStep)
    have hdiff := Real.cos_sub ((j + 1 : ℕ) * tableStep) ((1 : ℕ) * tableStep)
    rw [show ((j + 1 : ℕ) : ℝ) * tableStep + (1 : ℕ) * tableStep = (j + 2 : ℕ) * tableStep by
      push_cast; ring] at hsum
    rw [show ((j + 1 : ℕ) : ℝ) * tableStep - (1 : ℕ) * tableStep = j * tableStep by
      push_cast; ring] at hdiff
    linear_combination 2 * hsum + 2 * hdiff
  have hbound : |2 * Real.cos ((j + 1 : ℕ) * tableStep)| ≤ 2 := by
    rw [abs_mul, abs_two]
    linarith [Real.abs_cos_le_one ((j + 1 : ℕ) * tableStep)]
  unfold Approximates at *
  rw [hcos]
  push_cast at hfloor ⊢
  push_cast at h1 ha hb hbound
  generalize (d : ℝ) = d' at *
  generalize 2 * Real.cos ((j + 1 : ℝ) * tableStep) = xb at *
  generalize 2 * Real.cos ((j : ℝ) * tableStep) = xa at *
  generalize 2 * Real.cos (1 * tableStep) = x1 at *
  have hprod : |d' * b / S - S * (x1 * xb)| ≤ 2 * eb + 2 * ed := by
    have hval : d' * b / S - S * (x1 * xb) = d' / S * (b - S * xb) + xb * (d' - S * x1) := by
      field_simp
      ring
    have hquot : |d' / S| ≤ 2 := by
      rw [abs_div, abs_of_pos hS', div_le_iff₀ hS']
      exact hd'
    rw [hval]
    refine (abs_add_le _ _).trans (add_le_add ?_ ?_)
    · rw [abs_mul]
      exact mul_le_mul hquot hb (abs_nonneg _) zero_le_two
    · rw [abs_mul]
      exact mul_le_mul hbound h1 (abs_nonneg _) zero_le_two
  obtain ⟨hf1, hf2⟩ := abs_le.mp hfloor
  obtain ⟨hp1, hp2⟩ := abs_le.mp hprod
  obtain ⟨ha1, ha2⟩ := abs_le.mp ha
  rw [abs_le]
  constructor <;> linarith

/-! The quarter wave against the doubled cosines. -/

/-- `w` is finite, without sign, and within half a last place of half of `a`/(2^148·`F`), whatever the error of
at most `e` in `a`; and the value there has that last place. -/
def entryWithinHalf (F : Nat) (w : Word) (a : ℤ) (e : Nat) : Bool :=
  isFinite w && !isNeg w &&
    decide (2 * (((mag w * F : ℕ) : ℤ) - a).natAbs + 2 * e ≤ 2 ^ (expField w - 1) * F) &&
    decide (((2 ^ (23 + (expField w - 1)) * F + e : ℕ) : ℤ) ≤ a)

/-- The `count` entries after entry `j` against the recurrence, `a` and `b` being the doubled cosines of `j` and
`j + 1` steps, `d` that of one step, and `ea`, `eb`, `ed` their errors. -/
def entriesWithinHalf (F : Nat) (d : ℤ) (ed : Nat) : Nat → Nat → ℤ → ℤ → Nat → Nat → Bool
  | 0, _, _, _, _, _ => true
  | count + 1, j, a, b, ea, eb =>
    entryWithinHalf F (qlut (j + 1)) b eb &&
      entriesWithinHalf F d ed count (j + 1) b (d * b / (2 ^ 148 * F : ℕ) - a) eb
        (2 * eb + 2 * ed + 1 + ea)

theorem two_pow_dvd_mag_expField (w : Word) : 2 ^ (expField w - 1) ∣ mag w := by
  unfold mag
  split
  next h => simp [h]
  next => exact Dvd.intro_left _ rfl

/-- An entry that passes the check is nearest to the cosine. -/
theorem nearestTo_of_withinHalf {F : Nat} (hF : 0 < F) {w : Word} {a : ℤ} {e j : Nat}
    (ha : Approximates (2 ^ 148 * F) a e j) (h : entryWithinHalf F w a e = true) :
    NearestTo w (Real.cos (j * tableStep)) := by
  simp only [entryWithinHalf, Bool.and_eq_true, Bool.not_eq_true', decide_eq_true_eq] at h
  obtain ⟨⟨⟨hfin, hsign⟩, hhalf⟩, hplace⟩ := h
  have hdvd := two_pow_dvd_mag_expField w
  have hF' : (0 : ℝ) < F := by exact_mod_cast hF
  generalize expField w - 1 = K at *
  obtain ⟨ha1, ha2⟩ := abs_le.mp ha
  have hhalf' : 2 * |(mag w * F : ℝ) - a| + 2 * e ≤ 2 ^ K * F := by
    rw [← Nat.cast_le (α := ℝ), Nat.cast_add, Nat.cast_mul, Nat.cast_natAbs] at hhalf
    push_cast at hhalf
    exact hhalf
  have hplace' : (2 : ℝ) ^ (23 + K) * F + e ≤ a := by
    rw [← Int.cast_le (R := ℝ)] at hplace
    push_cast at hplace
    exact hplace
  have hscale : ((2 ^ 148 * F : ℕ) : ℝ) * (2 * Real.cos (j * tableStep)) =
      F * (Real.cos (j * tableStep) * 2 ^ 149) := by
    rw [Nat.cast_mul, Nat.cast_pow, Nat.cast_ofNat]
    ring
  rw [hscale] at ha1 ha2
  generalize Real.cos (j * tableStep) = y at *
  have hplace'' : (2 : ℝ) ^ (23 + K) ≤ y * 2 ^ 149 := by
    refine le_of_mul_le_mul_right ?_ hF'
    linarith
  have hy : 0 ≤ y := by
    have : 0 ≤ y * 2 ^ 149 := le_trans (by positivity) hplace''
    exact nonneg_of_mul_nonneg_left this (by positivity)
  refine nearestTo_of_half hfin hsign hy hdvd ?_ (.inr hplace'')
  obtain ⟨h1, h2⟩ := abs_le.mp (show |(mag w * F : ℝ) - a| ≤ 2 ^ K * F / 2 - e by linarith)
  rw [abs_le]
  constructor <;> refine le_of_mul_le_mul_right ?_ hF' <;> linarith

/-- Entries that pass the check are nearest to their cosines. -/
theorem nearestTo_of_entriesWithinHalf {F : Nat} (hF : 0 < F) {d : ℤ} {ed : Nat}
    (hd : |d| ≤ 2 * (2 ^ 148 * F : ℕ)) (h1 : Approximates (2 ^ 148 * F) d ed 1)
    {count j : Nat} {a b : ℤ} {ea eb : Nat} (ha : Approximates (2 ^ 148 * F) a ea j)
    (hb : Approximates (2 ^ 148 * F) b eb (j + 1))
    (h : entriesWithinHalf F d ed count j a b ea eb = true) {i : Nat} (hlow : j < i)
    (hup : i ≤ j + count) : NearestTo (qlut i) (Real.cos (i * tableStep)) := by
  induction count generalizing j a b ea eb with
  | zero => omega
  | succ count ih =>
    rw [entriesWithinHalf, Bool.and_eq_true] at h
    rcases Nat.eq_or_lt_of_le hlow with rfl | hlow
    · exact nearestTo_of_withinHalf hF hb h.1
    · exact ih hb (approximates_succ (by positivity) hd h1 ha hb) h.2 hlow (by omega)

/-- One in the fixed point with 364 guard bits. -/
abbrev tableOne : Nat := 2 ^ 148 * 2 ^ 364

/-- The doubled cosine of one step in that fixed point. -/
abbrev tableTwoCos : Nat := halvedTwoCos tableOne 8

/-- The 255 entries between the ends of the quarter wave pass the check. -/
theorem quarterWave_withinHalf :
    entriesWithinHalf (2 ^ 364) tableTwoCos 8 255 0 (2 * tableOne) tableTwoCos 0 8 = true := by
  decide +kernel

theorem qlut_first : qlut 0 = fOne := rfl

theorem qlut_last : qlut 256 = posZero := rfl

/-- R99: every entry of the quarter wave is nearest to the cosine of its angle. -/
theorem qlut_nearestTo {j : Nat} (hj : j ≤ 256) : NearestTo (qlut j) (Real.cos (j * tableStep)) := by
  rcases Nat.eq_zero_or_pos j with rfl | hpos
  · have hone := nearestTo_self (r := fOne) (by decide)
    rw [ratVal_fOne] at hone
    simpa [qlut_first] using hone
  · rcases Nat.eq_or_lt_of_le hj with rfl | hlt
    · have hzero := nearestTo_self (r := posZero) (by decide)
      rw [ratVal_of_isZero (by decide)] at hzero
      have hangle : ((256 : ℕ) : ℝ) * tableStep = Real.pi / 2 := by
        rw [tableStep]
        push_cast
        ring
      rw [qlut_last, hangle, Real.cos_pi_div_two]
      exact_mod_cast hzero
    · have hone : 0 < tableOne := by positivity
      have hbound : |(tableTwoCos : ℤ)| ≤ 2 * (tableOne : ℕ) := by
        rw [Nat.abs_cast]
        exact_mod_cast halvedTwoCos_le tableOne 8
      exact nearestTo_of_entriesWithinHalf (by positivity) hbound (approximates_one hone)
        (approximates_zero _) (approximates_one hone) quarterWave_withinHalf hpos (by omega)

/-! The whole turn (R98). -/

/-- The whole turn is the quarter wave forward, backward negated, forward negated and backward. -/
theorem cosLut_quarters {j : Nat} (hj : j < 256) :
    cosLut j = qlut j ∧ cosLut (256 + j) = fneg (qlut (256 - j)) ∧
    cosLut (512 + j) = fneg (qlut j) ∧ cosLut (768 + j) = qlut (256 - j) := by
  refine ⟨?_, ?_, ?_, ?_⟩
  · rw [cosLut, show j / 256 = 0 by omega, show j % 256 = j by omega]
    rfl
  · rw [cosLut, show (256 + j) / 256 = 1 by omega, show (256 + j) % 256 = j by omega]
    rfl
  · rw [cosLut, show (512 + j) / 256 = 2 by omega, show (512 + j) % 256 = j by omega]
    rfl
  · rw [cosLut, show (768 + j) / 256 = 3 by omega, show (768 + j) % 256 = j by omega]
    rfl

/-- Every entry of the whole turn is an entry of the quarter wave or its negation, and the cosines of the two
angles agree accordingly. -/
theorem cosLut_angle {i : Nat} (hi : i < 1024) : ∃ j, j ≤ 256 ∧
    ((cosLut i = qlut j ∧ Real.cos (2 * Real.pi * (i : ℝ) / 1024) = Real.cos (j * tableStep)) ∨
     (cosLut i = fneg (qlut j) ∧
      Real.cos (2 * Real.pi * (i : ℝ) / 1024) = -Real.cos (j * tableStep))) := by
  obtain ⟨q, j, hq, hj, rfl⟩ : ∃ q j, q < 4 ∧ j < 256 ∧ i = 256 * q + j :=
    ⟨i / 256, i % 256, by omega, Nat.mod_lt _ (by decide), (Nat.div_add_mod i 256).symm⟩
  obtain ⟨h0, h1, h2, h3⟩ := cosLut_quarters hj
  have hback : ((256 - j : ℕ) : ℝ) = 256 - j := Nat.cast_sub hj.le
  match q, hq with
  | 0, _ =>
    refine ⟨j, hj.le, .inl ⟨by rw [Nat.mul_zero, Nat.zero_add, h0], ?_⟩⟩
    rw [tableStep]
    push_cast
    ring_nf
  | 1, _ =>
    refine ⟨256 - j, by omega, .inr ⟨h1, ?_⟩⟩
    rw [← Real.cos_pi_sub, hback, tableStep]
    push_cast
    ring_nf
  | 2, _ =>
    refine ⟨j, hj.le, .inr ⟨h2, ?_⟩⟩
    rw [← Real.cos_add_pi, tableStep]
    push_cast
    ring_nf
  | 3, _ =>
    refine ⟨256 - j, by omega, .inl ⟨h3, ?_⟩⟩
    rw [← Real.cos_two_pi_sub, hback, tableStep]
    push_cast
    ring_nf

/-- R98: every entry of the whole turn is nearest to the cosine of its angle. -/
theorem cosLut_nearestTo {i : Nat} (hi : i < 1024) :
    NearestTo (cosLut i) (Real.cos (2 * Real.pi * (i : ℝ) / 1024)) := by
  obtain ⟨j, hj, ⟨hval, hcos⟩ | ⟨hval, hcos⟩⟩ := cosLut_angle hi
  · exact hval ▸ hcos ▸ qlut_nearestTo hj
  · exact hval ▸ hcos ▸ nearestTo_fneg (qlut_nearestTo hj)

/-- Settles O26: the checked quarter wave, and the whole turn unfolded from it. -/
theorem cosineTableIsNearest : Obligations.CosineTableIsNearest := by
  refine ⟨qlut_last, fun j hj => ?_, fun i hi => cosLut_nearestTo hi⟩
  have hangle : Real.pi / 2 * ((j : ℝ) / 256) = j * tableStep := by
    rw [tableStep]
    ring
  rw [hangle]
  exact qlut_nearestTo hj

/-! The index (R98). -/

/-- The phase in turns is finite: it is smaller than the phase. -/
theorem isFinite_turns {θ : Word} (hθ : isFinite θ = true) : isFinite (fmul θ fInvTwoPi) = true := by
  have hsmall : |ratVal fInvTwoPi| ≤ 1 := by
    rw [abs_ratVal, div_le_one (by positivity)]
    exact_mod_cast (show mag fInvTwoPi ≤ 2 ^ 149 by decide)
  refine (roundsTo_nearest (fmul_roundsTo hθ (by decide)) hθ ?_).1
  rw [abs_mul]
  exact mul_le_of_le_one_right (abs_nonneg _) hsmall

/-- A finite value minus its floor lies in [0, 1] after rounding. -/
theorem fsub_ffloor_range {u : Word} (hu : isFinite u = true) :
    isFinite (fsub u (ffloor u)) = true ∧ 0 ≤ ratVal (fsub u (ffloor u)) ∧
    ratVal (fsub u (ffloor u)) ≤ 1 := by
  obtain ⟨hfin, hval⟩ := ffloor_exact hu
  have hround := fsub_roundsTo hu hfin
  rw [hval, ← Int.fract] at hround
  have hone : ratVal fOne = 1 := ratVal_fOne
  rw [← hone]
  exact roundsTo_le hround (by decide) (Int.fract_nonneg _) (hone ▸ (Int.fract_lt_one _).le)

/-- Scaling a value in [0, 1] by 1024 is exact. -/
theorem fmul_f1024_exact {r : Word} (hr : isFinite r = true) (h0 : 0 ≤ ratVal r) (h1 : ratVal r ≤ 1) :
    ratVal (fmul r f1024) = 1024 * ratVal r := by
  have habs := abs_ratVal r
  rw [abs_of_nonneg h0] at habs
  have hle : mag r ≤ 2 ^ 149 := by
    rw [habs, div_le_one (by positivity)] at h1
    exact_mod_cast h1
  obtain ⟨K, q, -, hq, hmag, -⟩ := exists_significand r
  have hscaled : q * 2 ^ (K + 10) = 1024 * mag r := by
    rw [hmag]
    ring
  obtain ⟨hfin, hcmag, hcsign⟩ := roundMag_exact false (k := K + 10) hq.le (by omega)
  have hcval : ratVal (pack false (roundMag (q * 2 ^ (K + 10)) 1)) = 1024 * ratVal r := by
    rw [← abs_of_nonneg (ratVal_nonneg hcsign), abs_ratVal, hcmag, hscaled, Nat.cast_mul,
      Nat.cast_ofNat, mul_div_assoc, ← habs]
  have hscale : ratVal f1024 = (1024 : ℤ) := ratVal_of_sval (by decide)
  have hround := fmul_roundsTo hr (show isFinite f1024 = true by decide)
  exact ((roundsTo_exact hround hfin (by rw [hcval, hscale]; push_cast; ring)).2).trans
    (by rw [hscale]; push_cast; ring)

/-- The index is the floor of 1024 times the fractional turn, modulo 1024. -/
theorem cosIndex_eq {θ : Word} (hθ : isFinite θ = true) :
    cosIndex θ =
      ⌊1024 * ratVal (fsub (fmul θ fInvTwoPi) (ffloor (fmul θ fInvTwoPi)))⌋.toNat % 1024 := by
  obtain ⟨hfin, h0, h1⟩ := fsub_ffloor_range (isFinite_turns hθ)
  rw [cosIndex, ifloor_eq, fmul_f1024_exact hfin h0 h1]
  have hpos : 0 ≤ ⌊1024 * ratVal (fsub (fmul θ fInvTwoPi) (ffloor (fmul θ fInvTwoPi)))⌋ :=
    Int.floor_nonneg.mpr (by positivity)
  omega

theorem cosIndex_lt (θ : Word) : cosIndex θ < 1024 := by
  rw [cosIndex]
  omega

theorem cosrDefault_of_isFinite {θ : Word} (h : isFinite θ = true) :
    cosrDefault θ = cosLut (cosIndex θ) := by
  simp [cosrDefault, h]

/-- Settles O27: scaling the fractional turn by 1024 is exact, so the index is its floor. -/
theorem tableCosineValue : Obligations.TableCosineValue := by
  refine ⟨fun j hj => cosLut_quarters hj, fun θ hθ => ?_⟩
  obtain ⟨hfin, h0, h1⟩ := fsub_ffloor_range (isFinite_turns hθ)
  refine ⟨isFinite_turns hθ, hfin, h0, h1, ?_⟩
  rw [cosrDefault_of_isFinite hθ, cosIndex_eq hθ]

/-! The range (R104). -/

/-- The word nearest to a real in [−1, 1] lies there too, since ±1.0 are words. -/
theorem within_one_of_nearestTo {r : Word} {y : ℝ} (h : NearestTo r y) (hy : |y| ≤ 1) :
    within (fneg fOne) fOne r = true := by
  obtain ⟨hfin, hnear⟩ := h
  obtain ⟨hlow, hup⟩ := abs_le.mp hy
  have hone : ratVal fOne = (1 : ℤ) := ratVal_fOne
  have hneg : ratVal (fneg fOne) = (-1 : ℤ) := by rw [ratVal_fneg (by decide), hone, Int.cast_neg]
  have hright := hnear fOne (by decide)
  have hleft := hnear (fneg fOne) (by decide)
  rw [hone] at hright
  rw [hneg] at hleft
  push_cast at hright hleft
  rw [abs_of_nonneg (show (0 : ℝ) ≤ 1 - y by linarith)] at hright
  rw [abs_of_nonpos (show (-1 : ℝ) - y ≤ 0 by linarith)] at hleft
  have hle : ratVal r ≤ ratVal fOne := by
    rw [hone, ← Rat.cast_le (K := ℝ)]
    push_cast
    linarith [le_abs_self ((ratVal r : ℝ) - y)]
  have hge : ratVal (fneg fOne) ≤ ratVal r := by
    rw [hneg, ← Rat.cast_le (K := ℝ)]
    push_cast
    linarith [neg_abs_le ((ratVal r : ℝ) - y)]
  exact within_iff.mpr ⟨by decide, isNaN_of_isFinite hfin, by decide, ratVal_le_iff.mp hge,
    ratVal_le_iff.mp hle⟩

/-- At a zero the table cosine reads the first entry. -/
theorem cosrDefault_zero : cosrDefault 0x00000000#32 = fOne ∧ cosrDefault 0x80000000#32 = fOne := by
  decide

/-- Settles O28: an entry nearest to a cosine is within ±1.0, as the cosine is. -/
theorem tableCosineRange : Obligations.TableCosineRange :=
  ⟨fun θ hθ => cosrDefault_of_isFinite hθ ▸
      within_one_of_nearestTo (cosLut_nearestTo (cosIndex_lt θ)) (Real.abs_cos_le_one _),
    fun θ hθ => by simp [cosrDefault, hθ], cosrDefault_zero⟩

end Sys2Proof.Proofs
end

section
/-!
PROOFS. The arctangent, the hyperbolic tangent, the sine and the cosine of the default configuration: ranges, axes,
zeros and infinities (R101 to R104).
-/
namespace Sys2Proof.Proofs

open Sys2Proof.Machine Sys2Proof.Config

/-- A word packed from at most the pattern of 1.0 lies within ±1.0. -/
theorem within_one_of_pack (neg : Bool) {m : Nat} (h : m ≤ fOne.toNat) :
    within (fneg fOne) fOne (pack neg m) = true := by
  have hlo : fneg fOne = pack true fOne.toNat := by decide
  have hhi : fOne = pack false fOne.toNat := by decide
  rw [hlo]
  exact within_pack neg h (by decide)

/-- A zero is packed from the pattern 0. -/
theorem eq_pack_of_isZero {w : Word} (h : isZero w = true) : w = pack (isNeg w) 0 := by
  obtain ⟨hfin, hmag⟩ := isZero_iff.mp h
  conv_lhs => rw [← pack_roundMag_mag hfin]
  rw [hmag]
  rfl

/-- A zero lies within ±1.0. -/
theorem within_one_of_isZero {w : Word} (h : isZero w = true) :
    within (fneg fOne) fOne w = true := by
  rw [eq_pack_of_isZero h]
  exact within_one_of_pack _ (Nat.zero_le _)

/-! Arctangent (R102). -/

theorem atan2Default_of_isNaN {y x : Word} (h : isNaN y = true ∨ isNaN x = true) :
    atan2Default y x = canonNaN := by
  rcases h with h | h <;> simp [atan2Default, h]

/-- For numbers the arctangent is its magnitude with the sign of `y`. -/
theorem atan2Default_of_not_isNaN {y x : Word} (hy : isNaN y = false) (hx : isNaN x = false) :
    atan2Default y x = if isNeg y then fneg (atan2Mag y x) else atan2Mag y x := by
  simp [atan2Default, hy, hx]

/-- The arctangent of numbers is a number. -/
theorem isNaN_atan2Default {y x : Word} (hy : isNaN y = false) (hx : isNaN x = false) :
    isNaN (atan2Default y x) = false := by
  obtain ⟨m, hm, hpack⟩ := atan2Mag_eq_pack y x
  have hnum : isNaN (atan2Mag y x) = false := hpack ▸ isNaN_pack _ (hm.trans (by decide))
  rw [atan2Default_of_not_isNaN hy hx]
  split
  · exact isNaN_fneg hnum
  · exact hnum

/-- On the axis `x` = 0, off the origin, the angle is a quarter turn. -/
theorem atan2Mag_of_isZero_right {y x : Word} (hx : isZero x = true) (hy : isZero y = false) :
    atan2Mag y x = fHalfPi := by
  cases hinf : isInf y <;> simp [atan2Mag, hinf, isInf_of_isFinite (isZero_iff.mp hx).1, hx, hy]

/-- On the axis `y` = 0 the angle is zero, or half a turn on the side of negative `x`. -/
theorem atan2Mag_of_isZero_left {y : Word} (x : Word) (hy : isZero y = true) :
    atan2Mag y x = if isNeg x then fPi else posZero := by
  cases hinf : isInf x <;> simp [atan2Mag, hinf, isInf_of_isFinite (isZero_iff.mp hy).1, hy]

/-- A number below `+0.0` has the sign, one above has not, and neither is a zero. -/
theorem isNeg_of_flt {w : Word} :
    (flt posZero w = true → isNeg w = false ∧ isZero w = false) ∧
    (flt w posZero = true → isNeg w = true ∧ isZero w = false) := by
  have hzero : sval posZero = 0 := by decide
  have hne (h : sval w ≠ 0) : isZero w = false := Bool.eq_false_iff.mpr fun hz => h (sval_of_isZero hz)
  constructor
  · intro h
    have hpos := (flt_iff.mp h).2.2
    rw [hzero] at hpos
    refine ⟨Bool.eq_false_iff.mpr fun hneg => ?_, hne hpos.ne'⟩
    rw [sval, if_pos hneg] at hpos
    omega
  · intro h
    have hlt := (flt_iff.mp h).2.2
    rw [hzero] at hlt
    refine ⟨by_contra fun hneg => ?_, hne hlt.ne⟩
    rw [sval, if_neg hneg] at hlt
    omega

/-- Settles O29: the range from `atan2Default_isNaN_or_within`, the axes from the magnitude there. -/
theorem arctangentRangeAndAxes : Obligations.ArctangentRangeAndAxes := by
  refine fun y x => ⟨atan2Default_of_isNaN, fun hy hx => ⟨?_, fun hx0 hpos => ?_, fun hx0 hneg => ?_,
    fun hy0 hxs => ?_, fun hy0 hxs => ?_⟩⟩
  · exact (atan2Default_isNaN_or_within y x).resolve_left (by simp [isNaN_atan2Default hy hx])
  · obtain ⟨hs, h0⟩ := isNeg_of_flt.1 hpos
    rw [atan2Default_of_not_isNaN hy hx, hs, if_neg Bool.false_ne_true,
      atan2Mag_of_isZero_right hx0 h0]
  · obtain ⟨hs, h0⟩ := isNeg_of_flt.2 hneg
    rw [atan2Default_of_not_isNaN hy hx, if_pos hs, atan2Mag_of_isZero_right hx0 h0]
  · rw [atan2Default_of_not_isNaN hy hx, atan2Mag_of_isZero_left x hy0, hxs,
      if_neg Bool.false_ne_true, eq_pack_of_isZero hy0, isNeg_pack _ (by decide)]
    cases isNeg y <;> decide
  · rw [atan2Default_of_not_isNaN hy hx, atan2Mag_of_isZero_left x hy0, if_pos hxs]

/-! Hyperbolic tangent (R103). -/

theorem tanhDefault_of_isNaN {z : Word} (h : isNaN z = true) : tanhDefault z = canonNaN := by
  simp [tanhDefault, h]

theorem tanhDefault_of_isZero {z : Word} (h : isZero z = true) : tanhDefault z = z := by
  simp [tanhDefault, h, isNaN_of_isZero h]

/-- What the hyperbolic tangent of a number that is not zero packs: a pattern of at most 1.0 that depends on the
magnitude only. -/
def tanhPattern (m : Nat) : Nat :=
  if 16 * 2 ^ 149 ≤ m then fOne.toNat else roundFix fOne (tanhFix (m * 2 ^ (trigBits - 149)))

theorem tanhPattern_le (m : Nat) : tanhPattern m ≤ fOne.toNat := by
  unfold tanhPattern
  split
  · exact le_refl _
  · exact roundFix_le _ _

theorem tanhDefault_eq_pack {z : Word} (hn : isNaN z = false) (h0 : isZero z = false) :
    tanhDefault z = pack (isNeg z) (tanhPattern (mag z)) := by
  rw [tanhDefault, hn, h0, if_neg Bool.false_ne_true, if_neg Bool.false_ne_true, tanhPattern, ← fixOf]
  split <;> rfl

/-- The hyperbolic tangent is odd. -/
theorem tanhDefault_fneg {z : Word} (hn : isNaN z = false) :
    tanhDefault (fneg z) = fneg (tanhDefault z) := by
  cases h0 : isZero z with
  | true => rw [tanhDefault_of_isZero h0, tanhDefault_of_isZero ((isZero_fneg hn).trans h0)]
  | false =>
    rw [tanhDefault_eq_pack hn h0, tanhDefault_eq_pack (isNaN_fneg hn) ((isZero_fneg hn).trans h0),
      isNeg_fneg hn, mag_fneg hn, fneg_pack _ ((tanhPattern_le _).trans (by decide))]

/-- At an infinity the hyperbolic tangent is ±1.0. -/
theorem tanhDefault_of_isInf {z : Word} (h : isInf z = true) :
    tanhDefault z = if isNeg z then fneg fOne else fOne := by
  have hlarge : 16 * 2 ^ 149 ≤ mag z := by
    rw [mag_of_isInf h]
    omega
  rw [tanhDefault_eq_pack (isNaN_of_isInf h) (isZero_of_isInf h), tanhPattern, if_pos hlarge]
  cases isNeg z <;> decide

/-- Settles O30: off zero the result packs the sign and a pattern of the magnitude only. -/
theorem hyperbolicTangentRange : Obligations.HyperbolicTangentRange := by
  refine fun z => ⟨tanhDefault_of_isNaN, fun hn => ⟨?_, tanhDefault_fneg hn⟩, tanhDefault_of_isZero,
    tanhDefault_of_isInf⟩
  cases h0 : isZero z with
  | true => exact (tanhDefault_of_isZero h0).symm ▸ within_one_of_isZero h0
  | false => exact tanhDefault_eq_pack hn h0 ▸ within_one_of_pack _ (tanhPattern_le _)

/-! Sine and cosine of the coefficients (R101). -/

/-- The sine of a finite angle is a zero returned unchanged, or packed from at most the pattern of 1.0. -/
theorem within_sinDefault {w : Word} (h : isFinite w = true) :
    within (fneg fOne) fOne (sinDefault w) = true := by
  rw [sinDefault, h, if_neg (by decide)]
  split
  next h0 => exact within_one_of_isZero h0
  next => exact within_one_of_pack _ (roundFix_le _ _)

/-- The cosine of a finite angle is 1.0 at a zero, or packed from at most the pattern of 1.0. -/
theorem within_cosDefault {w : Word} (h : isFinite w = true) :
    within (fneg fOne) fOne (cosDefault w) = true := by
  rw [cosDefault, h, if_neg (by decide)]
  split
  next => decide
  next => exact within_one_of_pack _ (roundFix_le _ _)

/-- Settles O31: off zero both results pack a pattern of at most 1.0. -/
theorem sineAndCosineRange : Obligations.SineAndCosineRange := by
  refine fun w => ⟨fun h => ⟨within_sinDefault h, within_cosDefault h⟩, fun h => ?_, fun h0 => ?_⟩
  · simp [sinDefault, cosDefault, h]
  · simp [sinDefault, cosDefault, h0, (isZero_iff.mp h0).1]

end Sys2Proof.Proofs
end

section
/-!
PROOFS. The unwrap loops of `HIL.TICK` (R122, R124): where one round of each is enough, where the default
arithmetic leaves the difference, and that every tick after a possible previous phase completes.
-/
namespace Sys2Proof.Proofs

open Sys2Proof.Machine Sys2Proof.Config

/-! Sums and binary32 bounds. -/

/-- Rounding does not pass a binary32 above the exact value, on overflow neither. -/
theorem ratVal_le_of_roundsTo {x : ℚ} {r c : Word} (h : RoundsTo x r) (hc : isFinite c = true)
    (hx : x ≤ ratVal c) : ratVal r ≤ ratVal c := by
  rw [RoundsTo] at h
  split at h
  next hbig =>
    obtain ⟨_, hc'⟩ := abs_lt.mp (abs_ratVal_lt_overflowBound hc)
    have hneg : x < 0 := by
      by_contra hx0
      rw [abs_of_nonneg (not_lt.mp hx0)] at hbig
      linarith
    have hr : sval r = -2 ^ 277 := by
      rw [sval, if_pos (h.2.mpr hneg), mag_of_isInf h.1, Nat.cast_pow, Nat.cast_ofNat]
    have hmag := mag_lt_of_isFinite hc
    have habs := natAbs_sval c
    exact ratVal_le_iff.mpr (by omega)
  next =>
    have hdist := (h.2 c hc).1
    rw [abs_of_nonneg (sub_nonneg.mpr hx)] at hdist
    linarith [le_abs_self (ratVal r - x)]

/-- Rounding does not pass a binary32 below the exact value, on overflow neither. -/
theorem le_ratVal_of_roundsTo {x : ℚ} {r c : Word} (h : RoundsTo x r) (hc : isFinite c = true)
    (hx : ratVal c ≤ x) : ratVal c ≤ ratVal r := by
  rw [RoundsTo] at h
  split at h
  next hbig =>
    obtain ⟨hc', _⟩ := abs_lt.mp (abs_ratVal_lt_overflowBound hc)
    have hpos : ¬ x < 0 := by
      intro hx0
      rw [abs_of_neg hx0] at hbig
      linarith
    have hr : sval r = 2 ^ 277 := by
      rw [sval, if_neg (mt h.2.mp hpos), mag_of_isInf h.1, Nat.cast_pow, Nat.cast_ofNat]
    have hmag := mag_lt_of_isFinite hc
    have habs := natAbs_sval c
    exact ratVal_le_iff.mpr (by omega)
  next =>
    have hdist := (h.2 c hc).1
    rw [abs_of_nonpos (sub_nonpos.mpr hx)] at hdist
    linarith [neg_abs_le (ratVal r - x)]

/-- A sum of finite words is a number. -/
theorem isNaN_fadd {a b : Word} (ha : isFinite a = true) (hb : isFinite b = true) :
    isNaN (fadd a b) = false := by
  rw [fadd_of_isFinite ha hb]
  split
  · exact isNaN_pack _ (Nat.zero_le _)
  · exact isNaN_pack _ (roundMag_le_infMag _ _)

theorem fle_iff_ratVal {a b : Word} :
    fle a b = true ↔ isNaN a = false ∧ isNaN b = false ∧ ratVal a ≤ ratVal b := by
  rw [fle_iff, ratVal_le_iff]

theorem fgt_iff_ratVal {a b : Word} :
    fgt a b = true ↔ isNaN b = false ∧ isNaN a = false ∧ ratVal b < ratVal a := by
  rw [fgt, flt_iff, ratVal_lt_iff]

theorem within_iff_ratVal {lo hi w : Word} :
    within lo hi w = true ↔ isNaN lo = false ∧ isNaN w = false ∧ isNaN hi = false ∧
      ratVal lo ≤ ratVal w ∧ ratVal w ≤ ratVal hi := by
  rw [within_iff, ratVal_le_iff, ratVal_le_iff]

/-- A number between finite bounds is finite. -/
theorem isFinite_of_within {lo hi w : Word} (hlo : isFinite lo = true) (hhi : isFinite hi = true)
    (h : within lo hi w = true) : isFinite w = true := by
  obtain ⟨_, _, _, hl, hh⟩ := within_iff.mp h
  have hlo' := mag_lt_of_isFinite hlo
  have hhi' := mag_lt_of_isFinite hhi
  have absLo := natAbs_sval lo
  have absHi := natAbs_sval hi
  have absW := natAbs_sval w
  exact isFinite_of_mag_lt (by omega)

/-- A sum that lies between two binary32 exactly lies between them rounded. -/
theorem within_fadd {a b lo hi : Word} (ha : isFinite a = true) (hb : isFinite b = true)
    (hlo : isFinite lo = true) (hhi : isFinite hi = true) (hl : ratVal lo ≤ ratVal a + ratVal b)
    (hh : ratVal a + ratVal b ≤ ratVal hi) : within lo hi (fadd a b) = true :=
  within_iff_ratVal.mpr ⟨isNaN_of_isFinite hlo, isNaN_fadd ha hb, isNaN_of_isFinite hhi,
    le_ratVal_of_roundsTo (fadd_roundsTo ha hb) hlo hl,
    ratVal_le_of_roundsTo (fadd_roundsTo ha hb) hhi hh⟩

/-! Half a turn. -/

theorem ratVal_fPi_pos : 0 < ratVal fPi := by
  have hval : (0 : ℚ) < (sval fPi : ℤ) := by exact_mod_cast (by decide : (0 : ℤ) < sval fPi)
  rw [ratVal]
  positivity

/-- `TWO_PI` is exactly twice `PI` (R93). -/
theorem ratVal_fTwoPi : ratVal fTwoPi = 2 * ratVal fPi := by
  have hval : sval fTwoPi = 2 * sval fPi := by decide
  rw [ratVal, ratVal, hval]
  push_cast
  ring

theorem ratVal_fneg_fPi : ratVal (fneg fPi) = -ratVal fPi := ratVal_fneg (by decide)

theorem ratVal_fneg_fTwoPi : ratVal (fneg fTwoPi) = -(2 * ratVal fPi) := by
  rw [ratVal_fneg (by decide), ratVal_fTwoPi]

/-- Above `PI` is not at or below `fneg(PI)`. -/
theorem fle_fneg_fPi_of_fgt {d : Word} (h : fgt d fPi = true) : fle d (fneg fPi) = false := by
  obtain ⟨_, _, hgt⟩ := fgt_iff_ratVal.mp h
  refine Bool.eq_false_iff.mpr fun hle => ?_
  obtain ⟨_, _, hle⟩ := fle_iff_ratVal.mp hle
  linarith [ratVal_fneg_fPi, ratVal_fPi_pos]

/-- A difference is in the half turn exactly where both loop tests fail on it (R122, R124). -/
theorem inHalfTurn_iff {d : Word} :
    inHalfTurn d = true ↔ fgt d fPi = false ∧ fle d (fneg fPi) = false := by
  have hpi : isNaN fPi = false := by decide
  have hneg : isNaN (fneg fPi) = false := by decide
  cases hd : isNaN d with
  | true => simp [inHalfTurn, fgt, flt, fle, hd]
  | false =>
    simp only [inHalfTurn, fgt, flt, fle, hd, hpi, hneg]
    simp [and_comm]

/-! One round of each loop (R124). -/

/-- The first loop of R122 with its body run at most once. -/
def roundDown (N : NumConfig) (d : Word) : Word := if fgt d fPi then N.fsub d fTwoPi else d

/-- The second loop of R122 with its body run at most once. -/
def roundUp (N : NumConfig) (d : Word) : Word := if fle d (fneg fPi) then N.fadd d fTwoPi else d

theorem unwrapOnce_eq (N : NumConfig) (d : Word) : unwrapOnce N d = roundUp N (roundDown N d) := rfl

theorem roundDown_of_fgt {N : NumConfig} {d : Word} (h : fgt d fPi = true) :
    roundDown N d = N.fsub d fTwoPi := if_pos h

theorem roundDown_of_not_fgt {N : NumConfig} {d : Word} (h : fgt d fPi = false) : roundDown N d = d :=
  if_neg (by simp [h])

theorem roundUp_of_fle {N : NumConfig} {d : Word} (h : fle d (fneg fPi) = true) :
    roundUp N d = N.fadd d fTwoPi := if_pos h

theorem roundUp_of_not_fle {N : NumConfig} {d : Word} (h : fle d (fneg fPi) = false) : roundUp N d = d :=
  if_neg (by simp [h])

/-- The first loop ends with one round where its test fails after it. -/
theorem unwrapDown_eq_roundDown {N : NumConfig} {d : Word} (fuel : Nat)
    (h : fgt (roundDown N d) fPi = false) : unwrapDown N (fuel + 1 + 1) d = some (roundDown N d) := by
  cases hd : fgt d fPi with
  | true =>
    rw [roundDown_of_fgt hd] at h ⊢
    rw [unwrapDown_round _ hd, unwrapDown_stop _ h]
  | false => rw [roundDown_of_not_fgt hd, unwrapDown_stop _ hd]

/-- The second loop ends with one round where its test fails after it. -/
theorem unwrapUp_eq_roundUp {N : NumConfig} {d : Word} (fuel : Nat)
    (h : fle (roundUp N d) (fneg fPi) = false) : unwrapUp N (fuel + 1 + 1) d = some (roundUp N d) := by
  cases hd : fle d (fneg fPi) with
  | true =>
    rw [roundUp_of_fle hd] at h ⊢
    rw [unwrapUp_round _ hd, unwrapUp_stop _ h]
  | false => rw [roundUp_of_not_fle hd, unwrapUp_stop _ hd]

/-- What ends in the half turn was not above `PI` before the second loop, which would have left it there. -/
theorem fgt_of_inHalfTurn_roundUp {N : NumConfig} {d : Word} (h : inHalfTurn (roundUp N d) = true) :
    fgt d fPi = false := by
  cases hd : fgt d fPi with
  | false => rfl
  | true =>
    rw [roundUp_of_not_fle (fle_fneg_fPi_of_fgt hd)] at h
    exact hd.symm.trans (inHalfTurn_iff.mp h).1

/-- Where one round of each loop ends in the half turn, the loops end there (R124). -/
theorem unwrap_eq_unwrapOnce {N : NumConfig} {d : Word} (h : inHalfTurn (unwrapOnce N d) = true) :
    unwrap N d = some (unwrapOnce N d) := by
  rw [unwrapOnce_eq] at h ⊢
  obtain ⟨fuel, hfuel⟩ := unwrapFuel_eq
  have hdown := unwrapDown_eq_roundDown fuel (fgt_of_inHalfTurn_roundUp h)
  have hup := unwrapUp_eq_roundUp fuel (inHalfTurn_iff.mp h).2
  rw [unwrap, hfuel, hdown, Option.bind_some, hup]

/-! The loops with the default arithmetic. -/

/-- A round of the second loop does not pass `PI`: of a finite difference the exact sum does not, and an
infinite one stays as it is. -/
theorem fgt_fadd_fTwoPi {d : Word} (h : fle d (fneg fPi) = true) :
    fgt (fadd d fTwoPi) fPi = false := by
  obtain ⟨hnan, _, hle⟩ := fle_iff_ratVal.mp h
  rw [ratVal_fneg_fPi] at hle
  refine Bool.eq_false_iff.mpr fun hgt => ?_
  obtain ⟨_, _, hgt⟩ := fgt_iff_ratVal.mp hgt
  cases hfin : isFinite d with
  | true =>
    have hsum := ratVal_le_of_roundsTo (c := fPi) (fadd_roundsTo hfin (by decide : isFinite fTwoPi = true))
      (by decide) (by linarith [ratVal_fTwoPi])
    linarith
  | false =>
    have hinf : isInf d = true := by
      simp only [isFinite, bne_eq_false_iff_eq] at hfin
      simpa [isNaN, isInf, hfin] using hnan
    have hturn : isInf fTwoPi = false := by decide
    have hsum : fadd d fTwoPi = d := by
      rw [fadd_of_isInf hinf (by decide), hturn, Bool.false_and, if_neg Bool.false_ne_true]
    rw [hsum] at hgt
    linarith [ratVal_fPi_pos]

/-- The second loop, begun at or below `PI`, ends there or at NaN. -/
theorem unwrapUp_not_fgt {fuel : Nat} {d e : Word} (h : unwrapUp defaultNum fuel d = some e)
    (hd : fgt d fPi = false) : fgt e fPi = false := by
  induction fuel generalizing d with
  | zero => simp [unwrapUp] at h
  | succ fuel ih =>
    cases hle : fle d (fneg fPi) with
    | true => exact ih (unwrapUp_round fuel hle ▸ h) (fgt_fadd_fTwoPi hle)
    | false =>
      obtain rfl := Option.some.inj ((unwrapUp_stop fuel hle).symm.trans h)
      exact hd

/-- Settles O37: the first loop ends at or below `PI`, the second does not pass it and ends above
`fneg(PI)`, unless NaN. -/
theorem unwrappedDifferenceIsWithinHalfATurn : Obligations.UnwrappedDifferenceIsWithinHalfATurn := by
  intro d e h
  obtain ⟨m, hdown, hup⟩ := Option.bind_eq_some_iff.mp h
  exact inHalfTurn_iff.mpr ⟨unwrapUp_not_fgt hup (unwrapDown_end hdown), unwrapUp_end hup⟩

/-- A round of the first loop takes a difference of at most a turn below `PI` (R124). -/
theorem within_roundDown {d : Word} (h : within (fneg fTwoPi) fTwoPi d = true) :
    within (fneg fTwoPi) fPi (roundDown defaultNum d) = true := by
  have hfin := isFinite_of_within (by decide) (by decide) h
  obtain ⟨hturn, hnan, _, hl, hh⟩ := within_iff_ratVal.mp h
  rw [ratVal_fTwoPi] at hh
  have hpos := ratVal_fPi_pos
  have hneg := ratVal_fneg_fTwoPi
  cases hd : fgt d fPi with
  | true =>
    obtain ⟨_, _, hgt⟩ := fgt_iff_ratVal.mp hd
    rw [roundDown_of_fgt hd]
    exact within_fadd hfin (by decide) (by decide) (by decide) (by linarith) (by linarith)
  | false =>
    rw [roundDown_of_not_fgt hd]
    have hle := fle_of_flt_false (by decide) hnan hd
    exact within_iff_ratVal.mpr ⟨hturn, hnan, by decide, hl, (fle_iff_ratVal.mp hle).2.2⟩

/-- A round of the second loop takes what is left above −`PI` (R124). -/
theorem inHalfTurn_roundUp {d : Word} (h : within (fneg fTwoPi) fPi d = true) :
    inHalfTurn (roundUp defaultNum d) = true := by
  have hfin := isFinite_of_within (by decide) (by decide) h
  obtain ⟨_, hnan, _, hl, hh⟩ := within_iff_ratVal.mp h
  have hpos := ratVal_fPi_pos
  have hzero : ratVal posZero = 0 := ratVal_of_isZero (by decide)
  rw [inHalfTurn_iff]
  cases hd : fle d (fneg fPi) with
  | true =>
    rw [roundUp_of_fle hd]
    refine ⟨fgt_fadd_fTwoPi hd, Bool.eq_false_iff.mpr fun hle => ?_⟩
    have hsum := le_ratVal_of_roundsTo (c := posZero)
      (fadd_roundsTo hfin (by decide : isFinite fTwoPi = true)) (by decide)
      (by linarith [ratVal_fTwoPi, ratVal_fneg_fTwoPi])
    have hle : ratVal (fadd d fTwoPi) ≤ ratVal (fneg fPi) := (fle_iff_ratVal.mp hle).2.2
    linarith [ratVal_fneg_fPi]
  | false =>
    rw [roundUp_of_not_fle hd]
    refine ⟨Bool.eq_false_iff.mpr fun hgt => ?_, hd⟩
    linarith [(fgt_iff_ratVal.mp hgt).2.2]

/-- The difference of two possible phases is NaN or at most a turn (R124). -/
theorem isNaN_or_within_fsub {a b : Word} (ha : isNaN a = true ∨ within (fneg fPi) fPi a = true)
    (hb : isNaN b = true ∨ within (fneg fPi) fPi b = true) :
    isNaN (fsub a b) = true ∨ within (fneg fTwoPi) fTwoPi (fsub a b) = true := by
  rcases ha with ha | ha
  · exact .inl (by rw [fsub_of_isNaN (.inl ha), isNaN_canonNaN])
  · rcases hb with hb | hb
    · exact .inl (by rw [fsub_of_isNaN (.inr hb), isNaN_canonNaN])
    · right
      have hafin := isFinite_of_within (by decide) (by decide) ha
      have hbfin := isFinite_of_within (by decide) (by decide) hb
      obtain ⟨_, _, _, hal, hah⟩ := within_iff_ratVal.mp ha
      obtain ⟨_, hbnan, _, hbl, hbh⟩ := within_iff_ratVal.mp hb
      rw [ratVal_fneg_fPi] at hal hbl
      have hneg := ratVal_fneg hbnan
      exact within_fadd hafin ((isFinite_fneg hbnan).trans hbfin) (by decide) (by decide)
        (by linarith [ratVal_fneg_fTwoPi]) (by linarith [ratVal_fTwoPi])

/-- NaN passes both loops as it is. -/
theorem inHalfTurn_unwrapOnce_of_isNaN {N : NumConfig} {d : Word} (h : isNaN d = true) :
    inHalfTurn (unwrapOnce N d) = true := by
  have hturn : inHalfTurn d = true := by simp [inHalfTurn, h]
  obtain ⟨hgt, hle⟩ := inHalfTurn_iff.mp hturn
  rw [unwrapOnce_eq, roundDown_of_not_fgt hgt, roundUp_of_not_fle hle]
  exact hturn

/-- One round of each loop takes the difference of two possible phases to the half turn (R124). -/
theorem inHalfTurn_unwrapOnce_fsub {a b : Word} (ha : isNaN a = true ∨ within (fneg fPi) fPi a = true)
    (hb : isNaN b = true ∨ within (fneg fPi) fPi b = true) :
    inHalfTurn (unwrapOnce defaultNum (fsub a b)) = true := by
  rcases isNaN_or_within_fsub ha hb with hnan | hturn
  · exact inHalfTurn_unwrapOnce_of_isNaN hnan
  · exact inHalfTurn_roundUp (within_roundDown hturn)

/-! The tick. -/

/-- Settles O35: where the difference ends in the half turn after one round, the loops end there, and the
next state is the one the pseudocode writes. -/
theorem hilTickResult : Obligations.HilTickResult := by
  refine ⟨fun _ => rfl, fun P s => ?_⟩
  intro buf im re th d hd
  have hdelta : hilTickDelta P s = some d := unwrap_eq_unwrapOnce hd
  refine ⟨hilTickNext P s d, ?_, rfl, rfl, rfl, rfl, rfl⟩
  rw [hilTickWith, hdelta]

/-- The difference of a tick after a possible previous phase (R124). -/
theorem hilTickDelta_of_prev {s : State}
    (h : isNaN s.hil.prev = true ∨ within (fneg fPi) fPi s.hil.prev = true) :
    inHalfTurn (unwrapOnce defaultNum (fsub (hilTickPhase defaultParams s) s.hil.prev)) = true ∧
    hilTickDelta defaultParams s =
      some (unwrapOnce defaultNum (fsub (hilTickPhase defaultParams s) s.hil.prev)) := by
  have hturn := inHalfTurn_unwrapOnce_fsub (a := hilTickPhase defaultParams s)
    (atan2Default_isNaN_or_within _ _) h
  exact ⟨hturn, unwrap_eq_unwrapOnce hturn⟩

/-- Settles O36: the phase found is a possible one, so the difference is at most a turn and one round of
each loop unwraps it. -/
theorem hilTickCompletes : Obligations.HilTickCompletes := by
  intro s h
  obtain ⟨hturn, hdelta⟩ := hilTickDelta_of_prev h
  exact ⟨hturn, _, execHilTick_of_delta hdelta, rfl⟩

end Sys2Proof.Proofs
end

section
/-!
PROOFS. HIL forgets (R129 d): two records fed the same samples agree on as many of the latest samples as were
fed, on the previous phase from the fifteenth on, and on the outputs from the sixteenth on.
-/
namespace Sys2Proof.Proofs

open Sys2Proof.Machine Sys2Proof.Config

/-- What two states fed the same `k` samples, at the same `FS`, agree on (R129 d). -/
structure HilAgree (k : Nat) (s s' : State) : Prop where
  safeLeft : hilSafe s.hil = true
  safeRight : hilSafe s'.hil = true
  fs : getReg s.regs .fs = getReg s'.regs .fs
  history : ∀ n, n < 15 → n < k → hilHistory s.hil n = hilHistory s'.hil n
  prev : 15 ≤ k → s.hil.prev = s'.hil.prev
  am : 16 ≤ k → getReg s.regs .hilAm = getReg s'.regs .hilAm
  fm : 16 ≤ k → getReg s.regs .hilFm = getReg s'.regs .hilFm

theorem hilSafe_iff {h : HilState} :
    hilSafe h = true ↔ Memory.wf hilTaps h.buf = true ∧
      (isNaN h.prev = true ∨ within (fneg fPi) fPi h.prev = true) := by
  simp [hilSafe]

/-- A tick on a safe record completes and leaves a safe record (R124). -/
theorem exec_hilTick_of_hilSafe {s : State} (h : hilSafe s.hil = true) :
    ∃ d, hilTickDelta defaultParams s = some d ∧
      exec .hilTick s = .next (hilTickNext defaultParams s d) ∧
      hilSafe (hilTickNext defaultParams s d).hil = true := by
  obtain ⟨_, hdelta⟩ := hilTickDelta_of_prev (hilSafe_iff.mp h).2
  exact ⟨_, hdelta, execHilTick_of_delta hdelta, hilSafe_hilAfter _ h (atan2Default_isNaN_or_within _ _)⟩

/-- `HIL_IN` written with a sample, as `hilFeed` does before each tick (R77). -/
def hilWrite (x : Word) (s : State) : State := s.withRegs (setReg s.regs .hilIn x)

/-- One more sample fed to both: they agree on it and, one tick older, on the samples before; the phase then
agrees if the 15 samples do, and the outputs if the phase before did too. -/
theorem HilAgree.feed {k : Nat} {s s' : State} (h : HilAgree k s s') (x : Word) :
    ∃ t t', exec .hilTick (hilWrite x s) = .next t ∧ exec .hilTick (hilWrite x s') = .next t' ∧
      HilAgree (k + 1) t t' := by
  obtain ⟨d, hd, hexec, hsafe⟩ := exec_hilTick_of_hilSafe (s := hilWrite x s) h.safeLeft
  obtain ⟨d', hd', hexec', hsafe'⟩ := exec_hilTick_of_hilSafe (s := hilWrite x s') h.safeRight
  have hist : ∀ n, n < 15 → n < k + 1 → hilHistory (hilTickNext defaultParams (hilWrite x s) d).hil n =
      hilHistory (hilTickNext defaultParams (hilWrite x s') d').hil n := by
    intro n hn hk
    have hwf := (hilSafe_iff.mp h.safeLeft).1
    have hwf' := (hilSafe_iff.mp h.safeRight).1
    cases n with
    | zero => exact (hilHistory_hilAfter_zero _ _ _ hwf).trans (hilHistory_hilAfter_zero _ _ _ hwf').symm
    | succ n =>
      have hn : n < 14 := by omega
      calc _ = hilHistory s.hil n := hilHistory_hilAfter_succ _ _ _ hwf hn
        _ = hilHistory s'.hil n := h.history n (by omega) (by omega)
        _ = _ := (hilHistory_hilAfter_succ _ _ _ hwf' hn).symm
  have hcomp (hk : 15 ≤ k + 1) := hilComponents_congr fun n hn => hist n hn (by omega)
  have hphase (hk : 15 ≤ k + 1) := hilTickPhase_congr (hcomp hk).1 (hcomp hk).2
  refine ⟨_, _, hexec, hexec', hsafe, hsafe', h.fs, hist, hphase, fun hk => ?_, fun hk => ?_⟩
  · obtain ⟨hre, him⟩ := hcomp (by omega)
    rw [hilTickNext_hilAm, hilTickNext_hilAm, hre, him]
  · have hprev : (hilWrite x s).hil.prev = (hilWrite x s').hil.prev := h.prev (by omega)
    have hfs : getReg (hilWrite x s).regs .fs = getReg (hilWrite x s').regs .fs := h.fs
    rw [hilTickDelta, hphase (by omega), hprev, ← hilTickDelta, hd'] at hd
    rw [hilTickNext_hilFm, hilTickNext_hilFm, hfs, Option.some.inj hd]

theorem hilFeed_cons (x : Word) (xs : List Word) {s t : State}
    (h : exec .hilTick (hilWrite x s) = .next t) : hilFeed (x :: xs) s = hilFeed xs t := by
  rw [hilWrite] at h
  rw [hilFeed, h]

/-- Two states fed the same samples agree on that many more. -/
theorem HilAgree.feed_all {k : Nat} {s s' : State} (h : HilAgree k s s') (xs : List Word) :
    ∃ t t', hilFeed xs s = .next t ∧ hilFeed xs s' = .next t' ∧ HilAgree (k + xs.length) t t' := by
  induction xs generalizing k s s' with
  | nil => exact ⟨s, s', rfl, rfl, h⟩
  | cons x xs ih =>
    obtain ⟨t, t', ht, ht', hagree⟩ := h.feed x
    obtain ⟨u, u', hu, hu', hagree'⟩ := ih hagree
    refine ⟨u, u', (hilFeed_cons x xs ht).trans hu, (hilFeed_cons x xs ht').trans hu', ?_⟩
    rwa [List.length_cons, Nat.add_comm xs.length 1, ← Nat.add_assoc]

/-- Settles O40: with no sample fed safe records at one `FS` have nothing to agree on; 16 samples later they
agree on all that is asked. -/
theorem hilForgetsAfterSixteenSamples : Obligations.HilForgetsAfterSixteenSamples := by
  intro xs s s' hlen hs hs' hfs
  have start : HilAgree 0 s s' := ⟨hs, hs', hfs, fun _ _ hn => absurd hn (Nat.not_lt_zero _),
    fun hk => absurd hk (by decide), fun hk => absurd hk (by decide), fun hk => absurd hk (by decide)⟩
  obtain ⟨t, t', ht, ht', hagree⟩ := start.feed_all xs
  rw [hlen, Nat.zero_add] at hagree
  exact ⟨t, t', ht, ht', hagree.am (by decide), hagree.fm (by decide), hagree.prev (by decide),
    fun n hn => hagree.history n hn (by omega)⟩

end Sys2Proof.Proofs
end

section
/-!
PROOFS. The memory frame of the two storing ticks (R122, R144): each buffer after the tick is the buffer before
with one entry written.
-/
namespace Sys2Proof.Proofs

open Sys2Proof.Machine Sys2Proof.Config

/-- A write stores its word and leaves every other entry as it reads (R52). -/
theorem memRead_memWrite_frame {size : Nat} {m : Memory} (i : Nat) (v : Word)
    (h : Memory.wf size m = true) :
    memRead (memWrite m i v) i = v ∧ ∀ a, a ≠ i → memRead (memWrite m i v) a = memRead m a :=
  ⟨memRead_memWrite_same h, fun _ ha => memRead_memWrite_other h ha⟩

/-- A tick of CHO takes each voice record to its next (R142). -/
theorem voiceAt_choAfter (N : NumConfig) (x : Regs) (c : ChoState) (i : Fin choVoices) :
    voiceAt (choAfter N x c) i = choVoiceAfter N x i (voiceAt c i) := by
  match i with
  | 0 | 1 | 2 | 3 | 4 => rfl

/-- Each voice of a safe CHO record is safe (R31). -/
theorem voiceSafe_voiceAt {c : ChoState} (h : choSafe c = true) (i : Fin choVoices) :
    voiceSafe (voiceAt c i) = true := by
  obtain ⟨⟨h0, h1, h2, h3, h4⟩, _⟩ := choSafe_iff.mp h
  match i with
  | 0 => exact h0
  | 1 => exact h1
  | 2 => exact h2
  | 3 => exact h3
  | 4 => exact h4

/-- A tick stores one entry in each buffer of a voice (R144). -/
theorem choVoiceAfter_frame {V : Voice} (N : NumConfig) (x : Regs) (i : Nat) (h : voiceSafe V = true) :
    memRead (choVoiceAfter N x i V).am V.wp = getReg x .choAm ∧
    memRead (choVoiceAfter N x i V).fm V.wp = getReg x .choFm ∧
    ∀ a, a ≠ V.wp.val → memRead (choVoiceAfter N x i V).am a = memRead V.am a ∧
      memRead (choVoiceAfter N x i V).fm a = memRead V.fm a := by
  simp only [voiceSafe, Bool.and_eq_true] at h
  obtain ⟨⟨ham, hfm⟩, _⟩ := h
  obtain ⟨hamNew, hamOld⟩ := memRead_memWrite_frame V.wp (getReg x .choAm) ham
  obtain ⟨hfmNew, hfmOld⟩ := memRead_memWrite_frame V.wp (getReg x .choFm) hfm
  exact ⟨hamNew, hfmNew, fun a ha => ⟨hamOld a ha, hfmOld a ha⟩⟩

/-- Settles O18: HIL's buffer takes the write of `hilPush`, both buffers of each voice the writes of
`choVoiceAfter`, and a canonical memory reads after a write as R52 says. -/
theorem ticksStoreOneEntryPerBuffer : Obligations.TicksStoreOneEntryPerBuffer := by
  refine ⟨fun s t hwf hexec => ?_, fun s t hsafe hexec i => ?_⟩
  · obtain ⟨d, _, rfl⟩ := execHilTick_next hexec
    exact memRead_memWrite_frame _ _ hwf
  · obtain rfl := Host.Outcome.next.inj hexec
    have hframe := choVoiceAfter_frame defaultNum s.regs i (voiceSafe_voiceAt hsafe i)
    rw [← voiceAt_choAfter] at hframe
    exact hframe

end Sys2Proof.Proofs
end

section
/-!
PROOFS. The Hilbert coefficients (R121): the positive half is checked against bounds on π, the other half is its
negation.
-/
namespace Sys2Proof.Proofs

open Sys2Proof.Machine Sys2Proof.Config

/-- `w` is finite, without sign, and within half a last place of 2/(π·`m`) for every π between `lo`/`D` and
`hi`/`D`; and the value there has that last place. -/
def withinHalfOfTwoDivPi (D lo hi : Nat) (w : Word) (m : Nat) : Bool :=
  isFinite w && !isNeg w &&
    decide (2 * mag w * m * hi ≤ 4 * 2 ^ 149 * D + 2 ^ (expField w - 1) * m * lo) &&
    decide (4 * 2 ^ 149 * D ≤ (2 * mag w + 2 ^ (expField w - 1)) * m * lo) &&
    decide (2 ^ (23 + (expField w - 1)) * m * hi ≤ 2 * 2 ^ 149 * D)

/-- A word that passes the check is nearest to 2/(π·`m`). -/
theorem nearestTo_two_div_pi {D lo hi : Nat} {w : Word} {m : Nat} (hD : 0 < D) (hm : 0 < m)
    (hlo : (lo : ℝ) ≤ Real.pi * D) (hhi : Real.pi * D ≤ hi)
    (h : withinHalfOfTwoDivPi D lo hi w m = true) : NearestTo w (2 / (Real.pi * m)) := by
  simp only [withinHalfOfTwoDivPi, Bool.and_eq_true, Bool.not_eq_true', decide_eq_true_eq] at h
  obtain ⟨⟨⟨⟨hfin, hsign⟩, hup⟩, hlow⟩, hplace⟩ := h
  have hdvd := two_pow_dvd_mag_expField w
  rw [← Nat.cast_le (α := ℝ)] at hup hlow hplace
  push_cast at hup hlow hplace
  generalize expField w - 1 = K at *
  have hm' : (0 : ℝ) < m := by exact_mod_cast hm
  have hD' : (0 : ℝ) < D := by exact_mod_cast hD
  have hp : 0 < Real.pi * m * D := mul_pos (mul_pos Real.pi_pos hm') hD'
  have hy : 2 / (Real.pi * m) * 2 ^ 149 * (Real.pi * m * D) = 2 * 2 ^ 149 * D := by
    have := Real.pi_pos
    field_simp
  have hscale {c : ℝ} (hc : 0 ≤ c) :
      c * m * lo ≤ c * (Real.pi * m * D) ∧ c * (Real.pi * m * D) ≤ c * m * hi := by
    have hcm := mul_nonneg hc hm'.le
    rw [show c * (Real.pi * m * D) = c * m * (Real.pi * D) by ring]
    exact ⟨mul_le_mul_of_nonneg_left hlo hcm, mul_le_mul_of_nonneg_left hhi hcm⟩
  have hpow : (0 : ℝ) ≤ 2 ^ K := by positivity
  have hmag := (hscale (c := 2 * mag w) (by positivity)).2
  have hstep := (hscale hpow).1
  have hsum := (hscale (c := 2 * mag w + 2 ^ K) (by positivity)).1
  have hfull := (hscale (c := 2 ^ (23 + K)) (by positivity)).2
  have hy0 : 0 ≤ 2 / (Real.pi * m) := by positivity
  generalize Real.pi * m * D = p at *
  generalize 2 / (Real.pi * m) = y at *
  refine nearestTo_of_half hfin hsign hy0 hdvd (abs_le.mpr ⟨?_, ?_⟩) (.inr ?_) <;>
    refine le_of_mul_le_mul_right ?_ hp <;> linarith

/-- The positive half of the table passes the check, with 20 places of π. -/
theorem hilCoef_withinHalf : ∀ m, m < 8 → m % 2 = 1 →
    withinHalfOfTwoDivPi (10 ^ 20) 314159265358979323846 314159265358979323847 (hilCoef (7 + m)) m =
      true := by
  decide +kernel

/-- The table is antisymmetric about its centre, entry 7 (R121). -/
theorem hilCoef_antisymm : ∀ n, n < 15 → n % 2 = 0 → hilCoef (14 - n) = fneg (hilCoef n) := by
  decide

/-- The positive half of the table is nearest to 2/(π·m) (R121). -/
theorem hilCoef_nearestTo {m : Nat} (hm : m < 8) (hodd : m % 2 = 1) :
    NearestTo (hilCoef (7 + m)) (2 / (Real.pi * m)) := by
  refine nearestTo_two_div_pi (by positivity) (by omega) ?_ ?_ (hilCoef_withinHalf m hm hodd)
  · have := Real.pi_gt_d20
    push_cast
    linarith
  · have := Real.pi_lt_d20
    push_cast
    linarith

/-- Settles O34: the entries after the centre by the check, those before it as their negations. -/
theorem hilbertCoefficientsAreNearest : Obligations.HilbertCoefficientsAreNearest := by
  refine ⟨rfl, hilCoef_antisymm, fun n hn heven => ?_⟩
  rcases Nat.lt_or_ge n 7 with hlow | hhigh
  · have hneg := nearestTo_fneg (hilCoef_nearestTo (m := 7 - n) (by omega) (by omega))
    rw [← hilCoef_antisymm _ (by omega) (by omega), show 14 - (7 + (7 - n)) = n by omega,
      ← div_neg, ← mul_neg, Nat.cast_sub hlow.le, neg_sub] at hneg
    exact hneg.2
  · have hpos := hilCoef_nearestTo (m := n - 7) (by omega) (by omega)
    rw [Nat.add_sub_cancel' hhigh, Nat.cast_sub hhigh] at hpos
    exact hpos.2

end Sys2Proof.Proofs
end

section
/-!
PROOFS. The chorus engine (R142 to R149): a tick voice by voice, the way of the write pointers, the clamped
outputs, and the voices that stay identical.
-/
namespace Sys2Proof.Proofs

open Sys2Proof.Machine Sys2Proof.Config

/-! A tick, voice by voice (R142). -/

theorem exec_choTick (s : State) : exec .choTick s = .next (choTickWith defaultParams s) := rfl

theorem voiceAt_choTickWith (P : Params) (s : State) (i : Fin choVoices) :
    voiceAt (choTickWith P s).cho i = choVoiceAfter P.num s.regs i (voiceAt s.cho i) :=
  voiceAt_choAfter P.num s.regs s.cho i

@[simp] theorem choVoiceAfter_am (N : NumConfig) (x : Regs) (i : Nat) (V : Voice) :
    (choVoiceAfter N x i V).am = choWriteAm x V := rfl

@[simp] theorem choVoiceAfter_fm (N : NumConfig) (x : Regs) (i : Nat) (V : Voice) :
    (choVoiceAfter N x i V).fm = choWriteFm x V := rfl

@[simp] theorem choVoiceAfter_wp (N : NumConfig) (x : Regs) (i : Nat) (V : Voice) :
    (choVoiceAfter N x i V).wp = ringNext V.wp := rfl

@[simp] theorem choVoiceAfter_ph (N : NumConfig) (x : Regs) (i : Nat) (V : Voice) :
    (choVoiceAfter N x i V).ph = choPhase N x i V := rfl

/-- `CHO_OUT` after a tick is the clamped output of the five voices' sum (R146, R147). -/
theorem getReg_choTickWith_choOut (P : Params) (s : State) :
    getReg (choTickWith P s).regs .choOut = choOutput P (choSum P.num s.regs s.cho) :=
  getReg_setReg_same s.regs .choOut _

/-- `WAH_OUT` after a tick is the clamped output of the advanced phase (R166). -/
theorem getReg_wahTickWith_wahOut (P : Params) (s : State) :
    getReg (wahTickWith P s).regs .wahOut =
      wahOutput P (getReg s.regs .wahAm) (wahPhase P.num s.regs s.wah) :=
  getReg_setReg_same s.regs .wahOut _

/-- Settles O41: each voice is `choVoiceAfter` of the voice before, field by field, and the output is
`choOutput` of `choSum`. -/
theorem choTickResult : Obligations.ChoTickResult := by
  refine ⟨exec_choTick, ?_⟩
  rintro P s t rfl
  refine ⟨fun i => ?_, getReg_choTickWith_choOut P s⟩
  rw [voiceAt_choTickWith]
  exact ⟨choVoiceAfter_am .., choVoiceAfter_fm .., ringNext_val _, choVoiceAfter_ph ..⟩

/-! The write pointers (R148). -/

theorem execAll_cons_of_next {i : Instr} {s t : State} (is : List Instr) (h : exec i s = .next t) :
    execAll (i :: is) s = execAll is t := by
  rw [execAll, h]

/-- `n` ticks complete and move each write pointer on by `n` entries of the ring (R148). -/
theorem execAll_choTick_advances_wp (n : Nat) (s : State) :
    ∃ t, execAll (List.replicate n .choTick) s = .next t ∧
      ∀ i, (voiceAt t.cho i).wp.val = ((voiceAt s.cho i).wp.val + n) % choCap := by
  induction n generalizing s with
  | zero => exact ⟨s, rfl, fun i => (Nat.mod_eq_of_lt (voiceAt s.cho i).wp.isLt).symm⟩
  | succ n ih =>
    obtain ⟨t, hrun, hwp⟩ := ih (choTickWith defaultParams s)
    refine ⟨t, (execAll_cons_of_next _ (exec_choTick s)).trans hrun, fun i => ?_⟩
    rw [hwp, voiceAt_choTickWith, choVoiceAfter_wp, ringNext_val, Nat.mod_add_mod,
      Nat.add_assoc, Nat.add_comm 1 n]

/-- Settles O42: by induction on the ticks; a pointer moved on by the whole ring is where it was. -/
theorem chorusPointersComeRound : Obligations.ChorusPointersComeRound := by
  intro n s
  obtain ⟨t, hrun, hwp⟩ := execAll_choTick_advances_wp n s
  refine ⟨t, hrun, fun i => ⟨hwp i, fun hn => Fin.ext ?_⟩⟩
  rw [hwp i, hn, Nat.add_mod_right, Nat.mod_eq_of_lt (voiceAt s.cho i).wp.isLt]

/-! The clamped outputs (R147, R166). -/

/-- A positive bound lies above its negation. -/
theorem fle_fneg_self {v : Word} (h : flt posZero v = true) : fle (fneg v) v = true := by
  obtain ⟨_, hnan, hlt⟩ := flt_iff.mp h
  have hzero : sval posZero = 0 := by decide
  have hneg := sval_fneg hnan
  exact fle_iff.mpr ⟨isNaN_fneg hnan, hnan, by omega⟩

/-- Settles O43: both outputs are results of `clamp` with bounds in order. -/
theorem clampedOutputsStayWithinVmax : Obligations.ClampedOutputsStayWithinVmax := by
  intro P s _ hpos
  have hbounds := fle_fneg_self hpos
  rw [getReg_choTickWith_choOut, getReg_wahTickWith_wahOut]
  exact ⟨within_clamp _ hbounds, within_clamp _ hbounds⟩

/-! Identical voices (R149). -/

/-- A finite number times a zero is a zero (R91). -/
theorem isZero_fmul_of_isZero_right {a z : Word} (ha : isFinite a = true) (hz : isZero z = true) :
    isZero (fmul a z) = true := by
  obtain ⟨hfin, hmag⟩ := isZero_iff.mp hz
  have hround : roundMag 0 (2 ^ 149) = 0 := by decide
  rw [fmul_of_isFinite ha hfin, hmag, Nat.mul_zero, hround]
  cases isNeg a != isNeg z <;> decide

/-- A zero times a finite number without sign is the same zero (R91). -/
theorem fmul_isZero_of_not_isNeg {z a : Word} (hz : isZero z = true) (ha : isFinite a = true)
    (hsign : isNeg a = false) : fmul z a = z := by
  obtain ⟨hfin, hmag⟩ := isZero_iff.mp hz
  have hround : roundMag 0 (2 ^ 149) = 0 := by decide
  rw [fmul_of_isFinite hfin ha, hmag, Nat.zero_mul, hround, hsign, Bool.bne_false]
  exact (eq_pack_of_isZero hz).symm

/-- One plus a zero of either sign is one (R91). -/
theorem fadd_fOne_isZero {z : Word} (hz : isZero z = true) : fadd fOne z = fOne := by
  rw [eq_pack_of_isZero hz]
  cases isNeg z <;> decide

/-- The five voice numbers are finite (R141). -/
theorem isFinite_choVoiceNumber : ∀ i : Fin choVoices, isFinite (choVoiceNumber i) = true := by
  decide

/-- The five delay multipliers, 0.6 to 1.4, are finite and have no sign (R141). -/
theorem choMultiplier_finite_pos : ∀ i : Fin choVoices,
    isFinite (choMultiplier defaultNum i) = true ∧ isNeg (choMultiplier defaultNum i) = false := by
  decide +kernel

/-- With zero delay the multiplier drops out: all voices read at the delay of the middle one (R143). -/
theorem choDelaySamples_of_isZero {x : Regs} (h : isZero (getReg x .choDelay) = true)
    (i : Fin choVoices) :
    choDelaySamples defaultNum x i = fdiv (fmul (getReg x .choDelay) (getReg x .fs)) f1000 := by
  obtain ⟨hfin, hsign⟩ := choMultiplier_finite_pos i
  have hdrop : defaultNum.fmul (getReg x .choDelay) (choMultiplier defaultNum i) =
      getReg x .choDelay := fmul_isZero_of_not_isNeg h hfin hsign
  rw [choDelaySamples, hdrop]
  rfl

/-- With zero detune every factor is one (R145). -/
theorem choDetuneFactor_of_isZero {x : Regs} (h : isZero (getReg x .choDetune) = true)
    (i : Fin choVoices) : choDetuneFactor defaultNum x i = fOne :=
  fadd_fOne_isZero (isZero_fmul_of_isZero_right (isFinite_choVoiceNumber i) h)

/-- Voices with one delay and one detune factor make the same of the same record (R142). -/
theorem choVoiceAfter_eq_of_same_params {N : NumConfig} {x : Regs} {i j : Nat} (V : Voice)
    (hdelay : choDelaySamples N x i = choDelaySamples N x j)
    (hdetune : choDetuneFactor N x i = choDetuneFactor N x j) :
    choVoiceAfter N x i V = choVoiceAfter N x j V := by
  simp only [choVoiceAfter, choPhase, choDelayedFm, hdelay, hdetune]

/-- Settles O44: at zero delay and zero detune a voice's number drops out of its tick. Finite `FS` is not
needed: any other makes the delay the same NaN for all five. -/
theorem undelayedUndetunedVoicesStayIdentical :
    Obligations.UndelayedUndetunedVoicesStayIdentical := by
  intro s t hdelay hdetune _ hsame hexec i
  obtain rfl := Host.Outcome.next.inj ((exec_choTick s).symm.trans hexec)
  rw [voiceAt_choTickWith, voiceAt_choTickWith, hsame i]
  refine choVoiceAfter_eq_of_same_params _ ?_ ?_
  · exact (choDelaySamples_of_isZero hdelay i).trans (choDelaySamples_of_isZero hdelay 0).symm
  · exact (choDetuneFactor_of_isZero hdetune i).trans (choDetuneFactor_of_isZero hdetune 0).symm

end Sys2Proof.Proofs
end

section
/-!
PROOFS. WAH (R161 to R166): a tick field by field against the pseudocode, and the phase that stays in one turn.
-/
namespace Sys2Proof.Proofs

open Sys2Proof.Machine Sys2Proof.Config

/-! A tick, field by field (R161). -/

theorem exec_wahTick (s : State) : exec .wahTick s = .next (wahTickWith defaultParams s) := rfl

@[simp] theorem wahTickWith_wah (P : Params) (s : State) :
    (wahTickWith P s).wah = wahAfter P.num s.regs s.wah := rfl

@[simp] theorem wahAfter_ph (N : NumConfig) (x : Regs) (w : WahState) :
    (wahAfter N x w).ph = wahPhase N x w := rfl

/-- The next state of a tick that completes. -/
theorem eq_of_exec_wahTick {s t : State} (h : exec .wahTick s = .next t) :
    t = wahTickWith defaultParams s :=
  (Host.Outcome.next.inj ((exec_wahTick s).symm.trans h)).symm

/-! The phase (R165). -/

/-- Settles O46: the increment is clamped, so the sum that `wrap2pi` folds is finite. -/
theorem wahPhaseNeverLeavesTheTurn : Obligations.WahPhaseNeverLeavesTheTurn := by
  refine ⟨fun s => within_wahIncrement defaultNum s.regs s.wah, fun s t hph hexec => ?_⟩
  obtain rfl := eq_of_exec_wahTick hexec
  have hnext : phaseInRange (wahTickWith defaultParams s).wah.ph = true := by
    rw [wahTickWith_wah, wahAfter_ph]
    exact phaseInRange_wahPhase s.regs hph
  exact ⟨hnext, (phaseInRange_iff.mp hnext).1⟩

/-! The pseudocode (R161 to R166). -/

/-- Settles O45: the pseudocode's smoothed value and phase are `wahSmoothed` and `wahPhase`, from which
`wahAfter` and `wahOutput` make the record and the output. -/
theorem wahTickResult : Obligations.WahTickResult := by
  refine ⟨exec_wahTick, ?_⟩
  rintro P s t rfl fc q w0 alpha a0 b0 b2 a1 a2 xin y sn inc ph
  have hcoefs : wahCoefs P.num s.regs = ⟨b0, b2, a1, a2⟩ := rfl
  have hy : wahRecursion P.num (wahCoefs P.num s.regs) (wahInUsed s.regs) s.wah = y := by
    rw [hcoefs]
    rfl
  have hsn : wahSmoothed P.num s.regs s.wah = sn := by
    rw [wahSmoothed, hy]
  have hph : wahPhase P.num s.regs s.wah = ph := by
    rw [wahPhase, wahIncrement, hsn]
    rfl
  constructor
  · rw [wahTickWith_wah, wahAfter, hsn, hph]
    rfl
  · rw [getReg_wahTickWith_wahOut, hph]
    rfl

end Sys2Proof.Proofs
end

section
/-!
PROOFS. OCT (R181 to R184): a tick field by field against the pseudocode, the phase that the one-sided wrap
keeps in one turn, and the octave ratios.
-/
namespace Sys2Proof.Proofs

open Sys2Proof.Machine Sys2Proof.Config

/-! A tick, field by field (R181). -/

theorem exec_octTick (s : State) : exec .octTick s = .next (octTickWith defaultParams s) := rfl

@[simp] theorem octTickWith_oct_ph (P : Params) (s : State) :
    (octTickWith P s).oct.ph = octPhase P.num s.regs s.oct := rfl

/-- `OCT_OUT` after a tick is the unclamped product with the advanced phase's cosine (R183). -/
theorem getReg_octTickWith_octOut (P : Params) (s : State) :
    getReg (octTickWith P s).regs .octOut =
      resynth P.num (getReg s.regs .octAm) (octPhase P.num s.regs s.oct) :=
  getReg_setReg_same s.regs .octOut _

/-- The next state of a tick that completes. -/
theorem eq_of_exec_octTick {s t : State} (h : exec .octTick s = .next t) :
    t = octTickWith defaultParams s :=
  (Host.Outcome.next.inj ((exec_octTick s).symm.trans h)).symm

/-! The one-sided wrap (R182). -/

theorem octWrap_of_fgt {N : NumConfig} {p : Word} (h : fgt p fTwoPi = true) :
    octWrap N p = N.fsub p fTwoPi := if_pos h

theorem octWrap_of_not_fgt {N : NumConfig} {p : Word} (h : fgt p fTwoPi = false) : octWrap N p = p :=
  if_neg (Bool.eq_false_iff.mp h)

/-- Two turns: the binary32 that is exactly twice `TWO_PI`. -/
def fTwoTurns : Word := 0x41490FDB#32

theorem ratVal_fTwoTurns : ratVal fTwoTurns = 2 * ratVal fTwoPi := by
  have hval : sval fTwoTurns = 2 * sval fTwoPi := by decide
  rw [ratVal, ratVal, hval]
  push_cast
  ring

theorem ratVal_posZero : ratVal posZero = 0 := ratVal_of_isZero (by decide)

/-- The sum of two words of at most a turn is at most two turns, also rounded. -/
theorem within_fTwoTurns_fadd {a b : Word} (ha : within posZero fTwoPi a = true)
    (hb : within posZero fTwoPi b = true) : within posZero fTwoTurns (fadd a b) = true := by
  have hfa := isFinite_of_within (by decide) (by decide) ha
  have hfb := isFinite_of_within (by decide) (by decide) hb
  obtain ⟨_, _, _, hla, hha⟩ := within_iff_ratVal.mp ha
  obtain ⟨_, _, _, hlb, hhb⟩ := within_iff_ratVal.mp hb
  have hzero := ratVal_posZero
  have hturns := ratVal_fTwoTurns
  exact within_fadd hfa hfb (by decide) (by decide) (by linarith) (by linarith)

/-- One subtraction takes what is at most two turns into one turn (R182 (a)). -/
theorem within_octWrap {p : Word} (h : within posZero fTwoTurns p = true) :
    within posZero fTwoPi (octWrap defaultNum p) = true := by
  have hfin := isFinite_of_within (by decide) (by decide) h
  obtain ⟨hzeroNum, hnan, _, hl, hh⟩ := within_iff_ratVal.mp h
  rw [ratVal_fTwoTurns] at hh
  cases hp : fgt p fTwoPi with
  | true =>
    obtain ⟨_, _, hgt⟩ := fgt_iff_ratVal.mp hp
    have hneg : ratVal (fneg fTwoPi) = -ratVal fTwoPi := ratVal_fneg (by decide)
    have hzero := ratVal_posZero
    rw [octWrap_of_fgt hp]
    exact within_fadd hfin (by decide) (by decide) (by decide) (by linarith) (by linarith)
  | false =>
    rw [octWrap_of_not_fgt hp]
    have hle := fle_of_flt_false (by decide) hnan hp
    exact within_iff_ratVal.mpr ⟨hzeroNum, hnan, by decide, hl, (fle_iff_ratVal.mp hle).2.2⟩

/-- Settles O49: the advanced phase is at most two turns, from where one subtraction leads into one turn. -/
theorem octPhaseStaysInOneTurn : Obligations.OctPhaseStaysInOneTurn := by
  intro s t hph hinc hexec
  obtain rfl := eq_of_exec_octTick hexec
  rw [octTickWith_oct_ph]
  exact within_octWrap (within_fTwoTurns_fadd hph hinc)

/-! The pseudocode (R181 to R183). -/

/-- Settles O47: the pseudocode's phase is `octPhase`, and the output is `resynth` of it. -/
theorem octTickResult : Obligations.OctTickResult := by
  refine ⟨exec_octTick, ?_⟩
  rintro P s t rfl ratio inc p q
  have hph : octPhase P.num s.regs s.oct = q := rfl
  rw [octTickWith_oct_ph, getReg_octTickWith_octOut, hph]
  exact ⟨rfl, rfl⟩

/-! The octave ratios (R184 (a)). -/

/-- The phase after a tick, by the ratio its control gives (R181). -/
theorem octTickWith_ph_of_octRatio {s : State} {ratio : Word}
    (h : octRatio defaultNum (getReg s.regs .octCtrl) = ratio) :
    (octTickWith defaultParams s).oct.ph = octWrap defaultNum (fadd s.oct.ph
      (fmul (fmul (fmul fTwoPi (getReg s.regs .octFm)) ratio) (getReg s.regs .dt))) := by
  subst h
  rfl

/-- Settles O48: each listed control gives its ratio, one evaluation of the linear map per pair. -/
theorem octaveRatiosAreExact : Obligations.OctaveRatiosAreExact := by
  intro c ratio hmem s hctrl
  have hratio : octRatio defaultNum c = ratio := by
    simp only [List.mem_cons, List.not_mem_nil, or_false, Prod.mk.injEq] at hmem
    rcases hmem with ⟨rfl, rfl⟩ | ⟨rfl, rfl⟩ | ⟨rfl, rfl⟩ | ⟨rfl, rfl⟩ | ⟨rfl, rfl⟩ | ⟨rfl, rfl⟩ |
      ⟨rfl, rfl⟩ <;> decide
  exact ⟨_, exec_octTick s, octTickWith_ph_of_octRatio (hctrl ▸ hratio)⟩

end Sys2Proof.Proofs
end

section
/-!
PROOFS. HYB (R191 to R194): a tick field by field against the pseudocode, the soft-clipped output, and the mix
that reduces to one stream.
-/
namespace Sys2Proof.Proofs

open Sys2Proof.Machine Sys2Proof.Config

/-! A tick, field by field (R191). -/

theorem exec_hybTick (s : State) : exec .hybTick s = .next (hybTickWith defaultParams s) := rfl

/-- HYB's record after a tick (R191, R192). -/
@[simp] theorem hybTickWith_hyb (P : Params) (s : State) :
    (hybTickWith P s).hyb = ⟨hybSmoothed P.num s.regs s.hyb, hybPhase P.num s.regs s.hyb⟩ := rfl

/-- `HYB_OUT` after a tick is the soft-clipped product with the advanced phase's cosine (R193). -/
theorem getReg_hybTickWith_hybOut (P : Params) (s : State) :
    getReg (hybTickWith P s).regs .hybOut =
      P.num.tanh (resynth P.num (getReg s.regs .hybAm) (hybPhase P.num s.regs s.hyb)) :=
  getReg_setReg_same s.regs .hybOut _

/-- The next state of a tick that completes. -/
theorem eq_of_exec_hybTick {s t : State} (h : exec .hybTick s = .next t) :
    t = hybTickWith defaultParams s :=
  (Host.Outcome.next.inj ((exec_hybTick s).symm.trans h)).symm

/-! The soft clip (R193). -/

/-- Settles O51: the output is a hyperbolic tangent, whatever its operand. -/
theorem hybOutputNeverExceedsOne : Obligations.HybOutputNeverExceedsOne := by
  intro s t hexec
  obtain rfl := eq_of_exec_hybTick hexec
  rw [getReg_hybTickWith_hybOut]
  exact tanhDefault_eq_canonNaN_or_within _

/-! The mix (R194). Both products are always formed, so a stream of weight zero still enters the sum, as a zero
of either sign; that it is finite keeps its product from being NaN. -/

/-- A stream of weight 1.0 keeps its value. -/
theorem fmul_fOne_exact {a : Word} (ha : isFinite a = true) :
    isFinite (fmul fOne a) = true ∧ ratVal (fmul fOne a) = ratVal a := by
  have hval : ratVal fOne * ratVal a = ratVal a := by rw [ratVal_fOne, Int.cast_one, one_mul]
  have hround := fmul_roundsTo (show isFinite fOne = true by decide) ha
  rw [hval] at hround
  exact roundsTo_exact hround ha rfl

/-- A finite stream of weight `+0.0` has the value zero. -/
theorem fmul_posZero_exact {a : Word} (ha : isFinite a = true) :
    isFinite (fmul posZero a) = true ∧ ratVal (fmul posZero a) = 0 := by
  have hround := fmul_roundsTo (show isFinite posZero = true by decide) ha
  rw [ratVal_posZero, zero_mul] at hround
  exact roundsTo_exact hround (by decide) ratVal_posZero

/-- A sum whose exact value is a binary32 equals it as a number. -/
theorem feq_fadd_of_exact {a b c : Word} (ha : isFinite a = true) (hb : isFinite b = true)
    (hc : isFinite c = true) (h : ratVal c = ratVal a + ratVal b) : feq (fadd a b) c = true := by
  obtain ⟨hfin, hval⟩ := roundsTo_exact (fadd_roundsTo ha hb) hc h
  exact feq_of_ratVal_eq hfin hc (hval.trans h.symm)

/-- The mix at the two weights that the first weight gives (R191). -/
theorem hybMixed_of_weights {x : Regs} {p q : Word} (hp : getReg x .hybMix = p)
    (hq : fsub fOne p = q) : hybMixed defaultNum x =
      fadd (fmul p (getReg x .hybFm1)) (fmul q (getReg x .hybFm2)) := by
  subst hp hq
  rfl

/-- Settles O52: the weights are 1.0 and `+0.0`, or the other way round. -/
theorem hybMixReducesToOneStream : Obligations.HybMixReducesToOneStream := by
  intro x h1 h2
  constructor
  · intro hmix
    obtain ⟨hfirst, hvalFirst⟩ := fmul_fOne_exact h1
    obtain ⟨hsecond, hvalSecond⟩ := fmul_posZero_exact h2
    rw [hybMixed_of_weights hmix (show fsub fOne fOne = posZero by decide)]
    exact feq_fadd_of_exact hfirst hsecond h1 (by rw [hvalFirst, hvalSecond, add_zero])
  · intro hmix
    obtain ⟨hfirst, hvalFirst⟩ := fmul_posZero_exact h1
    obtain ⟨hsecond, hvalSecond⟩ := fmul_fOne_exact h2
    rw [hybMixed_of_weights hmix (show fsub fOne posZero = fOne by decide)]
    exact feq_fadd_of_exact hfirst hsecond h2 (by rw [hvalFirst, hvalSecond, zero_add])

/-! The pseudocode (R191 to R193). -/

/-- Settles O50: the pseudocode's smoothed value and phase are `hybSmoothed` and `hybPhase`, and the output is
the hyperbolic tangent of `resynth` of the phase. -/
theorem hybTickResult : Obligations.HybTickResult := by
  refine ⟨exec_hybTick, ?_⟩
  rintro P s t rfl p mixed sn ph
  have hsn : hybSmoothed P.num s.regs s.hyb = sn := rfl
  have hph : hybPhase P.num s.regs s.hyb = ph := rfl
  rw [hybTickWith_hyb, getReg_hybTickWith_hybOut, hsn, hph]
  exact ⟨rfl, rfl, rfl⟩

end Sys2Proof.Proofs
end

section
/-!
PROOFS. The host port and the plain commands (R200 to R206): what each transaction does by the kind of its
register number, the dispatch of a command word, `NOP`, and the five `INIT` commands.
-/
namespace Sys2Proof.Proofs

open Sys2Proof.Machine

/-! Transactions by the kind of register number (R201, R202). -/

/-- A number that no register has is not in the map (R26). -/
theorem regOfNumber_of_unmapped {n : RegNum} (h : ∀ r, regNumber r ≠ n) : regOfNumber n = none := by
  cases hn : regOfNumber n with
  | none => rfl
  | some r => exact absurd (regNumber_of_regOfNumber hn) (h r)

/-- A `RegWrite` to `CMD` executes its word (R201, R204). -/
theorem performWrite_cmd (w : Word) (s : State) : performWrite cmdNumber w s = execute w s :=
  if_pos rfl

/-- A `RegWrite` to an output register is refused (R201). -/
theorem performWrite_of_readOnly {r : Reg} (v : Word) (s : State) (hr : isReadOnly r = true) :
    performWrite (regNumber r) v s = .refused (.writeReadOnly (regNumber r)) := by
  simp [performWrite, regNumber_ne_cmd, hostWrite, hr]

/-- A `RegWrite` to an unmapped number is refused (R201). -/
theorem performWrite_of_unmapped {n : RegNum} (v : Word) (s : State) (hcmd : n ≠ cmdNumber)
    (hn : ∀ r, regNumber r ≠ n) : performWrite n v s = .refused (.writeUnmapped n) := by
  simp [performWrite, hcmd, hostWrite, regOfNumber_of_unmapped hn]

/-- A `RegRead` of `CMD` is refused (R202). -/
theorem performRead_cmd (s : State) : performRead cmdNumber s = .refused .readCmd := by
  simp [performRead, hostRead]

/-- A `RegRead` of an unmapped number is refused (R202). -/
theorem performRead_of_unmapped {n : RegNum} (s : State) (hcmd : n ≠ cmdNumber)
    (hn : ∀ r, regNumber r ≠ n) : performRead n s = .refused (.readUnmapped n) := by
  simp [performRead, hostRead, hcmd, regOfNumber_of_unmapped hn]

/-! A unit's record sees neither the registers nor the host's side (R30 to R34). -/

@[simp] theorem samePrivate_withRegs_left {u : UnitName} {s t : State} {x : Regs} :
    SamePrivate u (s.withRegs x) t ↔ SamePrivate u s t := by
  cases u <;> rfl

@[simp] theorem samePrivate_withRegs_right {u : UnitName} {s t : State} {x : Regs} :
    SamePrivate u s (t.withRegs x) ↔ SamePrivate u s t := by
  cases u <;> rfl

@[simp] theorem samePrivate_withHost_left {u : UnitName} {s t : State} {h : HostSide} :
    SamePrivate u (s.withHost h) t ↔ SamePrivate u s t := by
  cases u <;> rfl

/-- Settles O7: `CMD`, a read-write, a read-only and an unmapped number are the cases of `performWrite`. -/
theorem regWriteRule : Obligations.RegWriteRule := by
  intro s n v rest hp
  refine ⟨?cmd, ?readWrite, ?readOnly, ?unmapped⟩
  case cmd =>
    rintro rfl
    exact (step_of_pending hp).trans (performWrite_cmd v _)
  case readWrite =>
    rintro r rfl hr
    exact ⟨_, step_of_regWrite hr hp, getReg_setReg_same _ r v,
      fun _ hq => getReg_setReg_other _ v hq, fun u => by simp [samePrivate_refl], rfl⟩
  case readOnly =>
    rintro r rfl hr
    exact (step_of_pending hp).trans (performWrite_of_readOnly v _ hr)
  case unmapped =>
    intro hcmd hn
    exact (step_of_pending hp).trans (performWrite_of_unmapped v _ hcmd hn)

/-- Settles O8: a register's number, `CMD` and an unmapped number are the cases of `performRead`. -/
theorem regReadRule : Obligations.RegReadRule := by
  intro s n rest hp
  refine ⟨?mapped, ?cmd, ?unmapped⟩
  case mapped =>
    rintro r rfl
    exact ⟨_, step_of_regRead hp, rfl, rfl, fun u => by simp [samePrivate_refl]⟩
  case cmd =>
    rintro rfl
    exact (step_of_pending hp).trans (performRead_cmd (s.withHost (hostTakes s.host rest)))
  case unmapped =>
    intro hcmd hn
    exact (step_of_pending hp).trans (performRead_of_unmapped _ hcmd hn)

/-! Dispatch, `NOP` and the reset event (R203, R204, R230). -/

/-- `execute` of a command's word is that command's `exec` (R204). -/
theorem execute_of_decode {w : Word} {i : Instr} (s : State) (h : decode w = .ok i) :
    execute w s = exec i s := by
  simp [execute, h]

/-- Settles O4: the step hands the word to `execute`, which dispatches it. -/
theorem stepRunsTheDecodedCommand : Obligations.StepRunsTheDecodedCommand := by
  intro s w i rest hp hi
  calc step s = performWrite cmdNumber w (s.withHost (hostTakes s.host rest)) := step_of_pending hp
    _ = execute w (s.withHost (hostTakes s.host rest)) := performWrite_cmd w _
    _ = exec i (s.withHost (hostTakes s.host rest)) := execute_of_decode _ hi

/-- A pending reset event is the step to the reset state, the transaction taken off the host's list
(R230). -/
theorem step_of_reset {s : State} {rest : List Transaction} (h : s.host.pending = .reset :: rest) :
    step s = .next (State.reset.withHost (hostTakes s.host rest)) :=
  step_of_pending h

/-- Settles O11: the state after the reset event has the host's side of the state before. -/
theorem resetEventKeepsTheHostSide : Obligations.ResetEventKeepsTheHostSide :=
  fun _ _ hp => ⟨_, step_of_reset hp, rfl⟩

theorem exec_nop (s : State) : exec .nop s = .next s := rfl

/-- Settles O13: the zero word is the encoding of `NOP`. -/
theorem nopChangesNothing : Obligations.NopChangesNothing :=
  ⟨decode_encode .nop, exec_nop⟩

/-! `INIT` (R206). -/

/-- Where every word written is the same, each register written reads it, and so does one that read it
before. -/
theorem getReg_writeOutputs_of_forall {u : UnitName} {x : Regs} {r : Reg} {v : Word}
    {ws : List (OutputReg u × Word)} (hv : ∀ w ∈ ws, w.2 = v)
    (hr : getReg x r = v ∨ r ∈ ws.map (fun w => w.1.val)) :
    getReg (writeOutputs x ws) r = v := by
  induction ws generalizing x with
  | nil => simpa [writeOutputs] using hr
  | cons w rest ih =>
    obtain ⟨hw, hrest⟩ := List.forall_mem_cons.mp hv
    refine ih hrest ?_
    by_cases heq : r = w.1.val
    · simp [heq, hw]
    · simpa [getReg_setReg, heq] using hr

/-- `INIT` writes every output of its unit. -/
theorem mem_initEffect_outputs {u : UnitName} {r : Reg} (hr : isOutputOf u r = true) :
    r ∈ (initEffect u).outputs.map (fun w => w.1.val) := by
  have listed : ∀ q ∈ allRegs, isOutputOf u q = true →
      q ∈ (initEffect u).outputs.map (fun w => w.1.val) := by
    cases u <;> decide
  exact listed r (mem_allRegs r) hr

/-- `INIT` writes nothing but `+0.0`. -/
theorem initEffect_outputs_posZero (u : UnitName) : ∀ w ∈ (initEffect u).outputs, w.2 = posZero := by
  cases u <;> simp [initEffect]

/-- `INIT` leaves its unit's record at its reset value. -/
theorem samePrivate_initEffect_reset (u : UnitName) (s : State) :
    SamePrivate u ((initEffect u).apply s) State.reset := by
  cases u <;> rfl

/-- Settles O14: the effect of an `INIT` is the reset record and `+0.0` in every output; the rest is the
frame of its effect. -/
theorem initRule : Obligations.InitRule := by
  intro u s
  have hreset := samePrivate_initEffect_reset u s
  exact ⟨_, exec_initOfUnit u s, hreset,
    fun _ hr => getReg_writeOutputs_of_forall (initEffect_outputs_posZero u)
      (.inr (mem_initEffect_outputs hr)),
    fun _ hr => getReg_writeOutputs_other _ hr,
    fun _ hv => (initEffect u).samePrivate_apply_other s hv,
    (initEffect u).apply_host s,
    fun _ _ => rfl, samePrivate_withRegs_right.mpr hreset⟩

end Sys2Proof.Proofs
end

section
/-!
PROOFS. No exception (R210): the idle step, the one way a step could fault, and the runs that a safe state begins.
-/
namespace Sys2Proof.Proofs

open Sys2Proof.Machine

/-- Settles O5: of the two cases of a step, only the idle one has nothing pending. -/
theorem idleCoreHoldsAllState : Obligations.IdleCoreHoldsAllState := by
  intro s hidle
  rcases step_cases s with ⟨_, hstep⟩ | ⟨tr, rest, hpending, _⟩
  · exact hstep
  · exact absurd (hidle.symm.trans hpending) (List.cons_ne_nil tr rest).symm

/-! One step. -/

/-- No command faults where HIL's record is safe: `HIL.TICK` completes there, the others everywhere
(R124, R210). -/
theorem exec_ne_fault {s : State} (hs : hilSafe s.hil = true) (i : Instr) (r : Fault) :
    exec i s ≠ .fault r := by
  intro hfault
  cases i
  case hilTick =>
    obtain ⟨_, _, hnext, _⟩ := exec_hilTick_of_hilSafe hs
    cases hnext.symm.trans hfault
  all_goals cases hfault

/-- `execute` faults only where the command it decodes does: a reserved word is refused (R75, R204). -/
theorem execute_fault {w : Word} {s : State} {r : Fault} (h : execute w s = .fault r) :
    ∃ i, exec i s = .fault r := by
  unfold execute at h
  split at h
  next i _ => exact ⟨i, h⟩
  · cases h

/-- A transaction faults only as a command that faults: every register access is performed or refused
(R201, R202, R230). -/
theorem perform_fault {tr : Transaction} {s : State} {r : Fault} (h : perform tr s = .fault r) :
    ∃ i, exec i s = .fault r := by
  cases tr with
  | regWrite n v =>
    simp only [perform, performWrite] at h
    split at h
    · exact execute_fault h
    · split at h <;> cases h
  | regRead n =>
    simp only [perform, performRead] at h
    split at h <;> cases h
  | reset => cases h

/-- Settles O56: an idle step cannot fault, and a transaction could only through a command, run on the same
safe HIL record. -/
theorem safeStatesNeverFault : Obligations.SafeStatesNeverFault := by
  intro s r hs hfault
  rcases step_cases s with ⟨_, hstep⟩ | ⟨tr, rest, _, hstep⟩
  · cases hstep.symm.trans hfault
  · obtain ⟨i, hexec⟩ := perform_fault (hstep.symm.trans hfault)
    have hhil : hilSafe (s.withHost (hostTakes s.host rest)).hil = true := (safe_iff.mp hs).1
    exact exec_ne_fault hhil i r hexec

/-! Runs. -/

/-- A run that faults does so in its first step or in the run after it. -/
theorem run_succ_fault {k : Nat} {s : State} {r : Fault}
    (h : Sys2Proof.core.run (k + 1) s = .fault r) :
    step s = .fault r ∨ ∃ t, step s = .next t ∧ Sys2Proof.core.run k t = .fault r := by
  cases hstep : Sys2Proof.core.step s with
  | next t => exact .inr ⟨t, hstep, by simpa only [Host.Core.run, hstep] using h⟩
  | fault q =>
    simp only [Host.Core.run, hstep] at h
    cases h
    exact .inl hstep
  | refused q => simp only [Host.Core.run, hstep, reduceCtorEq] at h

/-- No run from a safe state faults: no step of it does, and each leads to a safe state. -/
theorem run_ne_fault {s : State} (hs : s.safe = true) (k : Nat) (r : Fault) :
    Sys2Proof.core.run k s ≠ .fault r := by
  induction k generalizing s with
  | zero => exact fun hfault => by cases hfault
  | succ k ih =>
    intro hfault
    rcases run_succ_fault hfault with hstep | ⟨t, hstep, hrun⟩
    · exact safeStatesNeverFault s r hs hstep
    · exact ih (everyStepKeepsTheStateSafe s t hs hstep) hrun

/-- The reset values are safe, whatever the host has pending (R230). -/
theorem safe_reset_withHost (h : HostSide) : (State.reset.withHost h).safe = true := by
  rw [safe_withHost]
  decide

/-- Settles O57: the run begins in the reset state, which is safe with every script. -/
theorem noHostScriptFaults : Obligations.NoHostScriptFaults :=
  fun script k r => run_ne_fault (safe_reset_withHost ⟨script, []⟩) k r

end Sys2Proof.Proofs
end

section
/-!
PROOFS. Reset (R230, R233): what the reset state holds, and the five `INIT` commands that lead there in any order
once the writable registers are zeroed.
-/
namespace Sys2Proof.Proofs

open Sys2Proof.Machine Sys2Proof.Config

/-! The reset state (R230). -/

/-- Every voice of the reset state is the reset voice (R31). -/
theorem voiceAt_reset (k : Fin choVoices) : voiceAt ChoState.reset k = Voice.reset := by
  match k with
  | 0 | 1 | 2 | 3 | 4 => rfl

/-- Settles O10: the reset event is a step to `State.reset` under some host side, and the memories of
`State.reset` are empty. -/
theorem resetClearsEverything : Obligations.ResetClearsEverything := by
  refine ⟨fun _ _ hp => ⟨_, step_of_reset hp⟩, getReg_reset, memRead_memClear, rfl, rfl, fun k => ?_,
    rfl, rfl, rfl⟩
  rw [State.reset_cho, voiceAt_reset]
  exact ⟨memRead_memClear, memRead_memClear, rfl, rfl⟩

/-- Settles O54: the reset state is safe with every host side, so with its own. -/
theorem resetStateIsSafe : Obligations.ResetStateIsSafe :=
  safe_reset_withHost State.reset.host

/-! Units at reset: `INIT` puts its unit there and takes no other unit away (R206). -/

/-- The unit's record and its outputs hold their reset values. -/
def AtReset (u : UnitName) (s : State) : Prop :=
  SamePrivate u s State.reset ∧ ∀ r, isOutputOf u r = true → getReg s.regs r = posZero

theorem samePrivate_trans {u : UnitName} {s t v : State} (hst : SamePrivate u s t)
    (htv : SamePrivate u t v) : SamePrivate u s v := by
  cases u <;> exact Eq.trans hst htv

/-- An `INIT` completes, leaves the host's side alone, puts its unit at reset and keeps at reset every unit
that was there (R206). -/
theorem exec_initOfUnit_atReset (u : UnitName) (s : State) :
    ∃ t, exec (initOfUnit u) s = .next t ∧ t.host = s.host ∧
      ∀ v, v = u ∨ AtReset v s → AtReset v t := by
  obtain ⟨t, hexec, hrecord, hzero, hregs, hothers, hhost, _⟩ := initRule u s
  refine ⟨t, hexec, hhost, fun v hv => ?_⟩
  by_cases hvu : v = u
  · subst hvu
    exact ⟨hrecord, hzero⟩
  · obtain ⟨hsame, hout⟩ := hv.resolve_left hvu
    refine ⟨samePrivate_trans (hothers v hvu) hsame, fun r hr => ?_⟩
    rw [hregs r (isOutputOf_disjoint (Ne.symm hvu) hr)]
    exact hout r hr

theorem initOfUnit_injective {u v : UnitName} (h : initOfUnit u = initOfUnit v) : u = v := by
  have hunit (w : UnitName) : unitOf (initOfUnit w) = some w := by cases w <;> rfl
  exact Option.some.inj ((hunit u).symm.trans ((congrArg unitOf h).trans (hunit v)))

/-- A list of `INIT` commands completes, leaves the host's side alone and puts at reset the unit of every
command in it. -/
theorem execAll_inits_atReset {order : List Instr} (h : ∀ i ∈ order, ∃ u, i = initOfUnit u)
    (s : State) : ∃ t, execAll order s = .next t ∧ t.host = s.host ∧
      ∀ v, initOfUnit v ∈ order ∨ AtReset v s → AtReset v t := by
  induction order generalizing s with
  | nil => exact ⟨s, rfl, rfl, fun v hv => hv.resolve_left List.not_mem_nil⟩
  | cons i rest ih =>
    obtain ⟨⟨u, rfl⟩, hrest⟩ := List.forall_mem_cons.mp h
    obtain ⟨m, hexec, hhost, hfirst⟩ := exec_initOfUnit_atReset u s
    obtain ⟨t, hrun, hhost', hlater⟩ := ih hrest m
    refine ⟨t, (execAll_cons_of_next rest hexec).trans hrun, hhost'.trans hhost, fun v hv => ?_⟩
    rcases hv with hmem | hv
    · rcases List.mem_cons.mp hmem with heq | hmem
      · exact hlater v (.inr (hfirst v (.inl (initOfUnit_injective heq))))
      · exact hlater v (.inl hmem)
    · exact hlater v (.inr (hfirst v (.inr hv)))

/-! Zeroing the writable registers (R233). -/

/-- One word stored in each register of a list is what those registers read, and no other. -/
theorem getReg_foldl_setReg (l : List Reg) (x : Regs) (v : Word) (r : Reg) :
    getReg (l.foldl (fun y q => setReg y q v) x) r = if r ∈ l then v else getReg x r := by
  induction l generalizing x with
  | nil => simp
  | cons q rest ih =>
    rw [List.foldl_cons, ih, getReg_setReg]
    by_cases hr : r = q <;> simp [hr]

/-- `zeroWritable` keeps the outputs and zeroes every other register. -/
theorem getReg_zeroWritable (x : Regs) (r : Reg) :
    getReg (zeroWritable x) r = if isReadOnly r then getReg x r else posZero := by
  rw [zeroWritable, getReg_foldl_setReg]
  cases hr : isReadOnly r <;> simp [List.mem_filter, mem_allRegs, hr]

/-- Every read-only register is an output of some unit (R24). -/
theorem exists_isOutputOf {r : Reg} (h : isReadOnly r = true) : ∃ u, isOutputOf u r = true := by
  cases hu : unitOfReg r with
  | some u => exact ⟨u, by simp [isOutputOf, h, hu]⟩
  | none => cases r <;> simp [isReadOnly, unitOfReg] at h hu

/-- The five records, the registers and the host's side are all of the state (R20). -/
theorem state_ext {s t : State} (hrecord : ∀ u, SamePrivate u s t) (hregs : s.regs = t.regs)
    (hhost : s.host = t.host) : s = t := by
  cases s
  cases t
  simp only [State.mk.injEq]
  exact ⟨hregs, hrecord .hil, hrecord .cho, hrecord .wah, hrecord .oct, hrecord .hyb, hhost⟩

/-- With every unit at reset, zeroing the writable registers gives the reset state (R233). -/
theorem zeroWritable_of_atReset {t : State} (h : ∀ u, AtReset u t) :
    t.withRegs (zeroWritable t.regs) = State.reset.withHost t.host := by
  refine state_ext (fun u => ?_) (regs_ext fun r => ?_) rfl
  · exact samePrivate_withRegs_left.mpr
      (samePrivate_symm (samePrivate_withHost_left.mpr (samePrivate_symm (h u).1)))
  · rw [State.withRegs_regs, State.withHost_regs, State.reset_regs, getReg_reset, getReg_zeroWritable]
    split
    next hr =>
      obtain ⟨u, hu⟩ := exists_isOutputOf hr
      exact (h u).2 r hu
    · rfl

/-- Settles O12: the order holds the `INIT` of every unit, so each is at reset in the end; what one `INIT`
restores and keeps is `initRule`. -/
theorem resetIsTheFiveInitsPlusZeroing : Obligations.ResetIsTheFiveInitsPlusZeroing := by
  refine ⟨fun order hperm s => ?_, fun u s => ?_⟩
  · have hinits : ∀ i ∈ order, ∃ u, i = initOfUnit u := by
      intro i hi
      have hmem := hperm.mem_iff.mp hi
      simp only [List.mem_cons, List.not_mem_nil, or_false] at hmem
      rcases hmem with rfl | rfl | rfl | rfl | rfl
      exacts [⟨.hil, rfl⟩, ⟨.cho, rfl⟩, ⟨.wah, rfl⟩, ⟨.oct, rfl⟩, ⟨.hyb, rfl⟩]
    have hall (u : UnitName) : initOfUnit u ∈ order := hperm.mem_iff.mpr (by cases u <;> decide)
    obtain ⟨t, hrun, hhost, hreset⟩ := execAll_inits_atReset hinits s
    exact ⟨t, hrun, hhost ▸ zeroWritable_of_atReset fun u => hreset u (.inl (hall u))⟩
  · obtain ⟨t, hexec, hrecord, hzero, hregs, _⟩ := initRule u s
    exact ⟨t, hexec, hrecord, fun r hr => (hzero r hr).trans (getReg_reset r).symm,
      fun r hr => hregs r (by simp [isOutputOf, hr])⟩

end Sys2Proof.Proofs
end

section
/-!
PROOFS. Poisoned state (R244): a sum or product with an operand that is not finite is not finite, and what
follows for the accumulators and the outputs of CHO, WAH, OCT and HYB.
-/
namespace Sys2Proof.Proofs

open Sys2Proof.Machine Sys2Proof.Config

/-! Operands that are not finite (R91, R92). -/

/-- What is not finite is a NaN or an infinity (R10). -/
theorem isInf_of_not_finite {w : Word} (h : isFinite w = false) (hn : isNaN w = false) :
    isInf w = true := by
  have hexp : expField w = 255 := by simpa [isFinite] using h
  simpa [isNaN, isInf, hexp] using hn

theorem not_isFinite_of_isInf {w : Word} (h : isInf w = true) : isFinite w = false :=
  Bool.eq_false_iff.mpr fun hfin => by simp [isInf_of_isFinite hfin] at h

theorem not_isFinite_of_isNaN {w : Word} (h : isNaN w = true) : isFinite w = false :=
  Bool.eq_false_iff.mpr fun hfin => by simp [isNaN_of_isFinite hfin] at h

theorem not_isFinite_canonNaN : isFinite canonNaN = false := not_isFinite_of_isNaN isNaN_canonNaN

/-- A sum with an operand that is not finite is not finite: opposite infinities give NaN. -/
theorem not_isFinite_fadd {a b : Word} (h : isFinite a = false ∨ isFinite b = false) :
    isFinite (fadd a b) = false := by
  by_cases hnan : isNaN a = true ∨ isNaN b = true
  · rw [fadd_of_isNaN hnan]
    exact not_isFinite_canonNaN
  · simp only [not_or, Bool.not_eq_true] at hnan
    obtain ⟨han, hbn⟩ := hnan
    cases ha : isFinite a with
    | false =>
      rw [fadd_of_isInf (isInf_of_not_finite ha han) hbn]
      split
      · exact not_isFinite_canonNaN
      · exact ha
    | true =>
      have hb : isFinite b = false := h.resolve_left (by simp [ha])
      rw [fadd_of_isFinite_of_isInf ha (isInf_of_not_finite hb hbn)]
      exact hb

/-- An infinity times a number is not finite, either way: a zero gives NaN. -/
theorem not_isFinite_fmul_of_isInf {a b : Word} (ha : isInf a = true) (hbn : isNaN b = false) :
    isFinite (fmul a b) = false ∧ isFinite (fmul b a) = false := by
  cases h0 : isZero b with
  | true =>
    obtain ⟨hab, hba⟩ := fmul_isInf_isZero ha h0
    rw [hab, hba]
    exact ⟨not_isFinite_canonNaN, not_isFinite_canonNaN⟩
  | false =>
    obtain ⟨hab, hba⟩ := fmul_of_isInf ha hbn h0
    rw [hab, hba]
    have hinf := not_isFinite_of_isInf (isInf_pack_infMag (isNeg a != isNeg b))
    exact ⟨hinf, hinf⟩

/-- A product with an operand that is not finite is not finite. -/
theorem not_isFinite_fmul {a b : Word} (h : isFinite a = false ∨ isFinite b = false) :
    isFinite (fmul a b) = false := by
  by_cases hnan : isNaN a = true ∨ isNaN b = true
  · rw [fmul_of_isNaN hnan]
    exact not_isFinite_canonNaN
  · simp only [not_or, Bool.not_eq_true] at hnan
    obtain ⟨han, hbn⟩ := hnan
    rcases h with ha | hb
    · exact (not_isFinite_fmul_of_isInf (isInf_of_not_finite ha han) hbn).1
    · exact (not_isFinite_fmul_of_isInf (isInf_of_not_finite hb hbn) han).2

/-- The resynthesis of a phase that is not finite is NaN, whatever the amplitude (R98, R108). -/
theorem resynth_of_not_finite (a : Word) {ph : Word} (h : isFinite ph = false) :
    resynth defaultNum a ph = canonNaN := by
  obtain ⟨_, hcosr, _⟩ := tableCosineRange
  exact fmul_of_isNaN (.inr ((congrArg isNaN (hcosr ph h)).trans isNaN_canonNaN))

/-! CHO: one poisoned voice reaches the sum, and a NaN is clamped to `VMAX` (R95, R147). -/

/-- A NaN phase is NaN after the tick (R145). -/
theorem choPhase_of_isNaN {V : Voice} (x : Regs) (i : Nat) (h : isNaN V.ph = true) :
    choPhase defaultNum x i V = canonNaN :=
  wrap2pi_of_not_finite (not_isFinite_fadd (.inl (not_isFinite_of_isNaN h)))

/-- The output of a voice whose phase is NaN is NaN (R146). -/
theorem choVoiceOut_of_isNaN {V : Voice} (x : Regs) (i : Nat) (h : isNaN V.ph = true) :
    choVoiceOut defaultNum x i V = canonNaN := by
  rw [choVoiceOut, choPhase_of_isNaN x i h]
  exact resynth_of_not_finite _ not_isFinite_canonNaN

/-- The sum of the voices is a running sum over the voice records (R146, R151). -/
theorem choSum_eq_foldl (N : NumConfig) (x : Regs) (c : ChoState) :
    choSum N x c = (List.finRange choVoices).foldl
      (fun sum (i : Fin choVoices) => N.fadd sum (choVoiceOut N x i (voiceAt c i))) posZero := rfl

/-- A running sum is NaN where it starts from a NaN or adds one. -/
theorem isNaN_foldl_fadd {ι : Type} {f : ι → Word} {l : List ι} {a : Word}
    (h : isNaN a = true ∨ ∃ i ∈ l, isNaN (f i) = true) :
    isNaN (l.foldl (fun sum i => fadd sum (f i)) a) = true := by
  induction l generalizing a with
  | nil => exact h.resolve_right fun ⟨_, hmem, _⟩ => List.not_mem_nil hmem
  | cons j rest ih =>
    rw [List.foldl_cons]
    rcases h with ha | ⟨i, hmem, hi⟩
    · exact ih (.inl (by rw [fadd_of_isNaN (.inl ha), isNaN_canonNaN]))
    · rcases List.mem_cons.mp hmem with rfl | hmem
      · exact ih (.inl (by rw [fadd_of_isNaN (.inr hi), isNaN_canonNaN]))
      · exact ih (.inr ⟨i, hmem, hi⟩)

/-- The sum of the voices is NaN where one voice's output is (R146). -/
theorem isNaN_choSum {x : Regs} {c : ChoState} {i : Fin choVoices}
    (h : isNaN (choVoiceOut defaultNum x i (voiceAt c i)) = true) :
    isNaN (choSum defaultNum x c) = true := by
  rw [choSum_eq_foldl]
  exact isNaN_foldl_fadd (.inr ⟨i, List.mem_finRange i, h⟩)

/-- A NaN sum gives `VMAX` (R95, R147). -/
theorem choOutput_of_isNaN {sum : Word} (h : isNaN sum = true) : choOutput defaultParams sum = f10 := by
  have hgain : isNaN (fmul (fdiv sum f5) f2p5) = true := by
    rw [fdiv_of_isNaN (.inl h), fmul_of_isNaN (.inl isNaN_canonNaN), isNaN_canonNaN]
  rw [choOutput]
  exact clamp_of_isNaN (fneg defaultParams.vmax) defaultParams.vmax hgain

/-- A NaN phase of a voice stays, and holds `CHO_OUT` at `VMAX` (R244). -/
theorem choTick_of_isNaN_phase {s : State} {i : Fin choVoices} (h : isNaN (voiceAt s.cho i).ph = true) :
    isNaN (voiceAt (choTickWith defaultParams s).cho i).ph = true ∧
      getReg (choTickWith defaultParams s).regs .choOut = f10 := by
  have hphase := choPhase_of_isNaN s.regs i h
  have hout := choVoiceOut_of_isNaN s.regs i h
  rw [voiceAt_choTickWith, choVoiceAfter_ph, getReg_choTickWith_choOut]
  exact ⟨(congrArg isNaN hphase).trans isNaN_canonNaN,
    choOutput_of_isNaN (isNaN_choSum ((congrArg isNaN hout).trans isNaN_canonNaN))⟩

/-! WAH: the smoothing history stays in the blend (R164). -/

theorem wahSmoothed_not_finite {w : WahState} (x : Regs) (h : isFinite w.sm = false) :
    isFinite (wahSmoothed defaultNum x w) = false :=
  not_isFinite_fadd (.inr (not_isFinite_fmul (.inr h)))

/-! OCT: one subtraction of a turn does not mend a phase (R182). -/

theorem octWrap_not_finite {p : Word} (h : isFinite p = false) :
    isFinite (octWrap defaultNum p) = false := by
  cases hp : fgt p fTwoPi with
  | true =>
    rw [octWrap_of_fgt hp]
    exact not_isFinite_fadd (.inl h)
  | false =>
    rw [octWrap_of_not_fgt hp]
    exact h

theorem octPhase_not_finite {o : OctState} (x : Regs) (h : isFinite o.ph = false) :
    isFinite (octPhase defaultNum x o) = false :=
  octWrap_not_finite (not_isFinite_fadd (.inl h))

/-! HYB: the smoothed frequency keeps its history and drives the phase (R191). -/

theorem hybSmoothed_not_finite {y : HybState} (x : Regs) (h : isFinite y.sm = false) :
    isFinite (hybSmoothed defaultNum x y) = false :=
  not_isFinite_fadd (.inl (not_isFinite_fmul (.inr h)))

/-- The phase increment of a frequency that is not finite is not finite (R108). -/
theorem phaseInc_not_finite {f : Word} (dt : Word) (h : isFinite f = false) :
    isFinite (phaseInc defaultNum f dt) = false :=
  not_isFinite_fmul (.inl (not_isFinite_fmul (.inr h)))

theorem hybPhase_not_finite {y : HybState} (x : Regs)
    (h : isFinite y.sm = false ∨ isFinite y.ph = false) :
    isFinite (hybPhase defaultNum x y) = false := by
  rcases h with hsm | hph
  · exact not_isFinite_fadd (.inr (phaseInc_not_finite _ (hybSmoothed_not_finite x hsm)))
  · exact not_isFinite_fadd (.inl hph)

/-- Settles O53: each accumulator is an operand of the sum that replaces it, and the table cosine of a phase
that is not finite is NaN. -/
theorem poisonedStateStaysPoisoned : Obligations.PoisonedStateStaysPoisoned := by
  refine ⟨fun s t i hnan hexec => ?cho, fun s t hsm hexec => ?wah, fun s t hph hexec => ?oct,
    fun s t hpoison hexec => ?hyb⟩
  case cho =>
    obtain rfl := Host.Outcome.next.inj ((exec_choTick s).symm.trans hexec)
    exact choTick_of_isNaN_phase hnan
  case wah =>
    obtain rfl := eq_of_exec_wahTick hexec
    exact wahSmoothed_not_finite s.regs hsm
  case oct =>
    obtain rfl := eq_of_exec_octTick hexec
    have hphase := octPhase_not_finite s.regs hph
    rw [octTickWith_oct_ph, getReg_octTickWith_octOut]
    exact ⟨hphase, resynth_of_not_finite _ hphase⟩
  case hyb =>
    obtain rfl := eq_of_exec_hybTick hexec
    have hphase := hybPhase_not_finite s.regs hpoison
    have hresynth := resynth_of_not_finite (getReg s.regs .hybAm) hphase
    rw [hybTickWith_hyb, getReg_hybTickWith_hybOut]
    exact ⟨hybSmoothed_not_finite s.regs, hphase,
      tanhDefault_of_isNaN ((congrArg isNaN hresynth).trans isNaN_canonNaN)⟩

end Sys2Proof.Proofs
end
